-- ==== Sys2Proof/Word.lean ====
section
/-! DEFINITION. The widths of 00_scope rule R6 and 10_state rule R11: every quantity is unsigned. -/

namespace Sys2Proof

/-- A byte of BUF, EXTRA or VAL; also the width of `SFX_EXTRA_LEN`, of a record's `tag` and `len`, and of `OPC`. -/
abbrev Byte := BitVec 8

/-- A 16-bit trailer field (10_state rule R18). -/
abbrev Half := BitVec 16

/-- A 32-bit register slot (10_state rule R11) or command word (30_encoding rule R60). -/
abbrev Word := BitVec 32

end Sys2Proof
end

