-- ==== Sys2Proof/Syntax.lean ====
section
/-! DEFINITION. The nine commands of the opcode map (30_encoding rule R62), one constructor each.
A command's only operand in the word is `FLG`, where it has one (rule R61); all else is in registers (rule R63). -/

namespace Sys2Proof

/-- A command of the engine. -/
inductive Instr where
  /-- CRC_INIT (40_crc rule R95). -/
  | crcInit
  /-- CRC_COMPUTE (40_crc rule R96). -/
  | crcCompute
  /-- SFX_PARSE, and SFX_PARSE.V where `verify` holds (41_suffix rule R116). -/
  | sfxParse (verify : Bool)
  /-- SFX_SERIALIZE (41_suffix rule R124). -/
  | sfxSerialize
  /-- TLV_PARSE (42_tlv rule R143). -/
  | tlvParse
  /-- TLV_SERIALIZE (42_tlv rule R152). -/
  | tlvSerialize
  /-- OP_ADD, and OP_ADD.F where `force` holds (43_workflow rule R172). -/
  | opAdd (force : Bool)
  /-- OP_VERIFY (43_workflow rule R175). -/
  | opVerify
  /-- OP_REMOVE, and OP_REMOVE.F where `force` holds (43_workflow rules R180, R181). -/
  | opRemove (force : Bool)
  deriving DecidableEq, Repr

end Sys2Proof
end

