-- ==== Sys2Proof/WellFormed.lean ====
section
/-! DEFINITION. Which commands and which command words are legal.
Every term of `Instr` is a legal command (twelve of them); what can be ill-formed is a command WORD
(30_encoding rule R64), checked here in the match/mask form of rule R62, apart from the decoder's own tests. -/

namespace Sys2Proof

/-- Every command, with `FLG` at either value where it has one, is legal (30_encoding rules R61, R62). -/
def Instr.wellFormed : Instr → Bool
  | .crcInit => true
  | .crcCompute => true
  | .sfxParse _ => true
  | .sfxSerialize => true
  | .tlvParse => true
  | .tlvSerialize => true
  | .opAdd _ => true
  | .opVerify => true
  | .opRemove _ => true

/-- A row of the opcode map (30_encoding rule R62): the opcode, and whether `FLG` is allowed. -/
structure OpcodeRow where
  mnemonic : String
  opc : Byte
  flagAllowed : Bool
  deriving DecidableEq, Repr

/-- The opcode map of 30_encoding rule R62. -/
def opcodeMap : List OpcodeRow :=
  [⟨"CRC_INIT", 0x01, false⟩, ⟨"CRC_COMPUTE", 0x02, false⟩,
   ⟨"SFX_PARSE", 0x10, true⟩, ⟨"SFX_SERIALIZE", 0x11, false⟩,
   ⟨"TLV_PARSE", 0x20, false⟩, ⟨"TLV_SERIALIZE", 0x21, false⟩,
   ⟨"OP_ADD", 0x30, true⟩, ⟨"OP_VERIFY", 0x31, false⟩, ⟨"OP_REMOVE", 0x32, true⟩]

/-- The mask of a row: bit 8 is free where `FLG` is allowed (30_encoding rule R62). -/
def OpcodeRow.mask (r : OpcodeRow) : Word :=
  if r.flagAllowed then 0xFFFFFEFF else 0xFFFFFFFF

/-- The match/mask form of a row (30_encoding rule R62). -/
def OpcodeRow.admits (r : OpcodeRow) (w : Word) : Bool :=
  w &&& r.mask == r.opc.setWidth 32

/-- A command word is legal when some row admits it (30_encoding rules R62, R64). -/
def commandWordLegal (w : Word) : Bool :=
  opcodeMap.any (·.admits w)

end Sys2Proof
end

