-- ==== Sys2Proof/Decode.lean ====
section
/-! DEFINITION. The decoder of 30_encoding rule R62, total on every 32-bit word, and the encoder. -/

namespace Sys2Proof

/-- Why a command word is illegal (30_encoding rule R64). All three end in `IllegalCommand`. -/
inductive Reject where
  /-- `RSV` is not zero. -/
  | reservedBits
  /-- `OPC` is not in the opcode map. -/
  | unlistedOpcode
  /-- `FLG` is 1 on a command whose row says no. -/
  | flagNotAllowed
  deriving DecidableEq, Repr

/-- `OPC`, bits 7:0 of a command word (30_encoding rule R60). -/
def opcOf (w : Word) : Byte := w.extractLsb' 0 8

/-- `FLG`, bit 8 of a command word (30_encoding rule R60). -/
def flgOf (w : Word) : Bool := w.getLsbD 8

/-- `RSV`, bits 31:9 of a command word (30_encoding rule R60). -/
def rsvOf (w : Word) : BitVec 23 := w.extractLsb' 9 23

/-- A command whose row does not allow `FLG` (30_encoding rule R61). -/
def flagless (flg : Bool) (i : Instr) : Except Reject Instr :=
  if flg then .error .flagNotAllowed else .ok i

/-- The command an opcode and a flag name (30_encoding rules R61, R62). -/
def decodeFields (opc : Nat) (flg : Bool) : Except Reject Instr :=
  match opc with
  | 0x01 => flagless flg .crcInit
  | 0x02 => flagless flg .crcCompute
  | 0x10 => .ok (.sfxParse flg)
  | 0x11 => flagless flg .sfxSerialize
  | 0x20 => flagless flg .tlvParse
  | 0x21 => flagless flg .tlvSerialize
  | 0x30 => .ok (.opAdd flg)
  | 0x31 => flagless flg .opVerify
  | 0x32 => .ok (.opRemove flg)
  | _ => .error .unlistedOpcode

/-- "check `RSV == 0`; look `OPC` up in this table; check `FLG == 0` unless the row allows it" (30_encoding rule R62). -/
def decode (w : Word) : Except Reject Instr :=
  if rsvOf w = 0 then decodeFields (opcOf w).toNat (flgOf w) else .error .reservedBits

/-- The opcode of a command (30_encoding rule R62). -/
def Instr.opc : Instr → Byte
  | .crcInit => 0x01
  | .crcCompute => 0x02
  | .sfxParse _ => 0x10
  | .sfxSerialize => 0x11
  | .tlvParse => 0x20
  | .tlvSerialize => 0x21
  | .opAdd _ => 0x30
  | .opVerify => 0x31
  | .opRemove _ => 0x32

/-- The flag of a command, 0 where it has none (30_encoding rule R61). -/
def Instr.flg : Instr → Bool
  | .crcInit => false
  | .crcCompute => false
  | .sfxParse verify => verify
  | .sfxSerialize => false
  | .tlvParse => false
  | .tlvSerialize => false
  | .opAdd force => force
  | .opVerify => false
  | .opRemove force => force

/-- The command word: `OPC` in bits 7:0, `FLG` in bit 8, zeros above (30_encoding rule R60). -/
def encode (i : Instr) : Word :=
  i.opc.setWidth 32 ||| if i.flg then 0x00000100 else 0

/-- The host's reading of a word numbered as spec/opcode_table.json numbers it: one 32-bit command word. -/
def decodeTableWord (nbits w : Nat) : Option Instr :=
  if nbits ≤ 32 then
    match decode (BitVec.ofNat 32 w) with
    | .ok i => some i
    | .error _ => none
  else none

end Sys2Proof
end

