-- ==== Sys2Proof/Config.lean ====
section
/-! DEFINITION. The open parameters of 00_scope rule R4, with the constraints that are part of that rule.
A configuration that breaks a constraint cannot be built (93_implementation_defined U11: refuse it).
The engine leaves no result undefined, so no free value stands here. -/

namespace Sys2Proof

/-- The two admissible settings of `CRC_XOR` and `DEFAULT_SEED` (40_crc rule R93). -/
inductive CrcSetting where
  | std
  | raw
  deriving DecidableEq, Repr

/-- One admissible choice of the open parameters (00_scope rule R4). -/
structure Config where
  /-- `BUF_SIZE`: bytes in the image buffer memory BUF. -/
  bufSize : Nat
  /-- `VAL_SIZE`: bytes in the TLV value memory VAL. -/
  valSize : Nat
  /-- `REC_MAX`: entries in the TLV record table REC. -/
  recMax : Nat
  /-- Which of the two settings of rule R93 holds. -/
  crc : CrcSetting
  bufSize_ge : 16 ≤ bufSize
  bufSize_lt : bufSize < 4294967296
  valSize_ge : bufSize ≤ valSize
  valSize_lt : valSize < 4294967296
  recMax_ge : bufSize / 2 ≤ recMax
  recMax_lt : recMax < 4294967296
  deriving DecidableEq, Repr

end Sys2Proof
end

