-- ==== Sys2Proof/Machine/Params.lean ====
section
/-! DEFINITION. The fixed parameters of 00_scope rule R4, the two values of the checksum setting, and the
configuration the model starts in. -/

namespace Sys2Proof.Machine

/-- `EXTRA_MAX`: bytes in the trailer's `extra` store (00_scope rule R4, 10_state rule R20). -/
def extraMax : Nat := 239

/-- `KNOWN_VID` (00_scope rule R4, 43_workflow rule R176). -/
def knownVid : Half := 0x4A61

/-- `KNOWN_PID` (00_scope rule R4, 43_workflow rule R176). -/
def knownPid : Half := 0x679C

/-- `BCDDFU_FIXED`: the protocol version OP_ADD writes (00_scope rule R4). -/
def bcdDfuFixed : Half := 0x0100

/-- `ID_DEFAULT`: the "unspecified" identifier (00_scope rule R4, 10_state rule R19). -/
def idDefault : Half := 0xFFFF

/-- `CRC_XOR` in each setting (40_crc rule R93). -/
def crcXor (c : Config) : Word :=
  match c.crc with
  | .std => 0xFFFFFFFF
  | .raw => 0x00000000

/-- `DEFAULT_SEED = 0xFFFFFFFF xor CRC_XOR` (00_scope rule R4, 40_crc rule R93). -/
def defaultSeed (c : Config) : Word := 0xFFFFFFFF ^^^ crcXor c

/-- The configuration the model starts in. The sizes are a DESIGN CHOICE (notes/assumptions/4.md): the ones
95_test_vectors uses; STD is the spec's value (40_crc rule R93, notes/assumptions/5.md). -/
def standardConfig : Config where
  bufSize := 1024
  valSize := 1024
  recMax := 512
  crc := .std
  bufSize_ge := by decide
  bufSize_lt := by decide
  valSize_ge := by decide
  valSize_lt := by decide
  recMax_ge := by decide
  recMax_lt := by decide

end Sys2Proof.Machine
end

