-- ==== Sys2Proof/Machine/State.lean ====
section
/-! DEFINITION. The architectural state of 10_state rule R10, as plain data; the host's events and what it has
read; the reasons a step can stop; the state after reset (10_state rule R32). -/

namespace Sys2Proof.Machine

/-- The three byte memories (20_memory rule R40). -/
inductive ByteSpace where
  | buf
  | extra
  | val
  deriving DecidableEq, Repr

/-- A memory space whose locations can be unwritten or absent (20_memory rule R40). `recWords` is REC, counted in its
32-bit words (10_state rule R24). -/
inductive Space where
  | buf
  | extra
  | recWords
  | val
  deriving DecidableEq, Repr

/-- The odd word of a REC entry: `tag` in bits 7:0, `len` in bits 15:8 (10_state rule R24). -/
structure RecHead where
  tag : Byte
  len : Byte
  deriving DecidableEq, Repr

/-- One event from outside the engine: a host access (20_memory rules R40, R45; one line of a host script,
30_encoding rule R66) or the platform's reset (70_reset_and_hazards rule R230). -/
inductive HostEvent where
  /-- Write a value to register slot `n`; slot 0 is `CMD`. -/
  | writeReg (n : Nat) (v : Word)
  /-- Read register slot `n`. -/
  | readReg (n : Nat)
  /-- Write one byte. -/
  | writeByte (m : ByteSpace) (i : Nat) (b : Byte)
  /-- Read one byte. -/
  | readByte (m : ByteSpace) (i : Nat)
  /-- Write 32-bit word `j` of REC. -/
  | writeRec (j : Nat) (v : Word)
  /-- Read 32-bit word `j` of REC. -/
  | readRec (j : Nat)
  /-- The platform's reset. -/
  | reset
  deriving DecidableEq, Repr

/-- What one host read returned (70_reset_and_hazards rule R237). -/
inductive ReadValue where
  | word (v : Word)
  | byte (b : Byte)
  deriving DecidableEq, Repr

/-- The engine's whole state (10_state rule R10), and three fields of the model's own.
A memory lists the locations written since reset, addresses strictly rising (10_state rule R33). -/
structure State where
  /-- The configuration: the model's own field, changed by no step (00_scope rule R4, notes/assumptions/4.md). -/
  cfg : Config
  /-- `STATUS`, slot 1 (10_state rule R14). -/
  status : Word
  /-- `BUF_LEN`, slot 2 (10_state rule R15). -/
  bufLen : Word
  /-- `CRC_ACC`, slot 3 (10_state rule R16). -/
  crcAcc : Word
  /-- `CRC_OFF`, slot 4 (10_state rule R17). -/
  crcOff : Word
  /-- `CRC_CNT`, slot 5 (10_state rule R17). -/
  crcCnt : Word
  /-- `SFX_BCDDFU`, slot 6 (10_state rules R18, R19). -/
  sfxBcdDfu : Half
  /-- `SFX_IDVENDOR`, slot 7 (10_state rules R18, R19). -/
  sfxIdVendor : Half
  /-- `SFX_IDPRODUCT`, slot 8 (10_state rules R18, R19). -/
  sfxIdProduct : Half
  /-- `SFX_BCDDEVICE`, slot 9 (10_state rules R18, R19). -/
  sfxBcdDevice : Half
  /-- `SFX_EXTRA_LEN`, slot 10 (10_state rule R20). `SFX_LENGTH`, slot 11, is computed from it (rule R21). -/
  sfxExtraLen : Byte
  /-- `SFX_CRC`, slot 12 (10_state rule R22). -/
  sfxCrc : Word
  /-- `REC_COUNT`, slot 13 (10_state rule R23). -/
  recCount : Word
  /-- `TLV_ALIGN`, slot 14 (10_state rule R26). -/
  tlvAlign : Word
  /-- BUF (10_state rule R27). -/
  buf : List Host.Cell
  /-- EXTRA (10_state rule R20). -/
  extra : List Host.Cell
  /-- REC, the even words: entry `i`'s `off` is word `2 * i` (10_state rule R24). -/
  recOff : List (Nat × Word)
  /-- REC, the odd words: entry `i`'s `tag` and `len` are word `2 * i + 1` (10_state rule R24). -/
  recHead : List (Nat × RecHead)
  /-- VAL (10_state rule R25). -/
  val : List Host.Cell
  /-- The host's pending events, next first: the model's own field (notes/assumptions/1.md). -/
  script : List HostEvent
  /-- What the host has read, oldest first: the model's own field (notes/assumptions/1.md). -/
  readback : List ReadValue
  deriving DecidableEq, Repr

/-- Why the machine stops with a fault. -/
inductive Fault where
  /-- Raised by a command or a host read that reads a location nobody has written since reset (10_state rule R33,
  93_implementation_defined U1). Safe: the hardware would go on with an unspecified value. -/
  | unwrittenRead (m : Space) (i : Nat)
  /-- Raised by a host access to an index at or beyond a space's size, which names no location (20_memory rule R42).
  Safe: what a bus access there does is the platform's. -/
  | noSuchLocation (m : Space) (i : Nat)
  deriving DecidableEq, Repr

/-- Why a step has no meaning. -/
inductive Refusal where
  /-- Raised by `exec`'s arm of a command that has no meaning yet; no arm does. Safe. -/
  | notModelled (mnemonic : String)
  /-- Raised by `step` when no host event is pending: the run has ended (70_reset_and_hazards rule R237). Safe: the
  engine does nothing between host accesses (00_scope rule R5). -/
  | endOfScript
  deriving DecidableEq, Repr

/-- The state after reset in a given configuration (10_state rule R32): every register at its reset value, no location
of a memory written (rule R33). -/
def State.resetIn (c : Config) : State where
  cfg := c
  status := 0
  bufLen := 0
  crcAcc := defaultSeed c
  crcOff := 0
  crcCnt := 0
  sfxBcdDfu := bcdDfuFixed
  sfxIdVendor := idDefault
  sfxIdProduct := idDefault
  sfxBcdDevice := idDefault
  sfxExtraLen := 0
  sfxCrc := 0
  recCount := 0
  tlvAlign := 0
  buf := []
  extra := []
  recOff := []
  recHead := []
  val := []
  script := []
  readback := []

/-- The machine right after reset, in the standard configuration (10_state rule R32, 70_reset_and_hazards rule R230). -/
def State.reset : State := State.resetIn standardConfig

end Sys2Proof.Machine
end

