-- ==== Sys2Proof/Machine/Flags.lean ====
section
/-! DEFINITION. `STATUS` (10_state rule R14): the eight outcomes, their codes and exit codes (60_exceptions rules R201,
R202), the word a command writes, and the fields a host reads from it. -/

namespace Sys2Proof.Machine

/-- The eight outcomes of a command (60_exceptions rule R200). -/
inductive ErrKind where
  | ok
  | notASuffix
  | invalidCrc
  | alreadyHasSuffix
  | malformedTlv
  | badOperand
  | noSpace
  | illegalCommand
  deriving DecidableEq, Repr

/-- `STATUS.ERR` of an outcome (60_exceptions rule R201). -/
def ErrKind.code : ErrKind → BitVec 4
  | .ok => 0
  | .notASuffix => 1
  | .invalidCrc => 2
  | .alreadyHasSuffix => 3
  | .malformedTlv => 4
  | .badOperand => 5
  | .noSpace => 6
  | .illegalCommand => 7

/-- `STATUS.EXIT` of an outcome (60_exceptions rule R202). -/
def ErrKind.exitCode : ErrKind → BitVec 2
  | .ok => 0
  | .notASuffix => 1
  | .invalidCrc => 2
  | .alreadyHasSuffix => 1
  | .malformedTlv => 1
  | .badOperand => 1
  | .noSpace => 1
  | .illegalCommand => 1

/-- `STATUS`, from bit 31 down: reserved, `LAST_OP`, reserved, `PFX`, `EXIT`, `ERR` (10_state rule R14). -/
def statusWord (op : Byte) (pfx : Bool) (k : ErrKind) : Word :=
  (0#16 ++ op ++ 0#1 ++ BitVec.ofBool pfx ++ k.exitCode ++ k.code : BitVec (16 + 8 + 1 + 1 + 2 + 4))

/-- `STATUS.ERR`, bits 3:0 (10_state rule R14). -/
def statusErr (w : Word) : BitVec 4 := w.extractLsb' 0 4

/-- `STATUS.EXIT`, bits 5:4 (10_state rule R14). -/
def statusExit (w : Word) : BitVec 2 := w.extractLsb' 4 2

/-- `STATUS.PFX`, bit 6 (10_state rule R14). -/
def statusPfx (w : Word) : Bool := w.getLsbD 6

/-- `STATUS.LAST_OP`, bits 15:8 (10_state rule R14). -/
def statusLastOp (w : Word) : Byte := w.extractLsb' 8 8

end Sys2Proof.Machine
end

