-- ==== Sys2Proof/Machine/Ops.lean ====
section
/-! DEFINITION. The named operations over memories and registers, and the ONE way a command ends: `succeed` and `fail`
of 60_exceptions rules R203 and R204 (the engine's "trap entry", rule R214; rule R215: there is nothing to return from). -/

namespace Sys2Proof.Machine

/-- What every meaning answers. -/
abbrev Out := Host.Outcome State Fault Refusal

/-! ## Memories: lists of written locations, addresses strictly rising (10_state rule R33) -/

/-- The value at an address, none where nothing has been written since reset (10_state rule R33). -/
def readCell {α : Type} : List (Nat × α) → Nat → Option α
  | [], _ => none
  | (k, v) :: m, a => if k = a then some v else readCell m a

/-- One write, which keeps the addresses strictly rising (00_scope rule R8). -/
def writeCell {α : Type} : List (Nat × α) → Nat → α → List (Nat × α)
  | [], a, v => [(a, v)]
  | (k, w) :: m, a, v =>
    if a < k then (a, v) :: (k, w) :: m
    else if a = k then (a, v) :: m
    else (k, w) :: writeCell m a v

/-- `MemWrite(M, a, s)`: the values at consecutive addresses (00_scope rule R8). -/
def writeCells {α : Type} : List (Nat × α) → Nat → List α → List (Nat × α)
  | m, _, [] => m
  | m, a, v :: vs => writeCells (writeCell m a v) (a + 1) vs

/-- `MemRead(M, a, n)` where every location is written, none otherwise (00_scope rule R8, 10_state rule R33). -/
def readRange {α : Type} (m : List (Nat × α)) : Nat → Nat → Option (List α)
  | _, 0 => some []
  | a, n + 1 =>
    match readCell m a with
    | none => none
    | some v =>
      match readRange m (a + 1) n with
      | none => none
      | some vs => some (v :: vs)

/-- The canonical form of a memory of a given size: addresses strictly rising, all below the size. No value is what an
unlisted address reads as, because an unlisted address has no value (10_state rule R33). -/
abbrev Memory.wf {α : Type} (size : Nat) (m : List (Nat × α)) : Prop :=
  (m.map Prod.fst).Pairwise (· < ·) ∧ ∀ c ∈ m, c.1 < size

/-! ## Inside a command: a value, an error kind of rule R201, or a fault of the model -/

/-- Why a command's rule stops before its writes. -/
inductive Stop where
  /-- The command reads a location nobody has written (10_state rule R33). -/
  | fault (f : Fault)
  /-- `fail K` (00_scope rule R8). -/
  | error (k : ErrKind)
  deriving DecidableEq, Repr

/-- The tests and reads of a command's rule, in the order its pseudocode lists them (60_exceptions rule R212). -/
abbrev Cmd (α : Type) := Except Stop α

/-- A test of a command's rule: `if not p then fail K` (00_scope rule R8). -/
def require (p : Prop) [Decidable p] (k : ErrKind) : Cmd Unit :=
  if p then .ok () else .error (.error k)

/-- A read of one location: a fault where it is unwritten (10_state rule R33, 93_implementation_defined U1). -/
def demand {α : Type} (m : Space) (i : Nat) : Option α → Cmd α
  | some v => .ok v
  | none => .error (.fault (.unwrittenRead m i))

/-- A read of one byte. -/
def readByte (m : Space) (cells : List Host.Cell) (i : Nat) : Cmd Byte :=
  demand m i (readCell cells i)

/-- `MemRead(M, a, n)`, lowest index first (00_scope rule R8). -/
def readBytes (m : Space) (cells : List Host.Cell) : Nat → Nat → Cmd (List Byte)
  | _, 0 => .ok []
  | a, n + 1 => do
    let b ← readByte m cells a
    let bs ← readBytes m cells (a + 1) n
    return b :: bs

/-! ## How a command ends -/

/-- `STATUS`, rewritten as a whole (10_state rule R14). -/
def setStatus (op : Byte) (pfx : Bool) (k : ErrKind) (s : State) : State :=
  { s with status := statusWord op pfx k }

/-- The end of a command that began in `s`: on success its writes take effect and `STATUS` says Ok (60_exceptions rule
R203); on `fail K` nothing but `STATUS` changes and `PFX` is 0 (rule R204); an unwritten read stops the machine. -/
def conclude (op : Byte) (pfx : Bool) (s : State) : Cmd State → Out
  | .ok t => .next (setStatus op pfx .ok t)
  | .error (.error k) => .next (setStatus op false k s)
  | .error (.fault f) => .fault f

/-- A reserved command word: `IllegalCommand`, with bits 7:0 of the word in `LAST_OP` (30_encoding rule R64,
60_exceptions rule R209). -/
def illegalCommand (w : Word) (s : State) : Out :=
  .next (setStatus (opcOf w) false .illegalCommand s)

/-! ## Writes shared by several commands -/

/-- The bytes of a serializing command at `BUF[BUF_LEN ..]`, and `BUF_LEN` raised past them (92_eei_decisions D17). -/
def appendImage (bs : List Byte) (s : State) : State :=
  { s with
    buf := writeCells s.buf s.bufLen.toNat bs
    bufLen := BitVec.ofNat 32 (s.bufLen.toNat + bs.length) }

end Sys2Proof.Machine
end

