-- ==== Sys2Proof/Machine/Operands.lean ====
section
/-! DEFINITION. What commands read and write besides registers: little-endian fields (00_scope rule R7), the data
formats of 30_encoding part B, the Suffix and record objects and the views of 10_state rule R31. -/

namespace Sys2Proof.Machine

/-! ## Little-endian fields (00_scope rule R7, 20_memory rule R43) -/

/-- `le16(v)`. -/
def le16 (v : Half) : List Byte := [v.extractLsb' 0 8, v.extractLsb' 8 8]

/-- `le32(v)`. -/
def le32 (v : Word) : List Byte :=
  [v.extractLsb' 0 8, v.extractLsb' 8 8, v.extractLsb' 16 8, v.extractLsb' 24 8]

/-- `s[i] + 256 * s[i+1]`: two bytes, lower index first. -/
def halfOf (b0 b1 : Byte) : Half := b1 ++ b0

/-- `rd32` of four bytes, lower index first. -/
def wordOf (b0 b1 b2 b3 : Byte) : Word := b3 ++ b2 ++ b1 ++ b0

/-- `rd16(s, i)` of BUF. -/
def readHalf (buf : List Host.Cell) (i : Nat) : Cmd Half := do
  let b0 ← readByte .buf buf i
  let b1 ← readByte .buf buf (i + 1)
  return halfOf b0 b1

/-- `rd32(s, i)` of BUF. -/
def readWord (buf : List Host.Cell) (i : Nat) : Cmd Word := do
  let b0 ← readByte .buf buf i
  let b1 ← readByte .buf buf (i + 1)
  let b2 ← readByte .buf buf (i + 2)
  let b3 ← readByte .buf buf (i + 3)
  return wordOf b0 b1 b2 b3

/-! ## The trailer (30_encoding rules R67 to R71) -/

/-- The Suffix object of 10_state rule R18; `length` and the signature are implicit. -/
structure Suffix where
  bcdDfu : Half
  idVendor : Half
  idProduct : Half
  bcdDevice : Half
  extra : List Byte
  crc : Word
  deriving DecidableEq, Repr

/-- `SIG` (30_encoding rule R68). -/
def signature : List Byte := [0x55, 0x46, 0x44]

/-- `FieldBlock(dev, pid, vid, dfu, extra)` (30_encoding rule R69). -/
def fieldBlock (dev pid vid dfu : Half) (extra : List Byte) : List Byte :=
  extra ++ le16 dev ++ le16 pid ++ le16 vid ++ le16 dfu ++ signature ++ [BitVec.ofNat 8 (16 + extra.length)]

/-- `Trailer(dev, pid, vid, dfu, extra, c)` (30_encoding rule R70). -/
def trailer (dev pid vid dfu : Half) (extra : List Byte) (c : Word) : List Byte :=
  fieldBlock dev pid vid dfu extra ++ le32 c

/-- The field block rebuilt from a Suffix's fields (41_suffix rule R116). -/
def Suffix.block (x : Suffix) : List Byte :=
  fieldBlock x.bcdDevice x.idProduct x.idVendor x.bcdDfu x.extra

/-- `length`, the size of the whole trailer (30_encoding rule R71, 10_state rule R18). -/
def Suffix.size (x : Suffix) : Nat := 16 + x.extra.length

/-- The bank's writes of 41_suffix rule R116: the four fields, `SFX_EXTRA_LEN`, `EXTRA[0 ..]` and `SFX_CRC`. -/
def writeBank (x : Suffix) (s : State) : State :=
  { s with
    sfxBcdDevice := x.bcdDevice
    sfxIdProduct := x.idProduct
    sfxIdVendor := x.idVendor
    sfxBcdDfu := x.bcdDfu
    sfxExtraLen := BitVec.ofNat 8 x.extra.length
    extra := writeCells s.extra 0 x.extra
    sfxCrc := x.crc }

/-! ## The TLV record stream (30_encoding rules R72 to R74) -/

/-- A record `(tag, value)` (00_scope rule R9, 42_tlv rule R140). -/
structure Record where
  tag : Byte
  value : List Byte
  deriving DecidableEq, Repr

/-- `EncodeRecord(tag, value)` (30_encoding rule R74). -/
def encodeRecord (r : Record) : List Byte :=
  BitVec.ofNat 8 (1 + r.value.length) :: r.tag :: r.value

/-- `EncodeList(records)`, with the canonical terminator `01 00` (30_encoding rules R73, R74). -/
def encodeList : List Record → List Byte
  | [] => [0x01, 0x00]
  | r :: rs => encodeRecord r ++ encodeList rs

/-- `Fill(L, a)` (30_encoding rule R74). -/
def fillCount (len align : Nat) : Nat :=
  if align = 0 then 0 else (align - len % align) % align

/-- `EncodeTlv(records, a)`, fill bytes `0x00` (30_encoding rule R74). -/
def encodeTlv (rs : List Record) (align : Nat) : List Byte :=
  encodeList rs ++ List.replicate (fillCount (encodeList rs).length align) 0

/-! ## The record object (10_state rules R23 to R25) -/

/-- A REC entry as TLV_SERIALIZE reads it (10_state rule R24). -/
structure Descriptor where
  tag : Byte
  len : Byte
  off : Word
  deriving DecidableEq, Repr

/-- The writes of 42_tlv rule R143: entry `i` and its value at `voff`, and so on, values back to back (rule R145). -/
def writeRecords : List Record → Nat → Nat → State → State
  | [], _, _, s => s
  | r :: rs, i, voff, s =>
    writeRecords rs (i + 1) (voff + r.value.length)
      { s with
        recOff := writeCell s.recOff i (BitVec.ofNat 32 voff)
        recHead := writeCell s.recHead i ⟨r.tag, BitVec.ofNat 8 r.value.length⟩
        val := writeCells s.val voff r.value }

/-- The record object written from a parsed list, `REC_COUNT` last (42_tlv rule R143). -/
def writeRecordObject (rs : List Record) (s : State) : State :=
  { writeRecords rs 0 0 s with recCount := BitVec.ofNat 32 rs.length }

/-! ## Derived views (10_state rule R31): names for reading state, not state -/

/-- `IMG`, where `BUF_LEN <= BUF_SIZE` and every byte of it is written (00_scope rule R8). -/
def image (s : State) : Option (List Byte) :=
  if s.bufLen.toNat ≤ s.cfg.bufSize then readRange s.buf 0 s.bufLen.toNat else none

/-- `SFX_LENGTH`, computed (10_state rule R21). -/
def sfxLength (s : State) : Nat := 16 + s.sfxExtraLen.toNat

/-- `Suffix()` with `SFX_CRC`, where `SFX_EXTRA_LEN <= 239` and `extra` is written (10_state rule R31). -/
def suffixView (s : State) : Option Suffix :=
  if s.sfxExtraLen.toNat ≤ extraMax then
    match readRange s.extra 0 s.sfxExtraLen.toNat with
    | some extra => some ⟨s.sfxBcdDfu, s.sfxIdVendor, s.sfxIdProduct, s.sfxBcdDevice, extra, s.sfxCrc⟩
    | none => none
  else none

/-- Record `i` of the record object, where its entry and its value are written and lie inside VAL (10_state rule R23). -/
def recordAt (s : State) (i : Nat) : Option Record :=
  match readCell s.recHead i, readCell s.recOff i with
  | some h, some off =>
    if off.toNat + h.len.toNat ≤ s.cfg.valSize then
      match readRange s.val off.toNat h.len.toNat with
      | some value => some ⟨h.tag, value⟩
      | none => none
    else none
  | _, _ => none

/-- Records `i`, `i + 1`, ... of the record object, so many of them. -/
def recordsFrom (s : State) : Nat → Nat → Option (List Record)
  | _, 0 => some []
  | i, n + 1 =>
    match recordAt s i, recordsFrom s (i + 1) n with
    | some r, some rs => some (r :: rs)
    | _, _ => none

/-- `Records()` (10_state rule R31). -/
def records (s : State) : Option (List Record) :=
  if s.recCount.toNat ≤ s.cfg.recMax then recordsFrom s 0 s.recCount.toNat else none

/-- What `Lookup(t)` gives: a value, or none, or no answer, where it hangs on a location nobody has written or that does
not exist (10_state rules R31, R33). -/
inductive LookupAnswer where
  | found (value : List Byte)
  | absent
  | unreadable
  deriving DecidableEq, Repr

/-- The value of the first of the entries `i`, `i + 1`, ..., so many of them, whose tag is `t`. -/
def lookupFrom (s : State) (t : Byte) : Nat → Nat → LookupAnswer
  | _, 0 => .absent
  | i, n + 1 =>
    match readCell s.recHead i with
    | none => .unreadable
    | some h =>
      if h.tag = t then
        match recordAt s i with
        | some r => .found r.value
        | none => .unreadable
      else lookupFrom s t (i + 1) n

/-- `Lookup(t)`: the value of the entry of lowest index with the tag, or none (10_state rule R31), whatever the entries
after it hold, and wherever the values of those before it lie. DESIGN CHOICE: where the answer hangs on an unwritten or
absent location it is `unreadable` (notes/assumptions/10.md). -/
def lookup (s : State) (t : Byte) : LookupAnswer :=
  match lookupFrom s t 0 (min s.recCount.toNat s.cfg.recMax) with
  | .absent => if s.recCount.toNat ≤ s.cfg.recMax then .absent else .unreadable
  | answer => answer

/-- The raw data a host reports of one record (43_workflow rule R178); its formatting is out of scope. -/
inductive Report where
  /-- Tag 1: the device identifier's bytes. -/
  | deviceId (bytes : List Byte)
  /-- Tag 2: `rd32(v, 0)`, where the value has at least 4 bytes (91_not_in_source N12). -/
  | timestamp (raw : Option Word)
  /-- Any other tag: up to the first 32 bytes of the value. -/
  | dump (bytes : List Byte)
  deriving DecidableEq, Repr

/-- What the host reports of a record (43_workflow rule R178). -/
def reportOf (r : Record) : Report :=
  if r.tag = 1 then .deviceId r.value
  else if r.tag = 2 then
    match r.value with
    | b0 :: b1 :: b2 :: b3 :: _ => .timestamp (some (wordOf b0 b1 b2 b3))
    | _ => .timestamp none
  else .dump (r.value.take 32)

end Sys2Proof.Machine
end

