-- ==== Sys2Proof/Machine/Tlv.lean ====
section
/-! DEFINITION. The TLV record stream commands of 42_tlv. -/

namespace Sys2Proof.Machine

/-- The loop of 42_tlv rule R142 from offset `off`, reading BUF as it goes; `n` is the image's length. The fuel bounds the
turns: with `n - off` it runs out only where exit (a) fires, because each turn advances by at least 2. -/
def scanTlv (buf : List Host.Cell) (n : Nat) : Nat → Nat → Cmd (List Record)
  | 0, _ => .error (.error .malformedTlv)
  | fuel + 1, off => do
    require (off + 2 ≤ n) .malformedTlv
    let size ← readByte .buf buf off
    let tag ← readByte .buf buf (off + 1)
    if tag = 0 then return []
    else
      require (size ≠ 0) .malformedTlv
      require (off + 1 + size.toNat ≤ n) .malformedTlv
      let value ← readBytes .buf buf (off + 2) (size.toNat - 1)
      let rest ← scanTlv buf n fuel (off + size.toNat + 1)
      return ⟨tag, value⟩ :: rest

/-- `ParseTlv(IMG)` (42_tlv rule R142). -/
def parseTlv (buf : List Host.Cell) (n : Nat) : Cmd (List Record) :=
  scanTlv buf n n 0

/-- TLV_PARSE (42_tlv rule R143). -/
def execTlvParse (s : State) : Out :=
  conclude 0x20 false s (do
    require (s.bufLen.toNat ≤ s.cfg.bufSize) .badOperand
    let rs ← parseTlv s.buf s.bufLen.toNat
    return writeRecordObject rs s)

/-- The entry tests of 42_tlv rule R152 for entries `i`, `i + 1`, ..., so many of them, in the rule's order. -/
def checkEntries (s : State) : Nat → Nat → Cmd (List Descriptor)
  | _, 0 => return []
  | i, n + 1 => do
    let h ← demand .recWords (2 * i + 1) (readCell s.recHead i)
    require (h.tag ≠ 0) .badOperand
    require (h.len.toNat ≤ 254) .badOperand
    let off ← demand .recWords (2 * i) (readCell s.recOff i)
    require (off.toNat + h.len.toNat ≤ s.cfg.valSize) .badOperand
    let rest ← checkEntries s (i + 1) n
    return ⟨h.tag, h.len, off⟩ :: rest

/-- `len(EncodeList(Records()))`, from the descriptors alone (30_encoding rule R74). -/
def listLength : List Descriptor → Nat
  | [] => 2
  | d :: ds => d.len.toNat + 2 + listLength ds

/-- The values the entries name, from VAL (10_state rule R31). -/
def readValues (val : List Host.Cell) : List Descriptor → Cmd (List Record)
  | [] => return []
  | d :: ds => do
    let value ← readBytes .val val d.off.toNat d.len.toNat
    let rest ← readValues val ds
    return ⟨d.tag, value⟩ :: rest

/-- The tests, reads and writes of TLV_SERIALIZE (42_tlv rule R152). The length of the stream follows from the entries, so
the space test needs no read of VAL (notes/assumptions/3.md). -/
def tlvSerializeEffect (s : State) : Cmd State := do
  require (s.bufLen.toNat ≤ s.cfg.bufSize) .badOperand
  require (s.recCount.toNat ≤ s.cfg.recMax) .badOperand
  let ds ← checkEntries s 0 s.recCount.toNat
  require (s.bufLen.toNat + (listLength ds + fillCount (listLength ds) s.tlvAlign.toNat) ≤ s.cfg.bufSize) .noSpace
  let rs ← readValues s.val ds
  return appendImage (encodeTlv rs s.tlvAlign.toNat) s

/-- TLV_SERIALIZE (42_tlv rule R152). -/
def execTlvSerialize (s : State) : Out :=
  conclude 0x21 false s (tlvSerializeEffect s)

end Sys2Proof.Machine
end

