-- ==== Sys2Proof/Machine/Checksum.lean ====
section
/-! DEFINITION. The checksum function of 40_crc and its two commands. -/

namespace Sys2Proof.Machine

/-- One turn of the loop of 40_crc rule R91. -/
def crcBit (r : Word) : Word :=
  if r.getLsbD 0 then (r >>> 1) ^^^ 0xEDB88320 else r >>> 1

/-- `CrcStep(r, b)`: eight turns from `r xor zext_32(b)` (40_crc rule R91). -/
def crcStep (r : Word) (b : Byte) : Word :=
  crcBit (crcBit (crcBit (crcBit (crcBit (crcBit (crcBit (crcBit (r ^^^ b.setWidth 32))))))))

/-- `Raw(bytes, r)` (40_crc rule R92). -/
def crcRaw : List Byte → Word → Word
  | [], r => r
  | b :: bs, r => crcRaw bs (crcStep r b)

/-- `Crc(bytes, seed)` (40_crc rule R92). -/
def crc (c : Config) (bytes : List Byte) (seed : Word) : Word :=
  crcXor c ^^^ crcRaw bytes (seed ^^^ crcXor c)

/-- `TrailerCrc(body, fb)`: the body from the default seed, then the field block, chained (41_suffix rule R113,
90_conflicts C1). -/
def trailerCrc (c : Config) (body fb : List Byte) : Word :=
  crc c fb (crc c body (defaultSeed c))

/-- CRC_INIT (40_crc rule R95). -/
def execCrcInit (s : State) : Out :=
  conclude 0x01 false s (.ok { s with crcAcc := defaultSeed s.cfg })

/-- The tests, reads and write of CRC_COMPUTE (40_crc rule R96); the sum is in the naturals. -/
def crcComputeEffect (s : State) : Cmd State := do
  require (s.bufLen.toNat ≤ s.cfg.bufSize) .badOperand
  require (s.crcOff.toNat + s.crcCnt.toNat ≤ s.bufLen.toNat) .badOperand
  let bytes ← readBytes .buf s.buf s.crcOff.toNat s.crcCnt.toNat
  return { s with crcAcc := crc s.cfg bytes s.crcAcc }

/-- CRC_COMPUTE (40_crc rule R96). -/
def execCrcCompute (s : State) : Out :=
  conclude 0x02 false s (crcComputeEffect s)

end Sys2Proof.Machine
end

