-- ==== Sys2Proof/Machine/Trailer.lean ====
section
/-! DEFINITION. The trailer commands of 41_suffix. They use the checksum function, never the checksum registers
(rule R112). -/

namespace Sys2Proof.Machine

/-- `Structural(IMG)` for `n = BUF_LEN`: it reads only the four bytes `n-8 .. n-5` (41_suffix rule R111). -/
def structural (buf : List Host.Cell) (n : Nat) : Cmd Bool :=
  if n < 16 then return false
  else do
    let sig ← readBytes .buf buf (n - 8) 3
    let length ← readByte .buf buf (n - 5)
    return sig == signature && decide (16 ≤ length.toNat) && decide (length.toNat ≤ n)

/-- The fields of the trailer at the end of an image of `n` bytes that is structurally sound (41_suffix rule R116). -/
def readSuffix (buf : List Host.Cell) (n : Nat) : Cmd Suffix := do
  let length ← readByte .buf buf (n - 5)
  let dev ← readHalf buf (n - 16)
  let pid ← readHalf buf (n - 14)
  let vid ← readHalf buf (n - 12)
  let dfu ← readHalf buf (n - 10)
  let extra ← readBytes .buf buf (n - length.toNat) (length.toNat - 16)
  let stored ← readWord buf (n - 4)
  return ⟨dfu, vid, pid, dev, extra, stored⟩

/-- The document's `parse(buffer, verify_checksum)` on `IMG`: the tests of 41_suffix rule R116 in order, and the Suffix.
The body is read only where the checksum is verified (rule R118). -/
def parseSuffix (verify : Bool) (s : State) : Cmd Suffix := do
  require (s.bufLen.toNat ≤ s.cfg.bufSize) .badOperand
  let sound ← structural s.buf s.bufLen.toNat
  require (sound = true) .notASuffix
  let x ← readSuffix s.buf s.bufLen.toNat
  if verify then
    let body ← readBytes .buf s.buf 0 (s.bufLen.toNat - x.size)
    require (trailerCrc s.cfg body x.block = x.crc) .invalidCrc
    return x
  else return x

/-- SFX_PARSE and SFX_PARSE.V (41_suffix rule R116). -/
def execSfxParse (verify : Bool) (s : State) : Out :=
  conclude 0x10 false s (do
    let x ← parseSuffix verify s
    return writeBank x s)

/-- The tests, reads and writes of SFX_SERIALIZE (41_suffix rule R124). -/
def sfxSerializeEffect (s : State) : Cmd State := do
  require (s.bufLen.toNat ≤ s.cfg.bufSize) .badOperand
  require (s.sfxExtraLen.toNat ≤ extraMax) .badOperand
  require (s.bufLen.toNat + s.sfxExtraLen.toNat + 16 ≤ s.cfg.bufSize) .noSpace
  let body ← readBytes .buf s.buf 0 s.bufLen.toNat
  let extra ← readBytes .extra s.extra 0 s.sfxExtraLen.toNat
  let fb := fieldBlock s.sfxBcdDevice s.sfxIdProduct s.sfxIdVendor s.sfxBcdDfu extra
  let c := trailerCrc s.cfg body fb
  return { appendImage (fb ++ le32 c) s with sfxCrc := c }

/-- SFX_SERIALIZE (41_suffix rule R124). -/
def execSfxSerialize (s : State) : Out :=
  conclude 0x11 false s (sfxSerializeEffect s)

end Sys2Proof.Machine
end

