-- ==== Sys2Proof/Machine/Workflow.lean ====
section
/-! DEFINITION. The composite commands of 43_workflow. -/

namespace Sys2Proof.Machine

/-- The tests, reads and writes of OP_ADD (43_workflow rule R172); the structural probe writes nothing. -/
def opAddEffect (force : Bool) (s : State) : Cmd State := do
  require (s.bufLen.toNat ≤ s.cfg.bufSize) .badOperand
  let present ← if force then pure false else structural s.buf s.bufLen.toNat
  require (present = false) .alreadyHasSuffix
  require (s.bufLen.toNat + 16 ≤ s.cfg.bufSize) .noSpace
  let body ← readBytes .buf s.buf 0 s.bufLen.toNat
  let fb := fieldBlock s.sfxBcdDevice s.sfxIdProduct s.sfxIdVendor bcdDfuFixed []
  let c := trailerCrc s.cfg body fb
  return { appendImage (fb ++ le32 c) s with sfxBcdDfu := bcdDfuFixed, sfxExtraLen := 0, sfxCrc := c }

/-- OP_ADD and OP_ADD.F (43_workflow rule R172). -/
def execOpAdd (force : Bool) (s : State) : Out :=
  conclude 0x30 false s (opAddEffect force s)

/-- The known vendor pair: both identifiers must match (43_workflow rule R176). -/
def knownPair (x : Suffix) : Bool :=
  x.idVendor == knownVid && x.idProduct == knownPid

/-- OP_VERIFY (43_workflow rule R175). For the known pair the prefix list is parsed from the whole image after the bank is
written, so `MalformedTlv` keeps the bank (rule R179) and `PFX` is 1 only where the list was parsed (rule R177). -/
def execOpVerify (s : State) : Out :=
  match parseSuffix true s with
  | .error e => conclude 0x31 false s (.error e)
  | .ok x =>
    if knownPair x then
      conclude 0x31 true (writeBank x s) (do
        let rs ← parseTlv s.buf s.bufLen.toNat
        return writeRecordObject rs (writeBank x s))
    else conclude 0x31 false s (.ok (writeBank x s))

/-- OP_REMOVE (43_workflow rule R180); `FLG` is accepted and ignored (rule R181). -/
def execOpRemove (_force : Bool) (s : State) : Out :=
  conclude 0x32 false s (do
    let x ← parseSuffix true s
    return { writeBank x s with bufLen := BitVec.ofNat 32 (s.bufLen.toNat - x.size) })

end Sys2Proof.Machine
end

