-- ==== Sys2Proof/Machine/Dispatch.lean ====
section
/-! DEFINITION. The meaning of each command of the opcode map (30_encoding rule R62), one arm each. -/

namespace Sys2Proof.Machine

def exec (i : Instr) (s : State) : Host.Outcome State Fault Refusal :=
  match i with
  | .crcInit => Sys2Proof.Machine.execCrcInit s
  | .crcCompute => Sys2Proof.Machine.execCrcCompute s
  | .sfxParse verify => Sys2Proof.Machine.execSfxParse verify s
  | .sfxSerialize => Sys2Proof.Machine.execSfxSerialize s
  | .tlvParse => Sys2Proof.Machine.execTlvParse s
  | .tlvSerialize => Sys2Proof.Machine.execTlvSerialize s
  | .opAdd force => Sys2Proof.Machine.execOpAdd force s
  | .opVerify => Sys2Proof.Machine.execOpVerify s
  | .opRemove force => Sys2Proof.Machine.execOpRemove force s

end Sys2Proof.Machine
end

