-- ==== Sys2Proof/Machine/HostPort.lean ====
section
/-! DEFINITION. The host's accesses to the register space and the memories, and the platform's reset. -/

namespace Sys2Proof.Machine

/-- A host read of register slot `n`: narrow registers zero-extended (10_state rule R11), `CMD` and reserved slots 0
(rules R13, R28), `SFX_LENGTH` computed (rule R21). -/
def readReg (n : Nat) (s : State) : Word :=
  match n with
  | 1 => s.status
  | 2 => s.bufLen
  | 3 => s.crcAcc
  | 4 => s.crcOff
  | 5 => s.crcCnt
  | 6 => s.sfxBcdDfu.setWidth 32
  | 7 => s.sfxIdVendor.setWidth 32
  | 8 => s.sfxIdProduct.setWidth 32
  | 9 => s.sfxBcdDevice.setWidth 32
  | 10 => s.sfxExtraLen.setWidth 32
  | 11 => BitVec.ofNat 32 (16 + s.sfxExtraLen.toNat)
  | 12 => s.sfxCrc
  | 13 => s.recCount
  | 14 => s.tlvAlign
  | _ => 0

/-- A host write of register slot `n` other than `CMD`: truncated to the register's width; read-only and reserved slots
ignore it (10_state rules R28, R29). -/
def writeReg (n : Nat) (v : Word) (s : State) : State :=
  match n with
  | 2 => { s with bufLen := v }
  | 3 => { s with crcAcc := v }
  | 4 => { s with crcOff := v }
  | 5 => { s with crcCnt := v }
  | 6 => { s with sfxBcdDfu := v.setWidth 16 }
  | 7 => { s with sfxIdVendor := v.setWidth 16 }
  | 8 => { s with sfxIdProduct := v.setWidth 16 }
  | 9 => { s with sfxBcdDevice := v.setWidth 16 }
  | 10 => { s with sfxExtraLen := v.setWidth 8 }
  | 13 => { s with recCount := v }
  | 14 => { s with tlvAlign := v }
  | _ => s

/-- The space a byte memory is, for the name of a fault. -/
def ByteSpace.space : ByteSpace → Space
  | .buf => .buf
  | .extra => .extra
  | .val => .val

/-- The size of a byte memory (20_memory rule R40). -/
def ByteSpace.size (c : Config) : ByteSpace → Nat
  | .buf => c.bufSize
  | .extra => extraMax
  | .val => c.valSize

/-- The written locations of a byte memory. -/
def cellsOf (s : State) : ByteSpace → List Host.Cell
  | .buf => s.buf
  | .extra => s.extra
  | .val => s.val

/-- A host write of one byte. -/
def writeByte (m : ByteSpace) (i : Nat) (b : Byte) (s : State) : State :=
  match m with
  | .buf => { s with buf := writeCell s.buf i b }
  | .extra => { s with extra := writeCell s.extra i b }
  | .val => { s with val := writeCell s.val i b }

/-- The odd word of a REC entry as a host reads it (10_state rule R24). -/
def headWord (h : RecHead) : Word := (0#16 ++ h.len ++ h.tag : BitVec (16 + 8 + 8))

/-- The odd word of a REC entry as a host writes it; bits 31:16 are dropped (10_state rule R24). -/
def headOf (v : Word) : RecHead := ⟨v.extractLsb' 0 8, v.extractLsb' 8 8⟩

/-- A host read of word `j` of REC: `off` where `j` is even, `tag` and `len` where it is odd (10_state rule R24). -/
def readRecWord (j : Nat) (s : State) : Option Word :=
  if j % 2 = 0 then readCell s.recOff (j / 2)
  else (readCell s.recHead (j / 2)).map headWord

/-- A host write of word `j` of REC (10_state rule R24). -/
def writeRecWord (j : Nat) (v : Word) (s : State) : State :=
  if j % 2 = 0 then { s with recOff := writeCell s.recOff (j / 2) v }
  else { s with recHead := writeCell s.recHead (j / 2) (headOf v) }

/-- What a host read returned joins what the host has read. -/
def report (v : ReadValue) (s : State) : State :=
  { s with readback := s.readback ++ [v] }

/-- The platform's reset: every register at its reset value, no location written (70_reset_and_hazards rule R230). The
configuration, the host's remaining events and what it has read are not the engine's state. -/
def platformReset (s : State) : State :=
  { State.resetIn s.cfg with script := s.script, readback := s.readback }

/-- A host read of a memory, which must be inside the space and written. -/
def hostRead (m : Space) (i size : Nat) (v : Option ReadValue) (s : State) : Out :=
  if i < size then
    match v with
    | some v => .next (report v s)
    | none => .fault (.unwrittenRead m i)
  else .fault (.noSuchLocation m i)

/-- A host write of a memory, which must be inside the space. -/
def hostWrite (m : Space) (i size : Nat) (t : State) : Out :=
  if i < size then .next t else .fault (.noSuchLocation m i)

/-- The command word an event launches: the data of a write to `CMD` (10_state rule R13, 20_memory rule R51). -/
def commandOf : HostEvent → Option Word
  | .writeReg 0 w => some w
  | _ => none

/-- An event other than a command, in the state whose script has moved past it. -/
def hostEvent (e : HostEvent) (s : State) : Out :=
  match e with
  | .writeReg n v => .next (writeReg n v s)
  | .readReg n => .next (report (.word (readReg n s)) s)
  | .writeByte m i b => hostWrite m.space i (m.size s.cfg) (writeByte m i b s)
  | .readByte m i => hostRead m.space i (m.size s.cfg) ((readCell (cellsOf s m) i).map .byte) s
  | .writeRec j v => hostWrite .recWords j (2 * s.cfg.recMax) (writeRecWord j v s)
  | .readRec j => hostRead .recWords j (2 * s.cfg.recMax) ((readRecWord j s).map .word) s
  | .reset => .next (platformReset s)

end Sys2Proof.Machine
end

