-- ==== Sys2Proof/Machine/Step.lean ====
section
/-! DEFINITION. One step: the host's next event (00_scope rule R5, 20_memory rule R48). -/

namespace Sys2Proof.Machine

/-- A write of a word to `CMD` runs the command it encodes to completion (10_state rule R13), or reports
`IllegalCommand` (30_encoding rule R64). -/
def runCommand (w : Word) (s : State) : Out :=
  match decode w with
  | .ok i => exec i s
  | .error _ => illegalCommand w s

/-- The host's next event happens, in the host's order; with none pending the run has ended (70_reset_and_hazards rule
R237). -/
def step (s : State) : Host.Outcome State Fault Refusal :=
  match s.script with
  | [] => .refused .endOfScript
  | e :: rest =>
    match commandOf e with
    | some w => runCommand w { s with script := rest }
    | none => hostEvent e { s with script := rest }

/-- `s` with a write of that word to `CMD` as the host's next event (notes/assumptions/1.md). -/
def State.withFetchWord (s : State) (_nbits w : Nat) : State :=
  { s with script := .writeReg 0 (BitVec.ofNat 32 w) :: s.script }

end Sys2Proof.Machine
end

