-- ==== Sys2Proof/Machine/Script.lean ====
section
/-! DEFINITION. The host script notation of 30_encoding rule R66: each line as the host events it stands for. -/

namespace Sys2Proof.Machine

/-- The slot of a register name (10_state rule R11). -/
inductive RegName where
  | cmd
  | status
  | bufLen
  | crcAcc
  | crcOff
  | crcCnt
  | sfxBcdDfu
  | sfxIdVendor
  | sfxIdProduct
  | sfxBcdDevice
  | sfxExtraLen
  | sfxLength
  | sfxCrc
  | recCount
  | tlvAlign
  deriving DecidableEq, Repr

/-- The number of a register's slot (10_state rule R11). -/
def RegName.slot : RegName → Nat
  | .cmd => 0
  | .status => 1
  | .bufLen => 2
  | .crcAcc => 3
  | .crcOff => 4
  | .crcCnt => 5
  | .sfxBcdDfu => 6
  | .sfxIdVendor => 7
  | .sfxIdProduct => 8
  | .sfxBcdDevice => 9
  | .sfxExtraLen => 10
  | .sfxLength => 11
  | .sfxCrc => 12
  | .recCount => 13
  | .tlvAlign => 14

/-- `wr NAME, v`. -/
def lineWr (r : RegName) (v : Word) : List HostEvent := [.writeReg r.slot v]

/-- `rd NAME`. -/
def lineRd (r : RegName) : List HostEvent := [.readReg r.slot]

/-- `wb SPACE, i, b0 b1 ...`. -/
def lineWb (m : ByteSpace) : Nat → List Byte → List HostEvent
  | _, [] => []
  | i, b :: bs => .writeByte m i b :: lineWb m (i + 1) bs

/-- `rb SPACE, i, n`. -/
def lineRb (m : ByteSpace) : Nat → Nat → List HostEvent
  | _, 0 => []
  | i, n + 1 => .readByte m i :: lineRb m (i + 1) n

/-- `wrec i, tag, off, len`: two word writes (10_state rule R24). -/
def lineWrec (i : Nat) (tag : Byte) (off : Word) (len : Byte) : List HostEvent :=
  [.writeRec (2 * i) off, .writeRec (2 * i + 1) (headWord ⟨tag, len⟩)]

/-- `rrec i`: two word reads. DESIGN CHOICE: the even word first, then the odd one, as `wrec` writes them; the spec gives
no order (notes/assumptions/11.md). -/
def lineRrec (i : Nat) : List HostEvent := [.readRec (2 * i), .readRec (2 * i + 1)]

/-- `cmd MNEMONIC`, with `FLG` in the command itself. -/
def lineCmd (i : Instr) : List HostEvent := lineWr .cmd (encode i)

/-- `load b0 b1 ...`. -/
def lineLoad (bs : List Byte) : List HostEvent :=
  lineWb .buf 0 bs ++ lineWr .bufLen (BitVec.ofNat 32 bs.length)

/-- `crcmore off, cnt`. -/
def lineCrcMore (off cnt : Word) : List HostEvent :=
  lineWr .crcOff off ++ lineWr .crcCnt cnt ++ lineCmd .crcCompute

/-- `crc32 off, cnt`. -/
def lineCrc32 (off cnt : Word) : List HostEvent :=
  lineWr .crcOff off ++ lineWr .crcCnt cnt ++ lineCmd .crcInit ++ lineCmd .crcCompute

/-- `ids vid, pid, dev`. -/
def lineIds (vid pid dev : Half) : List HostEvent :=
  lineWr .sfxIdVendor (vid.setWidth 32) ++ lineWr .sfxIdProduct (pid.setWidth 32) ++
    lineWr .sfxBcdDevice (dev.setWidth 32)

end Sys2Proof.Machine
end

