-- ==== Sys2Proof/Safety.lean ====
section
/-! DEFINITION. The terms claims use: the rules' functions on byte sequences (written from the rules' own text, apart from
the machine's reads of memory), the invariant of a legal state, and which state a claim says is left alone. -/

namespace Sys2Proof

/-! ## How a command may end, and the slots it may write -/

/-- The error kinds a command can end in ("STATUS written" of its rule; 60_exceptions rule R201 "raised by"). -/
def Instr.outcomes : Instr → List Machine.ErrKind
  | .crcInit => [.ok]
  | .crcCompute => [.ok, .badOperand]
  | .sfxParse true => [.ok, .badOperand, .notASuffix, .invalidCrc]
  | .sfxParse false => [.ok, .badOperand, .notASuffix]
  | .sfxSerialize => [.ok, .badOperand, .noSpace]
  | .tlvParse => [.ok, .badOperand, .malformedTlv]
  | .tlvSerialize => [.ok, .badOperand, .noSpace]
  | .opAdd true => [.ok, .badOperand, .noSpace]
  | .opAdd false => [.ok, .badOperand, .alreadyHasSuffix, .noSpace]
  | .opVerify => [.ok, .badOperand, .notASuffix, .invalidCrc, .malformedTlv]
  | .opRemove _ => [.ok, .badOperand, .notASuffix, .invalidCrc]

/-- The slots a command may write ("written by commands", 10_state rule R11); slot 11 is
computed from slot 10 (rule R21). -/
def Instr.slotsWritten : Instr → List Nat
  | .crcInit => [1, 3]
  | .crcCompute => [1, 3]
  | .sfxParse _ => [1, 6, 7, 8, 9, 10, 11, 12]
  | .sfxSerialize => [1, 2, 12]
  | .tlvParse => [1, 13]
  | .tlvSerialize => [1, 2]
  | .opAdd _ => [1, 2, 6, 10, 11, 12]
  | .opVerify => [1, 6, 7, 8, 9, 10, 11, 12, 13]
  | .opRemove _ => [1, 2, 6, 7, 8, 9, 10, 11, 12]

end Sys2Proof

namespace Sys2Proof.Machine

/-! ## The rules' functions on a byte sequence -/

/-- `s[i]` (00_scope rule R7), for an index inside the sequence. -/
def byteAt (img : List Byte) (i : Nat) : Byte := img.getD i 0

/-- `rd16(s, i) = s[i] + 256 * s[i+1]` (00_scope rule R7). -/
def rd16 (img : List Byte) (i : Nat) : Half :=
  BitVec.ofNat 16 ((byteAt img i).toNat + 256 * (byteAt img (i + 1)).toNat)

/-- `rd32(s, i)` (00_scope rule R7). -/
def rd32 (img : List Byte) (i : Nat) : Word :=
  BitVec.ofNat 32 ((byteAt img i).toNat + 256 * (byteAt img (i + 1)).toNat
    + 65536 * (byteAt img (i + 2)).toNat + 16777216 * (byteAt img (i + 3)).toNat)

/-- `s[a:b]` (00_scope rule R7). -/
def slice (img : List Byte) (a b : Nat) : List Byte := (img.take b).drop a

/-- `length`, the byte at `n - 5` (41_suffix rule R110). -/
def trailerLength (img : List Byte) : Nat := (byteAt img (img.length - 5)).toNat

/-- `Structural(img)` (41_suffix rule R111). -/
def structuralImg (img : List Byte) : Bool :=
  decide (16 ≤ img.length)
    && (byteAt img (img.length - 8) == 0x55 && byteAt img (img.length - 7) == 0x46
      && byteAt img (img.length - 6) == 0x44)
    && (decide (16 ≤ trailerLength img) && decide (trailerLength img ≤ img.length))

/-- The body `img[0 : n-length]` (41_suffix rule R116). -/
def bodyOf (img : List Byte) : List Byte := slice img 0 (img.length - trailerLength img)

/-- The Suffix parsed from an image (41_suffix rules R115, R116). -/
def suffixOf (img : List Byte) : Suffix where
  bcdDfu := rd16 img (img.length - 10)
  idVendor := rd16 img (img.length - 12)
  idProduct := rd16 img (img.length - 14)
  bcdDevice := rd16 img (img.length - 16)
  extra := slice img (img.length - trailerLength img) (img.length - 16)
  crc := rd32 img (img.length - 4)

/-- The verdict of the structural checks and, where asked for, of the checksum, in that order (41_suffix rule R116,
60_exceptions rules R205, R206). -/
def trailerVerdict (c : Config) (verify : Bool) (img : List Byte) : ErrKind :=
  if structuralImg img = false then .notASuffix
  else if verify = true ∧ trailerCrc c (bodyOf img) (suffixOf img).block ≠ (suffixOf img).crc then .invalidCrc
  else .ok

/-- The turns of 42_tlv rule R142 on the rest of an image, exits (a) to (d) in their order. -/
def parseTlvTurns : Nat → List Byte → Option (List Record)
  | 0, _ => none
  | _ + 1, [] => none
  | _ + 1, [_] => none
  | turns + 1, size :: tag :: rest =>
    if tag = 0 then some []
    else if size = 0 then none
    else if rest.length < size.toNat - 1 then none
    else
      match parseTlvTurns turns (rest.drop (size.toNat - 1)) with
      | some rs => some (⟨tag, rest.take (size.toNat - 1)⟩ :: rs)
      | none => none

/-- `ParseTlv(img)`: none is `Malformed` (42_tlv rule R142). A turn uses up at least 2 bytes. -/
def parseTlvImg (img : List Byte) : Option (List Record) := parseTlvTurns img.length img

/-- A member of a TLV list: tag 1..255, value of at most 254 bytes (42_tlv rule R140). -/
abbrev Record.legal (r : Record) : Prop := r.tag ≠ 0 ∧ r.value.length ≤ 254

/-- The sum of the values' lengths (42_tlv rule R145). -/
def valueTotal (rs : List Record) : Nat := (rs.map fun r => r.value.length).sum

/-- The record object holds the list as 42_tlv rule R143 writes it: entry `i` names the value's place, after the values
before it, and the value lies there. -/
def recordObjectIs (t : State) (rs : List Record) : Prop :=
  t.recCount.toNat = rs.length ∧
    ∀ (i : Nat) (h : i < rs.length),
      readCell t.recHead i = some ⟨rs[i].tag, BitVec.ofNat 8 rs[i].value.length⟩ ∧
        readCell t.recOff i = some (BitVec.ofNat 32 (valueTotal (rs.take i))) ∧
        readRange t.val (valueTotal (rs.take i)) rs[i].value.length = some rs[i].value

/-- A REC entry TLV_SERIALIZE rejects (60_exceptions rule R207). -/
abbrev badEntry (c : Config) (h : RecHead) (off : Word) : Prop :=
  h.tag = 0 ∨ 254 < h.len.toNat ∨ c.valSize < off.toNat + h.len.toNat

/-! ## The invariant of a legal state -/

/-- Every memory is in canonical form and inside its space (20_memory rule R40, 10_state rule R33). -/
abbrev State.memoryWf (s : State) : Prop :=
  Memory.wf s.cfg.bufSize s.buf ∧ Memory.wf extraMax s.extra ∧ Memory.wf s.cfg.recMax s.recOff ∧
    Memory.wf s.cfg.recMax s.recHead ∧ Memory.wf s.cfg.valSize s.val

/-- What `STATUS` may read as: reserved bits 0 (10_state rule R14), `ERR` a code of 60_exceptions rule R201, `EXIT` the
function of `ERR` of rule R202, `PFX` only with OP_VERIFY and Ok (43_workflow rule R177). -/
def statusLegal (w : Word) : Bool :=
  w.extractLsb' 16 16 == 0 && !w.getLsbD 7 && decide ((statusErr w).toNat < 8)
    && (statusExit w == (if statusErr w = 0 then 0 else if statusErr w = 2 then 2 else 1))
    && (!statusPfx w || (statusLastOp w == 0x31 && statusErr w == 0))

/-- The invariant every step keeps. -/
abbrev State.Inv (s : State) : Prop := s.memoryWf ∧ statusLegal s.status = true

/-! ## Locations -/

/-- The number of locations of a space; REC counts 32-bit words (20_memory rules R40, R42). -/
def spaceSize (c : Config) : Space → Nat
  | .buf => c.bufSize
  | .extra => extraMax
  | .recWords => 2 * c.recMax
  | .val => c.valSize

/-- A location somebody has written since reset (10_state rule R33). -/
def isWritten (s : State) (m : Space) (i : Nat) : Bool :=
  match m with
  | .buf => (readCell s.buf i).isSome
  | .extra => (readCell s.extra i).isSome
  | .recWords => (readRecWord i s).isSome
  | .val => (readCell s.val i).isSome

/-- The command stops at an unwritten location of a space, of index `lo` to `hi - 1` (10_state rule R33,
notes/assumptions/2.md). -/
def stopsIn (i : Instr) (s : State) (m : Space) (lo hi : Nat) : Prop :=
  ∃ a, lo ≤ a ∧ a < hi ∧ isWritten s m a = false ∧ exec i s = .fault (.unwrittenRead m a)

/-- A REC entry that is written and that TLV_SERIALIZE accepts (42_tlv rule R152). -/
def soundEntry (s : State) (i : Nat) : Prop :=
  ∃ head off, readCell s.recHead i = some head ∧ readCell s.recOff i = some off ∧ ¬badEntry s.cfg head off

/-- The length of the stream of the record object's entries, read from their `len` fields: `size` and `tag` of each, its
value, and the terminator (30_encoding rules R73, R74). -/
def entriesLength (s : State) : Nat :=
  ((List.range s.recCount.toNat).map fun i =>
    match readCell s.recHead i with
    | some head => head.len.toNat + 2
    | none => 0).sum + 2

/-! ## What a claim says is left alone -/

/-- `t` differs from `s` at most in `STATUS` and the suffix bank (10_state rule R18). -/
def onlyBank (s t : State) : Prop :=
  t = { s with
    status := t.status
    sfxBcdDfu := t.sfxBcdDfu
    sfxIdVendor := t.sfxIdVendor
    sfxIdProduct := t.sfxIdProduct
    sfxBcdDevice := t.sfxBcdDevice
    sfxExtraLen := t.sfxExtraLen
    extra := t.extra
    sfxCrc := t.sfxCrc }

/-- `t` differs from `s` at most in `STATUS` and the record object (10_state rule R23). -/
def onlyRecords (s t : State) : Prop :=
  t = { s with
    status := t.status
    recCount := t.recCount
    recOff := t.recOff
    recHead := t.recHead
    val := t.val }

/-- The whole word a read/write slot keeps of a written value (10_state rules R11, R29). -/
def slotMask (n : Nat) : Word :=
  if n = 6 ∨ n = 7 ∨ n = 8 ∨ n = 9 then 0x0000FFFF else if n = 10 then 0x000000FF else 0xFFFFFFFF

/-- The next state of an outcome changed, a stop left as it is. -/
def mapNext (f : State → State) : Out → Out
  | .next t => .next (f t)
  | .fault r => .fault r
  | .refused r => .refused r

/-- `s` with other checksum registers (41_suffix rule R112). -/
def withChecksumRegs (acc off cnt : Word) (s : State) : State :=
  { s with crcAcc := acc, crcOff := off, crcCnt := cnt }

end Sys2Proof.Machine
end

