-- ==== Sys2Proof/Certificates/Slice0/Obligations.lean ====
section
/-! DEFINITION. The statements for the provers, from the numbered rules of spec/. Hypotheses of the form
`image s = some img` say that `BUF_LEN <= BUF_SIZE` and that every byte of the image is written, which
70_reset_and_hazards rule R232 asks of the host before a command's rule holds. -/

open Sys2Proof Sys2Proof.Machine

/-! ## Command words -/

/-- R60, R62: decoding an encoded command gives it back, and each word has one meaning. -/
def Obligations.DecodeInvertsEncode : Prop :=
  (∀ i : Instr, i.wellFormed = true → decode (encode i) = .ok i) ∧
    ∀ (w : Word) (i : Instr), decode w = .ok i → encode i = w

/-- R62: the decoder accepts the twelve command words of the opcode map as the commands they stand for, and no other word;
these are the words the match/mask form of the map admits. -/
def Obligations.DecoderFollowsOpcodeMap : Prop :=
  ∀ w : Word,
    (∀ i, decode w = .ok i ↔
      (w, i) ∈ ([(0x00000001, .crcInit), (0x00000002, .crcCompute), (0x00000010, .sfxParse false),
        (0x00000110, .sfxParse true), (0x00000011, .sfxSerialize), (0x00000020, .tlvParse),
        (0x00000021, .tlvSerialize), (0x00000030, .opAdd false), (0x00000130, .opAdd true),
        (0x00000031, .opVerify), (0x00000032, .opRemove false), (0x00000132, .opRemove true)] :
          List (Word × Instr))) ∧
      (commandWordLegal w = true ↔ ∃ i, decode w = .ok i)

/-- R62: one word of each family. -/
def Obligations.SampleWordsDecode : Prop :=
  decode 0x00000002 = .ok .crcCompute ∧ decode 0x00000110 = .ok (.sfxParse true) ∧
    decode 0x00000021 = .ok .tlvSerialize ∧ decode 0x00000031 = .ok .opVerify

/-- R64, R209: a write to `CMD` of a word with a reserved bit, with an opcode outside the map, or with `FLG` where its row
says no, changes nothing but `STATUS`, which reports `IllegalCommand` and bits 7:0 of the word. -/
def Obligations.IllegalWordOnlyReports : Prop :=
  ∀ (s : State) (w : Word) (rest : List HostEvent),
    (w.extractLsb' 9 23 ≠ 0 ∨
      w.extractLsb' 0 8 ∉ ([0x01, 0x02, 0x10, 0x11, 0x20, 0x21, 0x30, 0x31, 0x32] : List Byte) ∨
      w.getLsbD 8 = true ∧ w.extractLsb' 0 8 ∉ ([0x10, 0x30, 0x32] : List Byte)) →
    s.script = .writeReg 0 w :: rest →
      step s = .next { s with script := rest, status := statusWord (w.extractLsb' 0 8) false .illegalCommand }

/-! ## Steps -/

/-- R13: a step at a write of a legal word to `CMD` is the command itself, in the state whose script has moved past the
write; a read of `CMD` returns 0 and changes nothing. -/
def Obligations.StepRunsDecodedCommand : Prop :=
  (∀ (s : State) (w : Word) (i : Instr) (rest : List HostEvent),
    s.script = .writeReg 0 w :: rest → decode w = .ok i → step s = exec i { s with script := rest }) ∧
    ∀ (s : State) (rest : List HostEvent),
      s.script = .readReg 0 :: rest →
        step s = .next { s with script := rest, readback := s.readback ++ [.word 0] }

/-- R237: with no host event pending the run has ended (the model's refusal, notes/assumptions/1.md). -/
def Obligations.RunEndsWithTheScript : Prop :=
  ∀ s : State, s.script = [] → step s = .refused .endOfScript

/-- R11, R28: what a host read of each slot returns, with no other effect on the engine. -/
def Obligations.HostRegisterRead : Prop :=
  ∀ (s : State) (n : Nat) (rest : List HostEvent),
    s.script = .readReg n :: rest →
      step s = .next { s with
        script := rest
        readback := s.readback ++
          [.word (([0, s.status, s.bufLen, s.crcAcc, s.crcOff, s.crcCnt, s.sfxBcdDfu.setWidth 32,
            s.sfxIdVendor.setWidth 32, s.sfxIdProduct.setWidth 32, s.sfxBcdDevice.setWidth 32,
            s.sfxExtraLen.setWidth 32, 16 + s.sfxExtraLen.setWidth 32, s.sfxCrc, s.recCount,
            s.tlvAlign] : List Word).getD n 0)] }

/-- R28: a read of a reserved slot returns 0, a write is ignored, neither has any other effect. -/
def Obligations.ReservedSlotsDoNothing : Prop :=
  ∀ (s : State) (n : Nat) (v : Word) (rest : List HostEvent), 15 ≤ n →
    (s.script = .readReg n :: rest →
      step s = .next { s with script := rest, readback := s.readback ++ [.word 0] }) ∧
    (s.script = .writeReg n v :: rest → step s = .next { s with script := rest })

/-- R29, R28: a read/write slot stores the value truncated to its width and no other slot changes, but `SFX_LENGTH` with
`SFX_EXTRA_LEN`; a read-only or reserved slot ignores the write; no memory changes. -/
def Obligations.HostRegisterWriteTruncates : Prop :=
  ∀ (s : State) (n : Nat) (v : Word) (rest : List HostEvent),
    s.script = .writeReg n v :: rest → n ≠ 0 →
      ((n ≤ 10 ∧ n ≠ 1 ∨ n = 13 ∨ n = 14) →
        ∃ t, step s = .next t ∧ readReg n t = v &&& slotMask n ∧
          (∀ m, m ≠ n → ¬(n = 10 ∧ m = 11) → readReg m t = readReg m s) ∧
          (n = 10 → readReg 11 t = 16 + (v &&& 0xFF)) ∧
          t.cfg = s.cfg ∧ t.script = rest ∧ t.readback = s.readback ∧
          t.buf = s.buf ∧ t.extra = s.extra ∧ t.recOff = s.recOff ∧ t.recHead = s.recHead ∧ t.val = s.val) ∧
      ((n = 1 ∨ n = 11 ∨ n = 12 ∨ 15 ≤ n) → step s = .next { s with script := rest })

/-- R8, R45: a host write of one byte inside a space writes that byte and nothing else. -/
def Obligations.HostByteWriteThenRead : Prop :=
  ∀ (s : State) (m : ByteSpace) (i : Nat) (b : Byte) (rest : List HostEvent),
    s.script = .writeByte m i b :: rest → i < m.size s.cfg →
      ∃ t, step s = .next t ∧
        t = { s with script := rest, buf := t.buf, extra := t.extra, val := t.val } ∧
        readCell (cellsOf t m) i = some b ∧
        ∀ (m' : ByteSpace) (a : Nat), ¬(m' = m ∧ a = i) → readCell (cellsOf t m') a = readCell (cellsOf s m') a

/-- R33, R42: a host read of one byte returns it where it is written, faults where it is not, and no access goes outside a
space (the model's faults, notes/assumptions/2.md and 7.md). -/
def Obligations.HostByteReadReturnsOrFaults : Prop :=
  ∀ (s : State) (m : ByteSpace) (i : Nat) (rest : List HostEvent),
    (s.script = .readByte m i :: rest →
      (∀ b, i < m.size s.cfg → readCell (cellsOf s m) i = some b →
        step s = .next { s with script := rest, readback := s.readback ++ [.byte b] }) ∧
      (i < m.size s.cfg → readCell (cellsOf s m) i = none → step s = .fault (.unwrittenRead m.space i)) ∧
      (m.size s.cfg ≤ i → step s = .fault (.noSuchLocation m.space i))) ∧
    ∀ b : Byte, s.script = .writeByte m i b :: rest → m.size s.cfg ≤ i →
      step s = .fault (.noSuchLocation m.space i)

/-- R24, R33, R42: a host write of a word of REC is read back, bits 31:16 dropped in an odd word, and no other word changes;
a host read of a written word returns it and changes nothing else; a read of an unwritten word, and an access to a word
outside REC, fault (the model's faults, notes/assumptions/2.md and 7.md). -/
def Obligations.RecWordWriteThenRead : Prop :=
  ∀ (s : State) (j : Nat) (rest : List HostEvent),
    (∀ v : Word, s.script = .writeRec j v :: rest →
      (j < 2 * s.cfg.recMax →
        ∃ t, step s = .next t ∧
          t = { s with script := rest, recOff := t.recOff, recHead := t.recHead } ∧
          readRecWord j t = some (if j % 2 = 0 then v else v &&& 0x0000FFFF) ∧
          (∀ k, k ≠ j → readRecWord k t = readRecWord k s) ∧
          (j % 2 = 1 → readCell t.recHead (j / 2) = some ⟨v.extractLsb' 0 8, v.extractLsb' 8 8⟩)) ∧
      (2 * s.cfg.recMax ≤ j → step s = .fault (.noSuchLocation .recWords j))) ∧
    (s.script = .readRec j :: rest →
      (∀ v, j < 2 * s.cfg.recMax → readRecWord j s = some v →
        step s = .next { s with script := rest, readback := s.readback ++ [.word v] }) ∧
      (j < 2 * s.cfg.recMax → readRecWord j s = none → step s = .fault (.unwrittenRead .recWords j)) ∧
      (2 * s.cfg.recMax ≤ j → step s = .fault (.noSuchLocation .recWords j)))

/-- R230, R32: what reset leaves in the registers, from any state and in any configuration. -/
def Obligations.ResetRegisterValues : Prop :=
  (∀ c : Config,
    (List.range 15).map (fun n => readReg n (State.resetIn c)) =
      [0, 0, 0, 0xFFFFFFFF ^^^ crcXor c, 0, 0, 0x0100, 0xFFFF, 0xFFFF, 0xFFFF, 0, 16, 0, 0, 0]) ∧
    State.reset = State.resetIn standardConfig ∧
    ∀ (s : State) (rest : List HostEvent), s.script = .reset :: rest →
      step s = .next { State.resetIn s.cfg with script := rest, readback := s.readback }

/-- R41, R66: `load` presents an image: after its writes `IMG` is those bytes. -/
def Obligations.LoadPresentsTheImage : Prop :=
  ∀ (s : State) (bs : List Byte) (rest : List HostEvent),
    bs.length ≤ s.cfg.bufSize → s.script = lineLoad bs ++ rest →
      ∃ t, Host.Core.run core (bs.length + 1) s = .next t ∧ image t = some bs ∧ t.script = rest ∧
        t = { s with buf := t.buf, bufLen := t.bufLen, script := rest }

/-! ## The checksum -/

/-- R94: the chaining law, in both settings. -/
def Obligations.ChecksumChains : Prop :=
  ∀ (c : Config) (a b : List Byte) (s : Word), crc c b (crc c a s) = crc c (a ++ b) s

/-- R97 (a), (c): the empty sequence, and for fixed bytes an affine bijection of the seed. -/
def Obligations.ChecksumIsAffineBijection : Prop :=
  ∀ (c : Config) (bytes : List Byte),
    (∀ s, crc c [] s = s) ∧ Function.Bijective (crc c bytes) ∧
      ∀ s d, crc c bytes (s ^^^ d) = crc c bytes s ^^^ crcRaw bytes d ^^^ crcRaw bytes 0

/-- R97 (d): for a fixed seed a change of one byte, so of one bit, changes the result. -/
def Obligations.ChecksumDetectsOneByteChange : Prop :=
  ∀ (c : Config) (front back : List Byte) (b b' : Byte) (s : Word),
    b ≠ b' → crc c (front ++ b :: back) s ≠ crc c (front ++ b' :: back) s

/-- R91: the table-driven form is the same function. -/
def Obligations.ChecksumStepByTable : Prop :=
  ∀ (r : Word) (b : Byte),
    crcStep r b = (r >>> 8) ^^^ crcStep (((r ^^^ b.setWidth 32) &&& 0x000000FF)) 0

/-- R91, R93: the sample values of the step, and the check value in both settings. -/
def Obligations.ChecksumSampleValues : Prop :=
  crcStep 0 0x01 = 0x77073096 ∧ crcStep 0 0x80 = 0xEDB88320 ∧ crcStep 0 0xFF = 0x2D02EF8D ∧
    crcStep 0xFFFFFFFF 0x00 = 0x2DFD1072 ∧
    ∀ c : Config, crc c [0x31, 0x32, 0x33, 0x34, 0x35, 0x36, 0x37, 0x38, 0x39] (defaultSeed c) =
      match c.crc with
      | .std => 0xCBF43926
      | .raw => 0x340BC6D9

/-- R95: CRC_INIT loads the default seed and changes nothing else but `STATUS`, from every state. -/
def Obligations.CrcInitLoadsDefaultSeed : Prop :=
  decode 0x00000001 = .ok .crcInit ∧
    ∀ s : State, exec .crcInit s = .next { s with crcAcc := defaultSeed s.cfg, status := 0x00000100 }

/-- R96: CRC_COMPUTE continues the running checksum over its range, and changes nothing but `STATUS` where the range is not
inside the image; the sum is not wrapped. -/
def Obligations.CrcComputeContinuesTheSeed : Prop :=
  decode 0x00000002 = .ok .crcCompute ∧
  ∀ s : State,
    (∀ bytes, s.bufLen.toNat ≤ s.cfg.bufSize → s.crcOff.toNat + s.crcCnt.toNat ≤ s.bufLen.toNat →
      readRange s.buf s.crcOff.toNat s.crcCnt.toNat = some bytes →
      exec .crcCompute s = .next { s with crcAcc := crc s.cfg bytes s.crcAcc, status := 0x00000200 }) ∧
    ((s.cfg.bufSize < s.bufLen.toNat ∨ s.bufLen.toNat < s.crcOff.toNat + s.crcCnt.toNat) →
      exec .crcCompute s = .next { s with status := 0x00000215 })

/-- R96, R94: two CRC_COMPUTE commands over adjacent ranges leave the checksum one over the whole range leaves. -/
def Obligations.AdjacentRangesChain : Prop :=
  ∀ (s t u : State) (a b c : Nat),
    a ≤ b → b ≤ c → c < 4294967296 →
    exec .crcCompute { s with crcOff := BitVec.ofNat 32 a, crcCnt := BitVec.ofNat 32 (b - a) } = .next t →
    statusErr t.status = 0 →
    exec .crcCompute { t with crcOff := BitVec.ofNat 32 b, crcCnt := BitVec.ofNat 32 (c - b) } = .next u →
    statusErr u.status = 0 →
    exec .crcCompute { s with crcOff := BitVec.ofNat 32 a, crcCnt := BitVec.ofNat 32 (c - a) } =
      .next { u with crcOff := BitVec.ofNat 32 a, crcCnt := BitVec.ofNat 32 (c - a) }

/-! ## STATUS -/

/-- R14, R201, R202: the fields of a status word, and the codes and exit codes of the outcomes. -/
def Obligations.StatusWordFields : Prop :=
  (∀ (op : Byte) (pfx : Bool) (k : ErrKind),
    statusErr (statusWord op pfx k) = k.code ∧ statusExit (statusWord op pfx k) = k.exitCode ∧
      statusPfx (statusWord op pfx k) = pfx ∧ statusLastOp (statusWord op pfx k) = op ∧
      (statusWord op pfx k).getLsbD 7 = false ∧ (statusWord op pfx k).extractLsb' 16 16 = 0) ∧
    [ErrKind.ok, .notASuffix, .invalidCrc, .alreadyHasSuffix, .malformedTlv, .badOperand, .noSpace,
      .illegalCommand].map (fun k => (k.code.toNat, k.exitCode.toNat)) =
      [(0, 0), (1, 1), (2, 2), (3, 1), (4, 1), (5, 1), (6, 1), (7, 1)]

/-! ## The trailer -/

/-- R114: the rebuilt field block is the image's own bytes, so the two-stage checksum is one pass over all but the last
four. -/
def Obligations.TrailerChecksumIsSinglePass : Prop :=
  ∀ (c : Config) (img : List Byte), structuralImg img = true →
    (suffixOf img).block = slice img (img.length - trailerLength img) (img.length - 4) ∧
      trailerCrc c (bodyOf img) (suffixOf img).block = crc c (slice img 0 (img.length - 4)) (defaultSeed c)

/-- R116: SFX_PARSE and SFX_PARSE.V, with every outcome. -/
def Obligations.SfxParseReportsTheTrailer : Prop :=
  (decode 0x00000010 = .ok (.sfxParse false) ∧ decode 0x00000110 = .ok (.sfxParse true)) ∧
  ∀ (s : State) (v : Bool),
    (∀ img, image s = some img →
      (trailerVerdict s.cfg v img = .ok →
        ∃ t, exec (.sfxParse v) s = .next t ∧ t.status = 0x00001000 ∧ suffixView t = some (suffixOf img) ∧
          onlyBank s t) ∧
      (trailerVerdict s.cfg v img ≠ .ok →
        exec (.sfxParse v) s = .next { s with status := statusWord 0x10 false (trailerVerdict s.cfg v img) })) ∧
    (s.cfg.bufSize < s.bufLen.toNat → exec (.sfxParse v) s = .next { s with status := 0x00001015 })

/-- R118: without `verify` the trailer alone decides: nothing is asked of the body, not even that it be written, nor of the
checksum, and `SFX_CRC` holds the stored value. -/
def Obligations.SfxParseReadsOnlyTheTrailer : Prop :=
  ∀ (s : State) (tail : List Byte),
    s.bufLen.toNat ≤ s.cfg.bufSize → tail.length ≤ s.bufLen.toNat →
    readRange s.buf (s.bufLen.toNat - tail.length) tail.length = some tail →
    structuralImg tail = true → trailerLength tail = tail.length →
      ∃ t, exec (.sfxParse false) s = .next t ∧ t.status = 0x00001000 ∧ suffixView t = some (suffixOf tail) ∧
        t.sfxCrc = rd32 tail (tail.length - 4) ∧ onlyBank s t

/-- R124: SFX_SERIALIZE appends the trailer of the suffix bank, or fails with nothing but `STATUS` changed. -/
def Obligations.SfxSerializeAppendsTheTrailer : Prop :=
  decode 0x00000011 = .ok .sfxSerialize ∧
  ∀ s : State,
    (∀ body x c, image s = some body → suffixView s = some x →
      s.bufLen.toNat + s.sfxExtraLen.toNat + 16 ≤ s.cfg.bufSize → c = trailerCrc s.cfg body x.block →
      ∃ t, exec .sfxSerialize s = .next t ∧
        image t = some (body ++ trailer x.bcdDevice x.idProduct x.idVendor x.bcdDfu x.extra c) ∧
        t.bufLen.toNat = s.bufLen.toNat + s.sfxExtraLen.toNat + 16 ∧
        t = { s with status := 0x00001100, buf := t.buf, bufLen := t.bufLen, sfxCrc := c }) ∧
    ((s.cfg.bufSize < s.bufLen.toNat ∨ 239 < s.sfxExtraLen.toNat) →
      exec .sfxSerialize s = .next { s with status := 0x00001115 }) ∧
    (s.bufLen.toNat ≤ s.cfg.bufSize → s.sfxExtraLen.toNat ≤ 239 →
      s.cfg.bufSize < s.bufLen.toNat + s.sfxExtraLen.toNat + 16 →
      exec .sfxSerialize s = .next { s with status := 0x00001116 })

/-- R126 (a), (b): after SFX_SERIALIZE the image is structurally sound, and SFX_PARSE.V succeeds and leaves the suffix bank
as it was. -/
def Obligations.SerializedTrailerVerifies : Prop :=
  ∀ s t : State, exec .sfxSerialize s = .next t → statusErr t.status = 0 →
    (∃ img, image t = some img ∧ structuralImg img = true) ∧
      ∃ u, exec (.sfxParse true) t = .next u ∧ u.status = 0x00001000 ∧ suffixView u = suffixView t ∧
        u = { t with status := 0x00001000, extra := u.extra } ∧ ∀ a, readCell u.extra a = readCell t.extra a

/-- R126 (c), (d): cutting a parsed trailer off and serializing the bank again reproduces the image, after SFX_PARSE.V
byte for byte, after SFX_PARSE but for the last four bytes. -/
def Obligations.ParsedTrailerSerializesBack : Prop :=
  ∀ (s t : State) (v : Bool) (img : List Byte),
    image s = some img → exec (.sfxParse v) s = .next t → statusErr t.status = 0 →
      ∃ u img', exec .sfxSerialize { t with bufLen := BitVec.ofNat 32 (t.bufLen.toNat - sfxLength t) } = .next u ∧
        u.status = 0x00001100 ∧ image u = some img' ∧ img'.length = img.length ∧
        slice img' 0 (img.length - 4) = slice img 0 (img.length - 4) ∧ (v = true → img' = img)

/-! ## The TLV record stream -/

/-- R143: TLV_PARSE writes the list of R142 to the record object, or reports `MalformedTlv` or `BadOperand` with nothing
else changed. -/
def Obligations.TlvParseBuildsTheRecords : Prop :=
  decode 0x00000020 = .ok .tlvParse ∧
  ∀ s : State,
    (∀ img, image s = some img →
      (∀ rs, parseTlvImg img = some rs →
        ∃ t, exec .tlvParse s = .next t ∧ t.status = 0x00002000 ∧ recordObjectIs t rs ∧
          records t = some rs ∧ onlyRecords s t) ∧
      (parseTlvImg img = none → exec .tlvParse s = .next { s with status := 0x00002014 })) ∧
    (s.cfg.bufSize < s.bufLen.toNat → exec .tlvParse s = .next { s with status := 0x00002015 })

/-- R145: after a successful TLV_PARSE the values lie in VAL back to back from 0 in list order, `Records()` is the parsed
list, and REC and VAL above keep their contents. -/
def Obligations.ParsedValuesAreCompact : Prop :=
  ∀ (s t : State) (img : List Byte), image s = some img → exec .tlvParse s = .next t → statusErr t.status = 0 →
    ∃ rs, parseTlvImg img = some rs ∧ records t = some rs ∧
      (0 < t.recCount.toNat → readCell t.recOff 0 = some 0) ∧
      (∀ i, i + 1 < t.recCount.toNat → ∃ off off' head, readCell t.recOff i = some off ∧
        readCell t.recHead i = some head ∧ readCell t.recOff (i + 1) = some off' ∧
        off'.toNat = off.toNat + head.len.toNat) ∧
      (∀ i, t.recCount.toNat ≤ i →
        readCell t.recOff i = readCell s.recOff i ∧ readCell t.recHead i = readCell s.recHead i) ∧
      ∀ a, valueTotal rs ≤ a → readCell t.val a = readCell s.val a

/-- R146: a parsed list fits the record table and the value memory, in every admissible configuration. -/
def Obligations.TlvParseCannotOverflow : Prop :=
  ∀ (s : State) (img : List Byte) (rs : List Record),
    image s = some img → parseTlvImg img = some rs →
      2 * rs.length + 2 ≤ img.length ∧ rs.length ≤ s.cfg.recMax ∧ valueTotal rs < img.length ∧
        valueTotal rs < s.cfg.valSize

/-- R74, R141, R142: a legal list's encoding parses to that list, whatever follows it. -/
def Obligations.EncodedListParsesBack : Prop :=
  ∀ (rs : List Record) (align : Nat) (tail : List Byte),
    (∀ r ∈ rs, r.legal) → parseTlvImg (encodeTlv rs align ++ tail) = some rs

/-- R74, R154: the fill brings the stream's length up to the next multiple of a requested alignment, with zero bytes after
the terminator; alignments 0 and 1 add nothing. -/
def Obligations.PaddingReachesTheAlignment : Prop :=
  ∀ (rs : List Record) (a : Nat),
    (0 < a → a ∣ (encodeTlv rs a).length ∧ (encodeTlv rs a).length < (encodeList rs).length + a) ∧
      (∃ k, encodeTlv rs a = encodeList rs ++ List.replicate k 0) ∧
      (a ≤ 1 → encodeTlv rs a = encodeList rs)

/-- R152: TLV_SERIALIZE appends the encoding of `Records()`, or fails with nothing but `STATUS` changed. -/
def Obligations.TlvSerializeAppendsTheStream : Prop :=
  decode 0x00000021 = .ok .tlvSerialize ∧
  ∀ s : State,
    (∀ rs, records s = some rs → (∀ r ∈ rs, r.legal) →
      s.bufLen.toNat + (encodeTlv rs s.tlvAlign.toNat).length ≤ s.cfg.bufSize →
      ∃ t, exec .tlvSerialize s = .next t ∧
        readRange t.buf s.bufLen.toNat (encodeTlv rs s.tlvAlign.toNat).length =
          some (encodeTlv rs s.tlvAlign.toNat) ∧
        t.bufLen.toNat = s.bufLen.toNat + (encodeTlv rs s.tlvAlign.toNat).length ∧
        t = { s with status := 0x00002100, buf := t.buf, bufLen := t.bufLen }) ∧
    ((s.cfg.bufSize < s.bufLen.toNat ∨ s.cfg.recMax < s.recCount.toNat) →
      exec .tlvSerialize s = .next { s with status := 0x00002115 }) ∧
    (s.bufLen.toNat ≤ s.cfg.bufSize → s.recCount.toNat ≤ s.cfg.recMax →
      (∀ i, i < s.recCount.toNat → (readCell s.recHead i).isSome = true ∧ (readCell s.recOff i).isSome = true) →
      (∃ i head off, i < s.recCount.toNat ∧ readCell s.recHead i = some head ∧ readCell s.recOff i = some off ∧
        badEntry s.cfg head off) →
      exec .tlvSerialize s = .next { s with status := 0x00002115 }) ∧
    (∀ rs, s.bufLen.toNat ≤ s.cfg.bufSize → records s = some rs → (∀ r ∈ rs, r.legal) →
      s.cfg.bufSize < s.bufLen.toNat + (encodeTlv rs s.tlvAlign.toNat).length →
      exec .tlvSerialize s = .next { s with status := 0x00002116 })

/-- R157: a stream serialized into an empty image parses back to the same records; and a parsed canonical stream
serialized into an empty image, unpadded, is the stream up to and including its terminator. -/
def Obligations.TlvRoundTrip : Prop :=
  (∀ s t : State, s.bufLen = 0 → exec .tlvSerialize s = .next t → statusErr t.status = 0 →
    ∃ u rs, exec .tlvParse t = .next u ∧ u.status = 0x00002000 ∧ records s = some rs ∧ records u = some rs) ∧
  ∀ (s t : State) (rs : List Record) (tail : List Byte),
    image s = some (encodeList rs ++ tail) → (∀ r ∈ rs, r.legal) →
    exec .tlvParse s = .next t → statusErr t.status = 0 →
      ∃ u, exec .tlvSerialize { t with bufLen := 0, tlvAlign := 0 } = .next u ∧ u.status = 0x00002100 ∧
        image u = some (encodeList rs)

/-! ## The composite commands -/

/-- R172: OP_ADD and OP_ADD.F append a fresh 16-byte trailer, or fail, in the rule's order, with nothing but `STATUS`
changed. -/
def Obligations.OpAddAppendsAFreshTrailer : Prop :=
  (decode 0x00000030 = .ok (.opAdd false) ∧ decode 0x00000130 = .ok (.opAdd true)) ∧
  ∀ (s : State) (force : Bool),
    (∀ body c, image s = some body → (force = true ∨ structuralImg body = false) →
      s.bufLen.toNat + 16 ≤ s.cfg.bufSize →
      c = trailerCrc s.cfg body (fieldBlock s.sfxBcdDevice s.sfxIdProduct s.sfxIdVendor 0x0100 []) →
      ∃ t, exec (.opAdd force) s = .next t ∧
        image t = some (body ++ trailer s.sfxBcdDevice s.sfxIdProduct s.sfxIdVendor 0x0100 [] c) ∧
        t.bufLen.toNat = s.bufLen.toNat + 16 ∧
        t = { s with
          status := 0x00003000, buf := t.buf, bufLen := t.bufLen, sfxBcdDfu := 0x0100, sfxExtraLen := 0,
          sfxCrc := c }) ∧
    (s.cfg.bufSize < s.bufLen.toNat → exec (.opAdd force) s = .next { s with status := 0x00003015 }) ∧
    (∀ body, image s = some body → force = false → structuralImg body = true →
      exec (.opAdd force) s = .next { s with status := 0x00003013 }) ∧
    (∀ body, image s = some body → (force = true ∨ structuralImg body = false) →
      s.cfg.bufSize < s.bufLen.toNat + 16 → exec (.opAdd force) s = .next { s with status := 0x00003016 })

/-- R175: OP_VERIFY, with every outcome. -/
def Obligations.OpVerifyReports : Prop :=
  decode 0x00000031 = .ok .opVerify ∧
  ∀ s : State,
    (∀ img, image s = some img →
      (trailerVerdict s.cfg true img ≠ .ok →
        exec .opVerify s = .next { s with status := statusWord 0x31 false (trailerVerdict s.cfg true img) }) ∧
      (trailerVerdict s.cfg true img = .ok →
        ((suffixOf img).idVendor ≠ 0x4A61 ∨ (suffixOf img).idProduct ≠ 0x679C →
          ∃ t, exec .opVerify s = .next t ∧ t.status = 0x00003100 ∧ suffixView t = some (suffixOf img) ∧
            onlyBank s t) ∧
        ((suffixOf img).idVendor = 0x4A61 → (suffixOf img).idProduct = 0x679C →
          (parseTlvImg img = none →
            ∃ t, exec .opVerify s = .next t ∧ t.status = 0x00003114 ∧ suffixView t = some (suffixOf img) ∧
              onlyBank s t) ∧
          ∀ rs, parseTlvImg img = some rs →
            ∃ t b, exec .opVerify s = .next t ∧ t.status = 0x00003140 ∧ suffixView t = some (suffixOf img) ∧
              recordObjectIs t rs ∧ records t = some rs ∧ onlyBank s b ∧ onlyRecords b t))) ∧
    (s.cfg.bufSize < s.bufLen.toNat → exec .opVerify s = .next { s with status := 0x00003115 })

/-- R177: `PFX` is 1 exactly when OP_VERIFY succeeded on the known pair; then `Records()` is the image's prefix list; else
OP_VERIFY leaves the record object alone. -/
def Obligations.PfxTellsOfThePrefixList : Prop :=
  ∀ (i : Instr) (s t : State), exec i s = .next t →
    (statusPfx t.status = true ↔
      i = .opVerify ∧ statusErr t.status = 0 ∧ t.sfxIdVendor = 0x4A61 ∧ t.sfxIdProduct = 0x679C) ∧
    (statusPfx t.status = true → ∃ img rs, image s = some img ∧ parseTlvImg img = some rs ∧ records t = some rs) ∧
    (i = .opVerify → statusPfx t.status = false →
      t.recCount = s.recCount ∧ t.recOff = s.recOff ∧ t.recHead = s.recHead ∧ t.val = s.val)

/-- R180: OP_REMOVE, with every outcome; no byte of BUF is written. -/
def Obligations.OpRemoveStripsTheTrailer : Prop :=
  (decode 0x00000032 = .ok (.opRemove false) ∧ decode 0x00000132 = .ok (.opRemove true)) ∧
  ∀ (s : State) (force : Bool),
    (∀ img, image s = some img →
      (trailerVerdict s.cfg true img = .ok →
        ∃ t b, exec (.opRemove force) s = .next t ∧ t.status = 0x00003200 ∧ image t = some (bodyOf img) ∧
          t.bufLen.toNat = s.bufLen.toNat - trailerLength img ∧ suffixView t = some (suffixOf img) ∧
          onlyBank s b ∧ t = { b with bufLen := t.bufLen }) ∧
      (trailerVerdict s.cfg true img ≠ .ok →
        exec (.opRemove force) s = .next { s with status := statusWord 0x32 false (trailerVerdict s.cfg true img) })) ∧
    (s.cfg.bufSize < s.bufLen.toNat → exec (.opRemove force) s = .next { s with status := 0x00003215 })

/-- R181: OP_REMOVE always verifies the checksum, and its flag changes nothing. -/
def Obligations.RemoveIgnoresForce : Prop :=
  (∀ s : State, exec (.opRemove true) s = exec (.opRemove false) s) ∧
    ∀ (s : State) (img : List Byte) (force : Bool),
      image s = some img → structuralImg img = true →
      trailerCrc s.cfg (bodyOf img) (suffixOf img).block ≠ (suffixOf img).crc →
        exec (.opRemove force) s = .next { s with status := 0x00003222 }

/-- R182: after a successful OP_ADD an OP_REMOVE succeeds and the image is the one before; the add of an image that fits
fails only where it is suffix-shaped and `FLG` is 0. -/
def Obligations.AddThenRemoveRestoresTheImage : Prop :=
  ∀ (s : State) (img : List Byte) (f : Bool),
    image s = some img → img.length + 16 ≤ s.cfg.bufSize →
      ((f = false ∧ structuralImg img = true →
        exec (.opAdd f) s = .next { s with status := 0x00003013 }) ∧
      (¬(f = false ∧ structuralImg img = true) →
        ∃ t, exec (.opAdd f) s = .next t ∧ t.status = 0x00003000 ∧
          ∀ g, ∃ u, exec (.opRemove g) t = .next u ∧ u.status = 0x00003200 ∧ u.bufLen = s.bufLen ∧
            image u = some img))

/-- R183: after a successful OP_ADD, the image with one bit flipped never verifies, and which kind OP_VERIFY reports. -/
def Obligations.OneFlippedBitIsReported : Prop :=
  ∀ (s t : State) (f : Bool) (img : List Byte) (p j : Nat) (b : Byte),
    exec (.opAdd f) s = .next t → statusErr t.status = 0 → image t = some img →
    p < img.length → j < 8 → b = byteAt img p ^^^ BitVec.ofNat 8 (2 ^ j) →
      exec .opVerify { t with buf := writeCell t.buf p b } =
        .next { t with
          buf := writeCell t.buf p b
          status := statusWord 0x31 false
            (if img.length - 8 ≤ p ∧ p ≤ img.length - 6 then .notASuffix
            else if p = img.length - 5 ∧ (b.toNat < 16 ∨ img.length < b.toNat) then .notASuffix
            else .invalidCrc) }

/-- R184: after a successful OP_ADD a second one without force is rejected with nothing but `STATUS` changed; with force it
succeeds, space permitting: the image stays as the new trailer's body, the new length byte is 16, and `BUF_LEN` grows by
16. -/
def Obligations.SecondAddIsRejectedOrStacks : Prop :=
  ∀ (s t : State) (f : Bool), exec (.opAdd f) s = .next t → statusErr t.status = 0 →
    exec (.opAdd false) t = .next { t with status := 0x00003013 } ∧
      (t.bufLen.toNat + 16 ≤ t.cfg.bufSize →
        ∃ u img img', exec (.opAdd true) t = .next u ∧ u.status = 0x00003000 ∧
          u.bufLen.toNat = t.bufLen.toNat + 16 ∧ image t = some img ∧ image u = some img' ∧
          structuralImg img' = true ∧ trailerLength img' = 16 ∧ bodyOf img' = img)

/-- R185: a length byte below 16 or above the image's length is rejected by every reader of trailers, whatever signature and
checksum say, and OP_ADD without force takes the image as having no trailer. -/
def Obligations.LengthByteOutOfRangeIsRejected : Prop :=
  ∀ (s : State) (img : List Byte) (v g : Bool),
    image s = some img → 16 ≤ img.length → (trailerLength img < 16 ∨ img.length < trailerLength img) →
      exec (.sfxParse v) s = .next { s with status := 0x00001011 } ∧
      exec .opVerify s = .next { s with status := 0x00003111 } ∧
      exec (.opRemove g) s = .next { s with status := 0x00003211 } ∧
      (img.length + 16 ≤ s.cfg.bufSize → ∃ t, exec (.opAdd false) s = .next t ∧ t.status = 0x00003000)

/-! ## Rules of the whole machine -/

/-- R204, R179: a failing command changes nothing but `STATUS`, whose `PFX` is 0, with the one exception of OP_VERIFY
ending with `MalformedTlv`, which keeps the suffix bank it wrote. -/
def Obligations.FailureChangesOnlyStatus : Prop :=
  ∀ (i : Instr) (s t : State), exec i s = .next t → statusErr t.status ≠ 0 →
    (∃ k, k ≠ ErrKind.ok ∧ t.status = statusWord i.opc false k) ∧
      (t = { s with status := t.status } ∨
        i = .opVerify ∧ t.status = statusWord i.opc false .malformedTlv ∧ onlyBank s t ∧
          ∃ img, image s = some img ∧ suffixView t = some (suffixOf img))

/-- R201, R203, R204: every command that ends rewrites `STATUS` with its own opcode and one of the error kinds its rule lists. -/
def Obligations.CommandEndsAsItsRuleLists : Prop :=
  ∀ (i : Instr) (s t : State), exec i s = .next t →
    ∃ pfx k, t.status = statusWord i.opc pfx k ∧ k ∈ i.outcomes ∧ (pfx = true → i = .opVerify ∧ k = .ok)

/-- R46, R33: no command is refused, and one faults only at a location inside its space that nobody has written (the model's
fault, notes/assumptions/2.md). -/
def Obligations.CommandsFaultOnlyOnUnwrittenReads : Prop :=
  ∀ (i : Instr) (s : State),
    (∀ r, exec i s ≠ .refused r) ∧
      ∀ f, exec i s = .fault f →
        ∃ m a, f = .unwrittenRead m a ∧ a < spaceSize s.cfg m ∧ isWritten s m a = false

/-- R33: a command whose rule reads a location nobody has written stops there, and reads no value for it (the model's
fault, notes/assumptions/2.md and 3.md): the range of CRC_COMPUTE; the signature and length byte; the body under a
checksum; `extra`; a record's header and value; a REC entry and its value. -/
def Obligations.CommandsStopAtUnwrittenReads : Prop :=
  ∀ s : State, s.bufLen.toNat ≤ s.cfg.bufSize →
    (s.crcOff.toNat + s.crcCnt.toNat ≤ s.bufLen.toNat →
      readRange s.buf s.crcOff.toNat s.crcCnt.toNat = none →
      stopsIn .crcCompute s .buf s.crcOff.toNat (s.crcOff.toNat + s.crcCnt.toNat)) ∧
    (16 ≤ s.bufLen.toNat → readRange s.buf (s.bufLen.toNat - 8) 4 = none →
      ∀ v f, ∀ i ∈ ([.sfxParse v, .opVerify, .opRemove f, .opAdd false] : List Instr),
        stopsIn i s .buf (s.bufLen.toNat - 8) (s.bufLen.toNat - 4)) ∧
    (∀ tail, tail.length ≤ s.bufLen.toNat →
      readRange s.buf (s.bufLen.toNat - tail.length) tail.length = some tail →
      structuralImg tail = true → trailerLength tail = tail.length → image s = none →
      ∀ f, ∀ i ∈ ([.sfxParse true, .opVerify, .opRemove f] : List Instr),
        stopsIn i s .buf 0 (s.bufLen.toNat - tail.length)) ∧
    (s.bufLen.toNat + 16 ≤ s.cfg.bufSize → image s = none → stopsIn (.opAdd true) s .buf 0 s.bufLen.toNat) ∧
    (s.sfxExtraLen.toNat ≤ 239 → s.bufLen.toNat + s.sfxExtraLen.toNat + 16 ≤ s.cfg.bufSize →
      (image s = none → stopsIn .sfxSerialize s .buf 0 s.bufLen.toNat) ∧
      (image s ≠ none → readRange s.extra 0 s.sfxExtraLen.toNat = none →
        stopsIn .sfxSerialize s .extra 0 s.sfxExtraLen.toNat)) ∧
    (∀ (rs : List Record) (off : Nat), (∀ r ∈ rs, r.legal) →
      readRange s.buf 0 off = some (rs.flatMap encodeRecord) → off + 2 ≤ s.bufLen.toNat →
      (readRange s.buf off 2 = none → stopsIn .tlvParse s .buf off (off + 2)) ∧
      ∀ size tag : Byte, readRange s.buf off 2 = some [size, tag] → tag ≠ 0 → size ≠ 0 →
        off + 1 + size.toNat ≤ s.bufLen.toNat → readRange s.buf (off + 2) (size.toNat - 1) = none →
        stopsIn .tlvParse s .buf (off + 2) (off + 1 + size.toNat)) ∧
    (s.recCount.toNat ≤ s.cfg.recMax →
      (∀ i, i < s.recCount.toNat → (∀ k, k < i → soundEntry s k) →
        (readCell s.recHead i = none → stopsIn .tlvSerialize s .recWords (2 * i + 1) (2 * i + 2)) ∧
        ∀ head, readCell s.recHead i = some head → head.tag ≠ 0 → head.len.toNat ≤ 254 → readCell s.recOff i = none →
          stopsIn .tlvSerialize s .recWords (2 * i) (2 * i + 1)) ∧
      ((∀ i, i < s.recCount.toNat → soundEntry s i) → records s = none →
        s.bufLen.toNat + entriesLength s + fillCount (entriesLength s) s.tlvAlign.toNat ≤ s.cfg.bufSize →
        stopsIn .tlvSerialize s .val 0 s.cfg.valSize))

/-- R33: what an unwritten location holds is nothing a command that ends depends on: with any value written there first,
the command ends the same way, and every location reads as before but that one, which keeps the value unless the
command has written it. -/
def Obligations.UnwrittenContentsDoNotMatter : Prop :=
  ∀ (i : Instr) (s t : State), exec i s = .next t →
    (∀ (m : ByteSpace) (a : Nat) (b : Byte), readCell (cellsOf s m) a = none →
      ∃ u, exec i (writeByte m a b s) = .next u ∧
        u = { t with buf := u.buf, extra := u.extra, val := u.val } ∧
        ∀ (m' : ByteSpace) (c : Nat), readCell (cellsOf u m') c =
          if m' = m ∧ c = a ∧ readCell (cellsOf t m) a = none then some b else readCell (cellsOf t m') c) ∧
    ∀ (j : Nat) (v : Word), readRecWord j s = none →
      ∃ u, exec i (writeRecWord j v s) = .next u ∧
        u = { t with recOff := u.recOff, recHead := u.recHead } ∧
        ∀ k, readRecWord k u =
          if k = j ∧ readRecWord j t = none then some (if j % 2 = 0 then v else v &&& 0x0000FFFF)
          else readRecWord k t

/-- R14, R214: no command reads `STATUS`: whatever it holds, every command does the same. -/
def Obligations.StatusIsNeverRead : Prop :=
  ∀ (i : Instr) (s : State) (w : Word), exec i { s with status := w } = exec i s

/-- R112: the suffix and workflow commands, and the TLV commands, neither read nor write the checksum registers. -/
def Obligations.ChecksumRegistersAreNotTouched : Prop :=
  ∀ (i : Instr) (s : State) (acc off cnt : Word), i ≠ .crcInit → i ≠ .crcCompute →
    exec i (withChecksumRegs acc off cnt s) = mapNext (withChecksumRegs acc off cnt) (exec i s)

/-- R11, R63: a command leaves every register its row of the table does not list as it was, and the model's own fields. -/
def Obligations.RegisterFrame : Prop :=
  ∀ (i : Instr) (s t : State), exec i s = .next t →
    (∀ n, n ∉ i.slotsWritten → readReg n t = readReg n s) ∧
      t.cfg = s.cfg ∧ t.script = s.script ∧ t.readback = s.readback

/-- R27, R40: what a command leaves of BUF: everything but the bytes SFX_SERIALIZE, OP_ADD and TLV_SERIALIZE append at
`BUF_LEN`. -/
def Obligations.ImageMemoryFrame : Prop :=
  ∀ (i : Instr) (s t : State), exec i s = .next t →
    (i = .crcInit ∨ i = .crcCompute ∨ i = .sfxParse true ∨ i = .sfxParse false ∨ i = .tlvParse ∨ i = .opVerify ∨
        i = .opRemove true ∨ i = .opRemove false →
      ∀ a, readCell t.buf a = readCell s.buf a) ∧
    (i = .sfxSerialize →
      ∀ a, (a < s.bufLen.toNat ∨ s.bufLen.toNat + s.sfxExtraLen.toNat + 16 ≤ a) →
        readCell t.buf a = readCell s.buf a) ∧
    (i = .opAdd true ∨ i = .opAdd false →
      ∀ a, (a < s.bufLen.toNat ∨ s.bufLen.toNat + 16 ≤ a) → readCell t.buf a = readCell s.buf a) ∧
    (i = .tlvSerialize → ∀ a, (a < s.bufLen.toNat ∨ t.bufLen.toNat ≤ a) → readCell t.buf a = readCell s.buf a)

/-- R20, R40: what a command leaves of EXTRA: everything but the `extra` that SFX_PARSE, OP_VERIFY and OP_REMOVE write. -/
def Obligations.ExtraStoreFrame : Prop :=
  ∀ (i : Instr) (s t : State), exec i s = .next t →
    (i = .crcInit ∨ i = .crcCompute ∨ i = .sfxSerialize ∨ i = .tlvParse ∨ i = .tlvSerialize ∨ i = .opAdd true ∨
        i = .opAdd false → ∀ a, readCell t.extra a = readCell s.extra a) ∧
    (i = .sfxParse true ∨ i = .sfxParse false ∨ i = .opVerify ∨ i = .opRemove true ∨ i = .opRemove false →
      (statusErr t.status = 1 ∨ statusErr t.status = 2 ∨ statusErr t.status = 5 →
        ∀ a, readCell t.extra a = readCell s.extra a) ∧
      ∀ a, t.sfxExtraLen.toNat ≤ a → readCell t.extra a = readCell s.extra a)

/-- R40, R145: what a command leaves of REC and VAL: everything but the entries and values that TLV_PARSE, and OP_VERIFY
with `PFX = 1`, write. -/
def Obligations.RecordMemoryFrame : Prop :=
  ∀ (i : Instr) (s t : State), exec i s = .next t →
    (i ≠ .tlvParse ∧ statusPfx t.status = false ∨ statusErr t.status ≠ 0 →
      ∀ a, readCell t.recOff a = readCell s.recOff a ∧ readCell t.recHead a = readCell s.recHead a ∧
        readCell t.val a = readCell s.val a) ∧
    (i = .tlvParse ∨ i = .opVerify → ∀ rs, statusErr t.status = 0 → records t = some rs →
      (∀ a, t.recCount.toNat ≤ a →
        readCell t.recOff a = readCell s.recOff a ∧ readCell t.recHead a = readCell s.recHead a) ∧
      ∀ a, valueTotal rs ≤ a → readCell t.val a = readCell s.val a)

/-- R40, R14: every step keeps the invariant: memories in canonical form inside their spaces, `STATUS` a legal word. -/
def Obligations.StepKeepsTheInvariant : Prop :=
  ∀ s t : State, s.Inv → step s = .next t → t.Inv

/-- R32, R33: the state after reset meets the invariant, in every configuration. -/
def Obligations.ResetMeetsTheInvariant : Prop :=
  ∀ c : Config, (State.resetIn c).Inv

/-- The canonical form: memories that read alike at every address are the same data, for the byte memories and for the two
tables of REC alike. -/
def Obligations.MemoryIsCanonical : Prop :=
  ∀ (α : Type) (size : Nat) (m₁ m₂ : List (Nat × α)), Memory.wf size m₁ → Memory.wf size m₂ →
    (∀ a, readCell m₁ a = readCell m₂ a) → m₁ = m₂

/-- R31: `Lookup(t)` is the value of the entry of lowest index with the tag, or none; it asks nothing of the entries after
it, nor of where the values of other entries lie. So it agrees with `Records()` where that is defined. Where it hangs on a
location nobody has written or that does not exist, it has no answer (the model's choice, notes/assumptions/10.md). -/
def Obligations.LookupTakesTheFirstRecord : Prop :=
  ∀ (s : State) (t : Byte),
    (∀ i, i < s.recCount.toNat → i < s.cfg.recMax →
      (∀ k, k < i → ∃ h, readCell s.recHead k = some h ∧ h.tag ≠ t) →
      (∀ head off value, readCell s.recHead i = some head → head.tag = t → readCell s.recOff i = some off →
        off.toNat + head.len.toNat ≤ s.cfg.valSize → readRange s.val off.toNat head.len.toNat = some value →
          lookup s t = .found value) ∧
      ((readCell s.recHead i = none ∨ ∃ head, readCell s.recHead i = some head ∧ head.tag = t ∧ recordAt s i = none) →
        lookup s t = .unreadable)) ∧
    ((∀ k, k < s.recCount.toNat → k < s.cfg.recMax → ∃ h, readCell s.recHead k = some h ∧ h.tag ≠ t) →
      (s.recCount.toNat ≤ s.cfg.recMax → lookup s t = .absent) ∧
      (s.cfg.recMax < s.recCount.toNat → lookup s t = .unreadable)) ∧
    ∀ rs, records s = some rs →
      ((∀ r ∈ rs, r.tag ≠ t) → lookup s t = .absent) ∧
        ∀ front r back, rs = front ++ r :: back → r.tag = t → (∀ q ∈ front, q.tag ≠ t) → lookup s t = .found r.value
end

