-- ==== Sys2Proof/Laws/Memory.lean ====
section
/-! SUPPORT. The laws of the memories: read after write, the ranges, and that every write keeps the canonical form. -/

namespace Sys2Proof.Machine

variable {α : Type}

@[simp] theorem readCell_nil (a : Nat) : readCell ([] : List (Nat × α)) a = none := rfl

/-- A read after a write gives the value written, and a write leaves every other address alone. -/
theorem readCell_writeCell (m : List (Nat × α)) (a b : Nat) (v : α) :
    readCell (writeCell m a v) b = if b = a then some v else readCell m b := by
  induction m with
  | nil => by_cases h : a = b <;> simp [writeCell, readCell, h, eq_comm]
  | cons c m ih =>
    obtain ⟨k, w⟩ := c
    unfold writeCell
    split
    · by_cases h : a = b <;> simp [readCell, h, eq_comm]
    · split
      · rename_i h; subst h
        by_cases h : a = b <;> simp [readCell, h, eq_comm]
      · by_cases hk : k = b
        · subst hk
          have : ¬ k = a := fun h => by simp_all
          simp [readCell, this]
        · simp [readCell, hk, ih]

@[simp] theorem readCell_writeCell_same (m : List (Nat × α)) (a : Nat) (v : α) :
    readCell (writeCell m a v) a = some v := by simp [readCell_writeCell]

theorem readCell_writeCell_other {m : List (Nat × α)} {a b : Nat} {v : α} (h : b ≠ a) :
    readCell (writeCell m a v) b = readCell m b := by simp [readCell_writeCell, h]

@[simp] theorem writeCells_nil (m : List (Nat × α)) (a : Nat) : writeCells m a [] = m := rfl

/-- What a read gives after a run of consecutive writes. -/
theorem readCell_writeCells (m : List (Nat × α)) (a b : Nat) (vs : List α) :
    readCell (writeCells m a vs) b =
      if a ≤ b ∧ b < a + vs.length then vs[b - a]? else readCell m b := by
  induction vs generalizing m a with
  | nil => simp [writeCells]
  | cons v vs ih =>
    rw [writeCells, ih, readCell_writeCell]
    by_cases hb : b = a
    · subst hb; simp
    · by_cases h : a + 1 ≤ b ∧ b < a + 1 + vs.length
      · obtain ⟨k, rfl⟩ : ∃ k, b = a + 1 + k := ⟨b - (a + 1), by omega⟩
        have h2 : a ≤ a + 1 + k ∧ a + 1 + k < a + (v :: vs).length := by simp; omega
        rw [if_pos h, if_pos h2, show a + 1 + k - (a + 1) = k by omega, show a + 1 + k - a = k + 1 by omega]
        simp
      · have h2 : ¬(a ≤ b ∧ b < a + (v :: vs).length) := by simp; omega
        rw [if_neg h, if_neg h2, if_neg hb]

theorem readCell_writeCells_inside {m : List (Nat × α)} {a i : Nat} {vs : List α} (h : i < vs.length) :
    readCell (writeCells m a vs) (a + i) = some vs[i] := by
  rw [readCell_writeCells, if_pos (by omega)]; simp [h]

theorem readCell_writeCells_outside {m : List (Nat × α)} {a b : Nat} {vs : List α}
    (h : b < a ∨ a + vs.length ≤ b) : readCell (writeCells m a vs) b = readCell m b := by
  rw [readCell_writeCells, if_neg (by omega)]

/-- A range is read exactly when every location of it is written. -/
theorem readRange_eq_some_iff {m : List (Nat × α)} {a n : Nat} {vs : List α} :
    readRange m a n = some vs ↔ vs.length = n ∧ ∀ i, i < n → readCell m (a + i) = vs[i]? := by
  induction n generalizing a vs with
  | zero => cases vs <;> simp [readRange]
  | succ n ih =>
    rw [readRange]
    constructor
    · intro h
      split at h
      · cases h
      · rename_i v hv
        split at h
        · cases h
        · rename_i ws hws
          cases h
          obtain ⟨hl, hr⟩ := ih.1 hws
          refine ⟨by simp [hl], fun i hi => ?_⟩
          cases i with
          | zero => simpa using hv
          | succ i =>
            rw [show a + (i + 1) = a + 1 + i by omega, hr i (by omega)]; simp
    · rintro ⟨hl, hr⟩
      cases vs with
      | nil => simp at hl
      | cons v ws =>
        have h0 : readCell m a = some v := by simpa using hr 0 (by omega)
        have hw : readRange m (a + 1) n = some ws := ih.2 ⟨by simpa using hl, fun i hi => by
          have := hr (i + 1) (by omega)
          rw [show a + (i + 1) = a + 1 + i by omega] at this; simpa using this⟩
        rw [h0, hw]

theorem readRange_length {m : List (Nat × α)} {a n : Nat} {vs : List α} (h : readRange m a n = some vs) :
    vs.length = n := (readRange_eq_some_iff.1 h).1

/-- A range depends only on its own locations. -/
theorem readRange_congr {m m' : List (Nat × α)} {a n : Nat}
    (h : ∀ i, i < n → readCell m (a + i) = readCell m' (a + i)) : readRange m a n = readRange m' a n := by
  induction n generalizing a with
  | zero => rfl
  | succ n ih =>
    have h0 : readCell m a = readCell m' a := by simpa using h 0 (by omega)
    have h1 : readRange m (a + 1) n = readRange m' (a + 1) n := ih fun i hi => by
      have := h (i + 1) (by omega)
      rwa [show a + (i + 1) = a + 1 + i by omega] at this
    simp only [readRange, h0, h1]

/-- Two adjacent ranges make one. -/
theorem readRange_append {m : List (Nat × α)} {a n k : Nat} {vs ws : List α}
    (h1 : readRange m a n = some vs) (h2 : readRange m (a + n) k = some ws) :
    readRange m a (n + k) = some (vs ++ ws) := by
  obtain ⟨l1, r1⟩ := readRange_eq_some_iff.1 h1
  obtain ⟨l2, r2⟩ := readRange_eq_some_iff.1 h2
  refine readRange_eq_some_iff.2 ⟨by simp [l1, l2], fun i hi => ?_⟩
  by_cases h : i < n
  · rw [r1 i h, List.getElem?_append_left (by omega)]
  · obtain ⟨j, rfl⟩ : ∃ j, i = n + j := ⟨i - n, by omega⟩
    rw [show a + (n + j) = a + n + j by omega, r2 j (by omega), List.getElem?_append_right (by omega), l1,
      show n + j - n = j by omega]

/-- Part of a range. -/
theorem readRange_sub {m : List (Nat × α)} {a n : Nat} {vs : List α} (h : readRange m a n = some vs)
    {i k : Nat} (hk : i + k ≤ n) : readRange m (a + i) k = some ((vs.take (i + k)).drop i) := by
  obtain ⟨l, r⟩ := readRange_eq_some_iff.1 h
  refine readRange_eq_some_iff.2 ⟨by simp; omega, fun j hj => ?_⟩
  rw [show a + i + j = a + (i + j) by omega, r (i + j) (by omega), List.getElem?_drop,
    List.getElem?_take_of_lt (by omega)]

theorem readRange_writeCells_same (m : List (Nat × α)) (a : Nat) (vs : List α) :
    readRange (writeCells m a vs) a vs.length = some vs :=
  readRange_eq_some_iff.2 ⟨rfl, fun i hi => by rw [readCell_writeCells_inside hi]; simp [hi]⟩

theorem readRange_writeCells_disjoint {m : List (Nat × α)} {a b n : Nat} {vs : List α}
    (h : b + n ≤ a ∨ a + vs.length ≤ b) : readRange (writeCells m a vs) b n = readRange m b n :=
  readRange_congr fun _ _ => readCell_writeCells_outside (by omega)

/-! ## The canonical form -/

theorem Memory.wf_nil (size : Nat) : Memory.wf size ([] : List (Nat × α)) := by
  simp [Memory.wf]

theorem mem_writeCell {m : List (Nat × α)} {a : Nat} {v : α} {c : Nat × α} (h : c ∈ writeCell m a v) :
    c = (a, v) ∨ c ∈ m := by
  induction m with
  | nil => simpa [writeCell] using h
  | cons d m ih =>
    obtain ⟨k, w⟩ := d
    unfold writeCell at h
    split at h
    · simpa using h
    · split at h
      · rcases List.mem_cons.1 h with h | h
        · exact .inl h
        · exact .inr (List.mem_cons_of_mem _ h)
      · rcases List.mem_cons.1 h with h | h
        · exact .inr (h ▸ List.mem_cons_self)
        · exact (ih h).imp_right (List.mem_cons_of_mem _)

/-- A write inside a memory keeps its canonical form. -/
theorem Memory.wf_writeCell {size : Nat} {m : List (Nat × α)} {a : Nat} (hm : Memory.wf size m) (ha : a < size)
    (v : α) : Memory.wf size (writeCell m a v) := by
  refine ⟨?_, fun c hc => (mem_writeCell hc).elim (fun h => h ▸ ha) (hm.2 c)⟩
  obtain ⟨hp, -⟩ := hm
  induction m with
  | nil => simp [writeCell]
  | cons d m ih =>
    obtain ⟨k, w⟩ := d
    simp only [List.map_cons, List.pairwise_cons] at hp
    obtain ⟨hk, hp⟩ := hp
    unfold writeCell
    split
    · rename_i h
      simp only [List.map_cons, List.pairwise_cons]
      refine ⟨?_, hk, hp⟩
      intro b hb
      rcases List.mem_cons.1 hb with rfl | hb
      · exact h
      · exact h.trans (hk b hb)
    · split
      · rename_i h; subst h
        simp only [List.map_cons, List.pairwise_cons]
        exact ⟨hk, hp⟩
      · simp only [List.map_cons, List.pairwise_cons]
        refine ⟨?_, ih hp⟩
        intro b hb
        obtain ⟨c, hc, rfl⟩ := List.mem_map.1 hb
        rcases mem_writeCell hc with rfl | hc
        · show k < a; omega
        · exact hk c.1 (List.mem_map_of_mem hc)

/-- A run of writes inside a memory keeps its canonical form. -/
theorem Memory.wf_writeCells {size : Nat} {m : List (Nat × α)} {a : Nat} {vs : List α} (hm : Memory.wf size m)
    (h : a + vs.length ≤ size) : Memory.wf size (writeCells m a vs) := by
  induction vs generalizing m a with
  | nil => exact hm
  | cons v vs ih =>
    simp only [List.length_cons] at h
    exact ih (Memory.wf_writeCell hm (by omega) v) (by omega)

end Sys2Proof.Machine
end

