-- ==== Sys2Proof/Laws/Reads.lean ====
section
/-! SUPPORT. One law for each way a command's rule tests and reads: when it goes on, and with what it stops. -/

namespace Sys2Proof.Machine

variable {α β : Type}

@[simp] theorem Cmd.ok_bind (a : α) (f : α → Cmd β) : ((Except.ok a : Cmd α) >>= f) = f a := rfl

@[simp] theorem Cmd.error_bind (e : Stop) (f : α → Cmd β) : ((Except.error e : Cmd α) >>= f) = .error e := rfl

@[simp] theorem Cmd.pure_eq (a : α) : (pure a : Cmd α) = .ok a := rfl

/-- A sequence goes on exactly when its first part does and its second part does after it. -/
theorem Cmd.bind_eq_ok {x : Cmd α} {f : α → Cmd β} {b : β} :
    (x >>= f) = .ok b ↔ ∃ a, x = .ok a ∧ f a = .ok b := by
  cases x <;> simp

/-- A sequence stops where its first part stops, or where its second part does after it. -/
theorem Cmd.bind_eq_error {x : Cmd α} {f : α → Cmd β} {e : Stop} :
    (x >>= f) = .error e ↔ x = .error e ∨ ∃ a, x = .ok a ∧ f a = .error e := by
  cases x <;> simp

@[simp] theorem require_eq_ok {p : Prop} [Decidable p] {k : ErrKind} {u : Unit} : require p k = .ok u ↔ p := by
  unfold require; split <;> simp_all

@[simp] theorem require_eq_error {p : Prop} [Decidable p] {k : ErrKind} {e : Stop} :
    require p k = .error e ↔ ¬p ∧ e = .error k := by
  unfold require; split <;> simp_all [eq_comm]

theorem require_pos {p : Prop} [Decidable p] {k : ErrKind} (h : p) : require p k = .ok () := if_pos h

@[simp] theorem require_true (k : ErrKind) : require True k = .ok () := rfl

@[simp] theorem require_false (k : ErrKind) : require False k = .error (.error k) := rfl

theorem require_neg {p : Prop} [Decidable p] {k : ErrKind} (h : ¬p) : require p k = .error (.error k) := if_neg h

@[simp] theorem demand_eq_ok {m : Space} {i : Nat} {o : Option α} {v : α} : demand m i o = .ok v ↔ o = some v := by
  cases o <;> simp [demand]

@[simp] theorem demand_eq_error {m : Space} {i : Nat} {o : Option α} {e : Stop} :
    demand m i o = .error e ↔ o = none ∧ e = .fault (.unwrittenRead m i) := by
  cases o <;> simp [demand, eq_comm]

@[simp] theorem readByte_eq_ok {m : Space} {cells : List Host.Cell} {i : Nat} {b : Byte} :
    readByte m cells i = .ok b ↔ readCell cells i = some b := demand_eq_ok

@[simp] theorem readByte_eq_error {m : Space} {cells : List Host.Cell} {i : Nat} {e : Stop} :
    readByte m cells i = .error e ↔ readCell cells i = none ∧ e = .fault (.unwrittenRead m i) := demand_eq_error

/-- A command reads a range exactly when every location of it is written. -/
@[simp] theorem readBytes_eq_ok {m : Space} {cells : List Host.Cell} {a n : Nat} {bs : List Byte} :
    readBytes m cells a n = .ok bs ↔ readRange cells a n = some bs := by
  induction n generalizing a bs with
  | zero => simp [readBytes, readRange]
  | succ n ih =>
    simp only [readBytes, readRange, Cmd.bind_eq_ok, readByte_eq_ok, ih, Cmd.pure_eq, Except.ok.injEq]
    constructor
    · rintro ⟨b, hb, bs', hbs, rfl⟩
      simp [hb, hbs]
    · intro h
      split at h
      · cases h
      · rename_i v hv
        split at h
        · cases h
        · rename_i vs hvs
          cases h
          exact ⟨v, hv, vs, hvs, rfl⟩

/-- A range that cannot be read names an unwritten location inside it. -/
theorem readBytes_eq_error {m : Space} {cells : List Host.Cell} {a n : Nat} {e : Stop}
    (h : readBytes m cells a n = .error e) :
    ∃ i, a ≤ i ∧ i < a + n ∧ readCell cells i = none ∧ e = .fault (.unwrittenRead m i) := by
  induction n generalizing a with
  | zero => simp [readBytes] at h
  | succ n ih =>
    simp only [readBytes, Cmd.bind_eq_error, readByte_eq_error, Cmd.pure_eq, reduceCtorEq, and_false,
      exists_false, or_false] at h
    rcases h with ⟨h, rfl⟩ | ⟨b, -, h⟩
    · exact ⟨a, le_refl _, by omega, h, rfl⟩
    · obtain ⟨i, h1, h2, h3⟩ := ih h
      exact ⟨i, by omega, by omega, h3⟩

/-- A command ends in a next state exactly when its rule succeeds or fails with an error kind. -/
theorem conclude_eq_next {op : Byte} {pfx : Bool} {s t : State} {r : Cmd State} :
    conclude op pfx s r = .next t ↔
      (∃ u, r = .ok u ∧ t = setStatus op pfx .ok u) ∨ ∃ k, r = .error (.error k) ∧ t = setStatus op false k s := by
  rcases r with e | u
  · cases e <;> simp [conclude, eq_comm]
  · simp [conclude, eq_comm]

/-- A command faults exactly when its rule reads an unwritten location. -/
theorem conclude_eq_fault {op : Byte} {pfx : Bool} {s : State} {r : Cmd State} {f : Fault} :
    conclude op pfx s r = .fault f ↔ r = .error (.fault f) := by
  rcases r with e | u
  · cases e <;> simp [conclude]
  · simp [conclude]

/-- No command is refused. -/
theorem conclude_ne_refused {op : Byte} {pfx : Bool} {s : State} {r : Cmd State} {f : Refusal} :
    conclude op pfx s r ≠ .refused f := by
  rcases r with e | u
  · cases e <;> simp [conclude]
  · simp [conclude]

end Sys2Proof.Machine
end

