-- ==== Sys2Proof/Laws/Image.lean ====
section
/-! SUPPORT. What the machine's reads of an image give, in the terms of the rules' functions on byte sequences: the trailer
(41_suffix rules R111, R116) and the TLV stream (42_tlv rule R142). -/

namespace Sys2Proof.Machine

theorem image_eq_some {s : State} {img : List Byte} :
    image s = some img ↔ s.bufLen.toNat ≤ s.cfg.bufSize ∧ readRange s.buf 0 s.bufLen.toNat = some img := by
  unfold image; split <;> simp_all

theorem image_length {s : State} {img : List Byte} (h : image s = some img) : img.length = s.bufLen.toNat :=
  readRange_length (image_eq_some.1 h).2

theorem byteAt_of_lt {img : List Byte} {i : Nat} (h : i < img.length) : byteAt img i = img[i] := by
  simp [byteAt, h]

/-- A byte of a range that is read. -/
theorem readCell_of_range {m : List Host.Cell} {a n i : Nat} {bs : List Byte} (h : readRange m a n = some bs)
    (hi : i < n) : readCell m (a + i) = some (byteAt bs i) := by
  obtain ⟨hl, hr⟩ := readRange_eq_some_iff.1 h
  rw [hr i hi, byteAt_of_lt (by omega)]; simp [show i < bs.length by omega]

theorem slice_length {img : List Byte} {a b : Nat} (h : b ≤ img.length) : (slice img a b).length = b - a := by
  simp [slice]; omega

theorem byteAt_slice {img : List Byte} {a b i : Nat} (h : a + i < b) (hb : b ≤ img.length) :
    byteAt (slice img a b) i = byteAt img (a + i) := by
  rw [byteAt_of_lt (by rw [slice_length hb]; omega), byteAt_of_lt (by omega)]
  simp [slice]

/-- Part of a range that is read. -/
theorem readRange_slice {m : List Host.Cell} {a n i j : Nat} {bs : List Byte} (h : readRange m a n = some bs)
    (hij : i ≤ j) (hj : j ≤ n) : readRange m (a + i) (j - i) = some (slice bs i j) := by
  have := readRange_sub h (i := i) (k := j - i) (by omega)
  rwa [show i + (j - i) = j by omega] at this

/-! ## Little-endian fields -/

theorem halfOf_eq (b0 b1 : Byte) : halfOf b0 b1 = BitVec.ofNat 16 (b0.toNat + 256 * b1.toNat) := by
  apply BitVec.eq_of_toNat_eq
  have h0 := b0.isLt
  have h1 := b1.isLt
  have h : (halfOf b0 b1).toNat = b0.toNat + 256 * b1.toNat := by
    unfold halfOf
    rw [BitVec.toNat_append, ← Nat.shiftLeft_add_eq_or_of_lt h0, Nat.shiftLeft_eq]
    omega
  rw [h, BitVec.toNat_ofNat, Nat.mod_eq_of_lt]
  omega

theorem wordOf_eq (b0 b1 b2 b3 : Byte) :
    wordOf b0 b1 b2 b3 =
      BitVec.ofNat 32 (b0.toNat + 256 * b1.toNat + 65536 * b2.toNat + 16777216 * b3.toNat) := by
  apply BitVec.eq_of_toNat_eq
  have h0 := b0.isLt
  have h1 := b1.isLt
  have h2 := b2.isLt
  have h3 := b3.isLt
  have h : (wordOf b0 b1 b2 b3).toNat =
      b0.toNat + 256 * b1.toNat + 65536 * b2.toNat + 16777216 * b3.toNat := by
    unfold wordOf
    rw [BitVec.toNat_append, ← Nat.shiftLeft_add_eq_or_of_lt h0, BitVec.toNat_append,
      ← Nat.shiftLeft_add_eq_or_of_lt h1, BitVec.toNat_append, ← Nat.shiftLeft_add_eq_or_of_lt h2,
      Nat.shiftLeft_eq, Nat.shiftLeft_eq, Nat.shiftLeft_eq]
    omega
  rw [h, BitVec.toNat_ofNat, Nat.mod_eq_of_lt]
  omega

@[simp] theorem le16_length (v : Half) : (le16 v).length = 2 := rfl

@[simp] theorem le32_length (v : Word) : (le32 v).length = 4 := rfl

@[simp] theorem fieldBlock_length (dev pid vid dfu : Half) (extra : List Byte) :
    (fieldBlock dev pid vid dfu extra).length = extra.length + 12 := by
  simp [fieldBlock, signature]

@[simp] theorem trailer_length (dev pid vid dfu : Half) (extra : List Byte) (c : Word) :
    (trailer dev pid vid dfu extra c).length = extra.length + 16 := by
  simp [trailer]

/-! ## The trailer at the end of `n` bytes, of which the last ones are written -/

section
variable {buf : List Host.Cell} {n : Nat} {tail : List Byte}

theorem readHalf_of_range (h : readRange buf (n - tail.length) tail.length = some tail) {i : Nat}
    (hi : i + 1 < tail.length) : readHalf buf (n - tail.length + i) = .ok (rd16 tail i) := by
  have h0 := readCell_of_range h (show i < tail.length by omega)
  have h1 := readCell_of_range h hi
  rw [show n - tail.length + (i + 1) = n - tail.length + i + 1 by omega] at h1
  simp [readHalf, readByte, h0, h1, demand, rd16, halfOf_eq]

theorem readWord_of_range (h : readRange buf (n - tail.length) tail.length = some tail) {i : Nat}
    (hi : i + 3 < tail.length) : readWord buf (n - tail.length + i) = .ok (rd32 tail i) := by
  have h0 := readCell_of_range h (show i < tail.length by omega)
  have h1 := readCell_of_range h (show i + 1 < tail.length by omega)
  have h2 := readCell_of_range h (show i + 2 < tail.length by omega)
  have h3 := readCell_of_range h hi
  simp only [← Nat.add_assoc] at h1 h2 h3
  simp [readWord, readByte, h0, h1, h2, h3, demand, rd32, wordOf_eq]

/-- `Structural` from the written end of an image of at least 16 bytes. -/
theorem structural_of_tail (h : readRange buf (n - tail.length) tail.length = some tail) (hn : tail.length ≤ n)
    (h16 : 16 ≤ tail.length) :
    structural buf n = .ok ((byteAt tail (tail.length - 8) == 0x55 && byteAt tail (tail.length - 7) == 0x46
      && byteAt tail (tail.length - 6) == 0x44) && decide (16 ≤ trailerLength tail)
      && decide (trailerLength tail ≤ n)) := by
  have hs : readRange buf (n - 8) 3 =
      some [byteAt tail (tail.length - 8), byteAt tail (tail.length - 7), byteAt tail (tail.length - 6)] := by
    have h8 := readCell_of_range h (show tail.length - 8 < tail.length by omega)
    have h7 := readCell_of_range h (show tail.length - 7 < tail.length by omega)
    have h6 := readCell_of_range h (show tail.length - 6 < tail.length by omega)
    rw [show n - tail.length + (tail.length - 8) = n - 8 by omega] at h8
    rw [show n - tail.length + (tail.length - 7) = n - 8 + 1 by omega] at h7
    rw [show n - tail.length + (tail.length - 6) = n - 8 + 1 + 1 by omega] at h6
    simp [readRange, h8, h7, h6]
  have h5 := readCell_of_range h (show tail.length - 5 < tail.length by omega)
  rw [show n - tail.length + (tail.length - 5) = n - 5 by omega] at h5
  unfold structural
  rw [if_neg (by omega), readBytes_eq_ok.2 hs, Cmd.ok_bind, readByte_eq_ok.2 h5, Cmd.ok_bind]
  simp [signature, trailerLength, Bool.and_assoc]
  rfl

/-- The Suffix read from the written end of an image. -/
theorem readSuffix_of_tail (h : readRange buf (n - tail.length) tail.length = some tail) (hn : tail.length ≤ n)
    (h16 : 16 ≤ trailerLength tail) (hl : trailerLength tail ≤ tail.length) :
    readSuffix buf n = .ok (suffixOf tail) := by
  have h5 := readCell_of_range h (show tail.length - 5 < tail.length by omega)
  rw [show n - tail.length + (tail.length - 5) = n - 5 by omega] at h5
  have hx := readRange_slice h (i := tail.length - trailerLength tail) (j := tail.length - 16) (by omega) (by omega)
  rw [show n - tail.length + (tail.length - trailerLength tail) = n - trailerLength tail by omega,
    show tail.length - 16 - (tail.length - trailerLength tail) = trailerLength tail - 16 by omega] at hx
  have h1 := readHalf_of_range h (i := tail.length - 16) (by omega)
  have h2 := readHalf_of_range h (i := tail.length - 14) (by omega)
  have h3 := readHalf_of_range h (i := tail.length - 12) (by omega)
  have h4 := readHalf_of_range h (i := tail.length - 10) (by omega)
  have hw := readWord_of_range h (i := tail.length - 4) (by omega)
  rw [show n - tail.length + (tail.length - 16) = n - 16 by omega] at h1
  rw [show n - tail.length + (tail.length - 14) = n - 14 by omega] at h2
  rw [show n - tail.length + (tail.length - 12) = n - 12 by omega] at h3
  rw [show n - tail.length + (tail.length - 10) = n - 10 by omega] at h4
  rw [show n - tail.length + (tail.length - 4) = n - 4 by omega] at hw
  unfold readSuffix
  rw [readByte_eq_ok.2 h5, Cmd.ok_bind, h1, Cmd.ok_bind, h2, Cmd.ok_bind, h3, Cmd.ok_bind, h4, Cmd.ok_bind]
  change (readBytes .buf buf (n - trailerLength tail) (trailerLength tail - 16) >>= _) = _
  rw [readBytes_eq_ok.2 hx, Cmd.ok_bind, hw, Cmd.ok_bind]
  rfl

end

theorem structuralImg_bounds {img : List Byte} (h : structuralImg img = true) :
    16 ≤ img.length ∧ 16 ≤ trailerLength img ∧ trailerLength img ≤ img.length := by
  simp only [structuralImg, Bool.and_eq_true, decide_eq_true_eq] at h
  exact ⟨h.1.1, h.2.1, h.2.2⟩

theorem trailerLength_le (img : List Byte) : trailerLength img ≤ 255 := by
  have := (byteAt img (img.length - 5)).isLt
  unfold trailerLength; omega

theorem suffixOf_size {img : List Byte} (h : structuralImg img = true) :
    (suffixOf img).size = trailerLength img := by
  have := structuralImg_bounds h
  simp only [Suffix.size, suffixOf]
  rw [slice_length (by omega)]; omega

theorem suffixOf_extra_length {img : List Byte} (h : structuralImg img = true) :
    (suffixOf img).extra.length = trailerLength img - 16 := by
  have := suffixOf_size h
  simp only [Suffix.size] at this; omega

/-- `Structural(IMG)` of a written image (41_suffix rule R111). -/
theorem structural_of_image {buf : List Host.Cell} {img : List Byte} (h : readRange buf 0 img.length = some img) :
    structural buf img.length = .ok (structuralImg img) := by
  by_cases h16 : 16 ≤ img.length
  · rw [structural_of_tail (tail := img) (by simpa using h) (le_refl _) h16]
    simp [structuralImg, h16, Bool.and_assoc]
  · simp [structural, structuralImg, h16, show img.length < 16 by omega]

/-- The document's parse of a written image: the Suffix, or the verdict's error kind (41_suffix rule R116). -/
theorem parseSuffix_of_image {s : State} {img : List Byte} (h : image s = some img) (v : Bool) :
    parseSuffix v s =
      if trailerVerdict s.cfg v img = .ok then .ok (suffixOf img)
      else .error (.error (trailerVerdict s.cfg v img)) := by
  have hlen := image_length h
  obtain ⟨hb, hr⟩ := image_eq_some.1 h
  rw [← hlen] at hr hb
  unfold parseSuffix
  rw [← hlen, require_pos hb, Cmd.ok_bind, structural_of_image hr, Cmd.ok_bind]
  by_cases hs : structuralImg img = true
  · have hbounds := structuralImg_bounds hs
    rw [require_pos hs, Cmd.ok_bind, readSuffix_of_tail (tail := img) (by simpa using hr) (le_refl _) hbounds.2.1
      hbounds.2.2, Cmd.ok_bind, suffixOf_size hs]
    cases v
    · simp [trailerVerdict, hs]
    · have hbody : readBytes .buf s.buf 0 (img.length - trailerLength img) = .ok (bodyOf img) := by
        have := readRange_slice hr (i := 0) (j := img.length - trailerLength img) (by omega) (by omega)
        exact readBytes_eq_ok.2 (by simpa [bodyOf] using this)
      rw [if_pos rfl, hbody, Cmd.ok_bind]
      by_cases hc : trailerCrc s.cfg (bodyOf img) (suffixOf img).block = (suffixOf img).crc
      · simp [trailerVerdict, hs, hc]
      · simp [trailerVerdict, hs, hc]
  · rw [require_neg hs]
    simp [trailerVerdict, hs]

/-! ## The TLV stream -/

/-- The scan of a written image is the rule's loop on its bytes (42_tlv rule R142). -/
theorem scanTlv_of_image {buf : List Host.Cell} {img : List Byte} (h : readRange buf 0 img.length = some img)
    (fuel off : Nat) :
    scanTlv buf img.length fuel off =
      match parseTlvTurns fuel (img.drop off) with
      | some rs => .ok rs
      | none => .error (.error .malformedTlv) := by
  induction fuel generalizing off with
  | zero => simp [scanTlv, parseTlvTurns]
  | succ fuel ih =>
    unfold scanTlv
    by_cases hoff : off + 2 ≤ img.length
    · have hd : img.drop off = img[off] :: img[off + 1] :: img.drop (off + 2) := by
        rw [List.drop_eq_getElem_cons (by omega), List.drop_eq_getElem_cons (by omega)]
      have h0 := readCell_of_range h (show off < img.length by omega)
      have h1 := readCell_of_range h (show off + 1 < img.length by omega)
      rw [byteAt_of_lt (by omega), Nat.zero_add] at h0 h1
      rw [require_pos hoff, Cmd.ok_bind, readByte_eq_ok.2 h0, Cmd.ok_bind, readByte_eq_ok.2 h1, Cmd.ok_bind, hd,
        parseTlvTurns]
      generalize img[off] = size, img[off + 1] = tag
      by_cases ht : tag = 0
      · simp [ht]
      · by_cases hz : size = 0
        · rw [if_neg ht, if_neg ht, if_pos hz, require_neg (by simpa using hz)]
          rfl
        · have hpos : 1 ≤ size.toNat := by
            have : size.toNat ≠ 0 := fun h => hz (BitVec.eq_of_toNat_eq (by simpa using h))
            omega
          rw [if_neg ht, if_neg ht, if_neg hz, require_pos (by simpa using hz), Cmd.ok_bind]
          by_cases hv : off + 1 + size.toNat ≤ img.length
          · have hr := readRange_slice h (i := off + 2) (j := off + 1 + size.toNat) (by omega) (by omega)
            rw [Nat.zero_add, show off + 1 + size.toNat - (off + 2) = size.toNat - 1 by omega] at hr
            have hvs : slice img (off + 2) (off + 1 + size.toNat) =
                (img.drop (off + 2)).take (size.toNat - 1) := by
              rw [slice, List.drop_take, show off + 1 + size.toNat - (off + 2) = size.toNat - 1 by omega]
            rw [require_pos hv, Cmd.ok_bind, readBytes_eq_ok.2 hr, Cmd.ok_bind, ih,
              if_neg (by rw [List.length_drop]; omega), hvs, List.drop_drop,
              show off + 2 + (size.toNat - 1) = off + size.toNat + 1 by omega]
            cases parseTlvTurns fuel (img.drop (off + size.toNat + 1)) <;> simp
          · rw [require_neg hv, if_pos (by rw [List.length_drop]; omega)]
            rfl
    · rw [require_neg hoff]
      have hlen : (img.drop off).length < 2 := by rw [List.length_drop]; omega
      generalize img.drop off = rest at hlen
      match rest, hlen with
      | [], _ => rfl
      | [_], _ => rfl

/-- `ParseTlv(IMG)` of a written image (42_tlv rule R142). -/
theorem parseTlv_of_image {buf : List Host.Cell} {img : List Byte} (h : readRange buf 0 img.length = some img) :
    parseTlv buf img.length =
      match parseTlvImg img with
      | some rs => .ok rs
      | none => .error (.error .malformedTlv) := by
  simpa [parseTlv, parseTlvImg] using scanTlv_of_image h img.length 0

/-- A parsed list fits: each record and the terminator's header take their bytes of the image (42_tlv rule R146), and every
record is legal (rule R140). -/
theorem scanTlv_eq_ok {buf : List Host.Cell} {n fuel off : Nat} {rs : List Record}
    (h : scanTlv buf n fuel off = .ok rs) :
    off + 2 * rs.length + valueTotal rs + 2 ≤ n ∧ ∀ r ∈ rs, r.legal := by
  induction fuel generalizing off rs with
  | zero => simp [scanTlv] at h
  | succ fuel ih =>
    unfold scanTlv at h
    obtain ⟨_, hoff, h⟩ := Cmd.bind_eq_ok.1 h
    rw [require_eq_ok] at hoff
    obtain ⟨size, -, h⟩ := Cmd.bind_eq_ok.1 h
    obtain ⟨tag, -, h⟩ := Cmd.bind_eq_ok.1 h
    split at h
    · cases h; simp [valueTotal]; omega
    · rename_i ht
      obtain ⟨_, hz, h⟩ := Cmd.bind_eq_ok.1 h
      obtain ⟨_, hv, h⟩ := Cmd.bind_eq_ok.1 h
      obtain ⟨value, hval, h⟩ := Cmd.bind_eq_ok.1 h
      obtain ⟨rest, hrest, h⟩ := Cmd.bind_eq_ok.1 h
      cases h
      rw [require_eq_ok] at hz hv
      have hl := readRange_length (readBytes_eq_ok.1 hval)
      have hs := size.isLt
      have hpos : size.toNat ≠ 0 := fun h => hz (BitVec.eq_of_toNat_eq (by simpa using h))
      obtain ⟨hb, hleg⟩ := ih hrest
      refine ⟨by simp [valueTotal] at hb ⊢; omega, fun r hr => ?_⟩
      rcases List.mem_cons.1 hr with rfl | hr
      · exact ⟨ht, by simp only; omega⟩
      · exact hleg r hr

end Sys2Proof.Machine
end

