-- ==== Sys2Proof/Laws/State.lean ====
section
/-! SUPPORT. One lemma per field per named update of the state, so that no later proof unfolds a record update. -/

namespace Sys2Proof.Machine

/-! ## `setStatus`: only `STATUS` changes -/

section
variable (op : Byte) (pfx : Bool) (k : ErrKind) (s : State)

@[simp] theorem setStatus_cfg : (setStatus op pfx k s).cfg = s.cfg := rfl
@[simp] theorem setStatus_status : (setStatus op pfx k s).status = statusWord op pfx k := rfl
@[simp] theorem setStatus_bufLen : (setStatus op pfx k s).bufLen = s.bufLen := rfl
@[simp] theorem setStatus_crcAcc : (setStatus op pfx k s).crcAcc = s.crcAcc := rfl
@[simp] theorem setStatus_crcOff : (setStatus op pfx k s).crcOff = s.crcOff := rfl
@[simp] theorem setStatus_crcCnt : (setStatus op pfx k s).crcCnt = s.crcCnt := rfl
@[simp] theorem setStatus_sfxBcdDfu : (setStatus op pfx k s).sfxBcdDfu = s.sfxBcdDfu := rfl
@[simp] theorem setStatus_sfxIdVendor : (setStatus op pfx k s).sfxIdVendor = s.sfxIdVendor := rfl
@[simp] theorem setStatus_sfxIdProduct : (setStatus op pfx k s).sfxIdProduct = s.sfxIdProduct := rfl
@[simp] theorem setStatus_sfxBcdDevice : (setStatus op pfx k s).sfxBcdDevice = s.sfxBcdDevice := rfl
@[simp] theorem setStatus_sfxExtraLen : (setStatus op pfx k s).sfxExtraLen = s.sfxExtraLen := rfl
@[simp] theorem setStatus_sfxCrc : (setStatus op pfx k s).sfxCrc = s.sfxCrc := rfl
@[simp] theorem setStatus_recCount : (setStatus op pfx k s).recCount = s.recCount := rfl
@[simp] theorem setStatus_tlvAlign : (setStatus op pfx k s).tlvAlign = s.tlvAlign := rfl
@[simp] theorem setStatus_buf : (setStatus op pfx k s).buf = s.buf := rfl
@[simp] theorem setStatus_extra : (setStatus op pfx k s).extra = s.extra := rfl
@[simp] theorem setStatus_recOff : (setStatus op pfx k s).recOff = s.recOff := rfl
@[simp] theorem setStatus_recHead : (setStatus op pfx k s).recHead = s.recHead := rfl
@[simp] theorem setStatus_val : (setStatus op pfx k s).val = s.val := rfl
@[simp] theorem setStatus_script : (setStatus op pfx k s).script = s.script := rfl
@[simp] theorem setStatus_readback : (setStatus op pfx k s).readback = s.readback := rfl

end

/-! ## `appendImage`: only BUF and `BUF_LEN` change -/

section
variable (bs : List Byte) (s : State)

@[simp] theorem appendImage_cfg : (appendImage bs s).cfg = s.cfg := rfl
@[simp] theorem appendImage_status : (appendImage bs s).status = s.status := rfl
@[simp] theorem appendImage_bufLen : (appendImage bs s).bufLen =
    BitVec.ofNat 32 (s.bufLen.toNat + bs.length) := rfl
@[simp] theorem appendImage_crcAcc : (appendImage bs s).crcAcc = s.crcAcc := rfl
@[simp] theorem appendImage_crcOff : (appendImage bs s).crcOff = s.crcOff := rfl
@[simp] theorem appendImage_crcCnt : (appendImage bs s).crcCnt = s.crcCnt := rfl
@[simp] theorem appendImage_sfxBcdDfu : (appendImage bs s).sfxBcdDfu = s.sfxBcdDfu := rfl
@[simp] theorem appendImage_sfxIdVendor : (appendImage bs s).sfxIdVendor = s.sfxIdVendor := rfl
@[simp] theorem appendImage_sfxIdProduct : (appendImage bs s).sfxIdProduct = s.sfxIdProduct := rfl
@[simp] theorem appendImage_sfxBcdDevice : (appendImage bs s).sfxBcdDevice = s.sfxBcdDevice := rfl
@[simp] theorem appendImage_sfxExtraLen : (appendImage bs s).sfxExtraLen = s.sfxExtraLen := rfl
@[simp] theorem appendImage_sfxCrc : (appendImage bs s).sfxCrc = s.sfxCrc := rfl
@[simp] theorem appendImage_recCount : (appendImage bs s).recCount = s.recCount := rfl
@[simp] theorem appendImage_tlvAlign : (appendImage bs s).tlvAlign = s.tlvAlign := rfl
@[simp] theorem appendImage_buf : (appendImage bs s).buf = writeCells s.buf s.bufLen.toNat bs := rfl
@[simp] theorem appendImage_extra : (appendImage bs s).extra = s.extra := rfl
@[simp] theorem appendImage_recOff : (appendImage bs s).recOff = s.recOff := rfl
@[simp] theorem appendImage_recHead : (appendImage bs s).recHead = s.recHead := rfl
@[simp] theorem appendImage_val : (appendImage bs s).val = s.val := rfl
@[simp] theorem appendImage_script : (appendImage bs s).script = s.script := rfl
@[simp] theorem appendImage_readback : (appendImage bs s).readback = s.readback := rfl

end

/-! ## `writeBank`: only the suffix bank changes -/

section
variable (x : Suffix) (s : State)

@[simp] theorem writeBank_cfg : (writeBank x s).cfg = s.cfg := rfl
@[simp] theorem writeBank_status : (writeBank x s).status = s.status := rfl
@[simp] theorem writeBank_bufLen : (writeBank x s).bufLen = s.bufLen := rfl
@[simp] theorem writeBank_crcAcc : (writeBank x s).crcAcc = s.crcAcc := rfl
@[simp] theorem writeBank_crcOff : (writeBank x s).crcOff = s.crcOff := rfl
@[simp] theorem writeBank_crcCnt : (writeBank x s).crcCnt = s.crcCnt := rfl
@[simp] theorem writeBank_sfxBcdDfu : (writeBank x s).sfxBcdDfu = x.bcdDfu := rfl
@[simp] theorem writeBank_sfxIdVendor : (writeBank x s).sfxIdVendor = x.idVendor := rfl
@[simp] theorem writeBank_sfxIdProduct : (writeBank x s).sfxIdProduct = x.idProduct := rfl
@[simp] theorem writeBank_sfxBcdDevice : (writeBank x s).sfxBcdDevice = x.bcdDevice := rfl
@[simp] theorem writeBank_sfxExtraLen : (writeBank x s).sfxExtraLen = BitVec.ofNat 8 x.extra.length := rfl
@[simp] theorem writeBank_sfxCrc : (writeBank x s).sfxCrc = x.crc := rfl
@[simp] theorem writeBank_recCount : (writeBank x s).recCount = s.recCount := rfl
@[simp] theorem writeBank_tlvAlign : (writeBank x s).tlvAlign = s.tlvAlign := rfl
@[simp] theorem writeBank_buf : (writeBank x s).buf = s.buf := rfl
@[simp] theorem writeBank_extra : (writeBank x s).extra = writeCells s.extra 0 x.extra := rfl
@[simp] theorem writeBank_recOff : (writeBank x s).recOff = s.recOff := rfl
@[simp] theorem writeBank_recHead : (writeBank x s).recHead = s.recHead := rfl
@[simp] theorem writeBank_val : (writeBank x s).val = s.val := rfl
@[simp] theorem writeBank_script : (writeBank x s).script = s.script := rfl
@[simp] theorem writeBank_readback : (writeBank x s).readback = s.readback := rfl

end

/-! ## `report`: only what the host has read changes -/

section
variable (v : ReadValue) (s : State)

@[simp] theorem report_cfg : (report v s).cfg = s.cfg := rfl
@[simp] theorem report_status : (report v s).status = s.status := rfl
@[simp] theorem report_bufLen : (report v s).bufLen = s.bufLen := rfl
@[simp] theorem report_crcAcc : (report v s).crcAcc = s.crcAcc := rfl
@[simp] theorem report_crcOff : (report v s).crcOff = s.crcOff := rfl
@[simp] theorem report_crcCnt : (report v s).crcCnt = s.crcCnt := rfl
@[simp] theorem report_sfxBcdDfu : (report v s).sfxBcdDfu = s.sfxBcdDfu := rfl
@[simp] theorem report_sfxIdVendor : (report v s).sfxIdVendor = s.sfxIdVendor := rfl
@[simp] theorem report_sfxIdProduct : (report v s).sfxIdProduct = s.sfxIdProduct := rfl
@[simp] theorem report_sfxBcdDevice : (report v s).sfxBcdDevice = s.sfxBcdDevice := rfl
@[simp] theorem report_sfxExtraLen : (report v s).sfxExtraLen = s.sfxExtraLen := rfl
@[simp] theorem report_sfxCrc : (report v s).sfxCrc = s.sfxCrc := rfl
@[simp] theorem report_recCount : (report v s).recCount = s.recCount := rfl
@[simp] theorem report_tlvAlign : (report v s).tlvAlign = s.tlvAlign := rfl
@[simp] theorem report_buf : (report v s).buf = s.buf := rfl
@[simp] theorem report_extra : (report v s).extra = s.extra := rfl
@[simp] theorem report_recOff : (report v s).recOff = s.recOff := rfl
@[simp] theorem report_recHead : (report v s).recHead = s.recHead := rfl
@[simp] theorem report_val : (report v s).val = s.val := rfl
@[simp] theorem report_script : (report v s).script = s.script := rfl
@[simp] theorem report_readback : (report v s).readback = s.readback ++ [v] := rfl

end

/-! ## `writeRecords` and `writeRecordObject`: only the record object changes -/

section
variable (rs : List Record)

@[simp] theorem writeRecords_cfg (i voff : Nat) (s : State) : (writeRecords rs i voff s).cfg = s.cfg := by
  induction rs generalizing i voff s with
  | nil => rfl
  | cons r rs ih => rw [writeRecords, ih]

@[simp] theorem writeRecords_status (i voff : Nat) (s : State) : (writeRecords rs i voff s).status = s.status := by
  induction rs generalizing i voff s with
  | nil => rfl
  | cons r rs ih => rw [writeRecords, ih]

@[simp] theorem writeRecords_bufLen (i voff : Nat) (s : State) : (writeRecords rs i voff s).bufLen = s.bufLen := by
  induction rs generalizing i voff s with
  | nil => rfl
  | cons r rs ih => rw [writeRecords, ih]

@[simp] theorem writeRecords_crcAcc (i voff : Nat) (s : State) : (writeRecords rs i voff s).crcAcc = s.crcAcc := by
  induction rs generalizing i voff s with
  | nil => rfl
  | cons r rs ih => rw [writeRecords, ih]

@[simp] theorem writeRecords_crcOff (i voff : Nat) (s : State) : (writeRecords rs i voff s).crcOff = s.crcOff := by
  induction rs generalizing i voff s with
  | nil => rfl
  | cons r rs ih => rw [writeRecords, ih]

@[simp] theorem writeRecords_crcCnt (i voff : Nat) (s : State) : (writeRecords rs i voff s).crcCnt = s.crcCnt := by
  induction rs generalizing i voff s with
  | nil => rfl
  | cons r rs ih => rw [writeRecords, ih]

@[simp] theorem writeRecords_sfxBcdDfu (i voff : Nat) (s : State) : (writeRecords rs i voff s).sfxBcdDfu = s.sfxBcdDfu := by
  induction rs generalizing i voff s with
  | nil => rfl
  | cons r rs ih => rw [writeRecords, ih]

@[simp] theorem writeRecords_sfxIdVendor (i voff : Nat) (s : State) : (writeRecords rs i voff s).sfxIdVendor = s.sfxIdVendor := by
  induction rs generalizing i voff s with
  | nil => rfl
  | cons r rs ih => rw [writeRecords, ih]

@[simp] theorem writeRecords_sfxIdProduct (i voff : Nat) (s : State) : (writeRecords rs i voff s).sfxIdProduct = s.sfxIdProduct := by
  induction rs generalizing i voff s with
  | nil => rfl
  | cons r rs ih => rw [writeRecords, ih]

@[simp] theorem writeRecords_sfxBcdDevice (i voff : Nat) (s : State) : (writeRecords rs i voff s).sfxBcdDevice = s.sfxBcdDevice := by
  induction rs generalizing i voff s with
  | nil => rfl
  | cons r rs ih => rw [writeRecords, ih]

@[simp] theorem writeRecords_sfxExtraLen (i voff : Nat) (s : State) : (writeRecords rs i voff s).sfxExtraLen = s.sfxExtraLen := by
  induction rs generalizing i voff s with
  | nil => rfl
  | cons r rs ih => rw [writeRecords, ih]

@[simp] theorem writeRecords_sfxCrc (i voff : Nat) (s : State) : (writeRecords rs i voff s).sfxCrc = s.sfxCrc := by
  induction rs generalizing i voff s with
  | nil => rfl
  | cons r rs ih => rw [writeRecords, ih]

@[simp] theorem writeRecords_recCount (i voff : Nat) (s : State) : (writeRecords rs i voff s).recCount = s.recCount := by
  induction rs generalizing i voff s with
  | nil => rfl
  | cons r rs ih => rw [writeRecords, ih]

@[simp] theorem writeRecords_tlvAlign (i voff : Nat) (s : State) : (writeRecords rs i voff s).tlvAlign = s.tlvAlign := by
  induction rs generalizing i voff s with
  | nil => rfl
  | cons r rs ih => rw [writeRecords, ih]

@[simp] theorem writeRecords_buf (i voff : Nat) (s : State) : (writeRecords rs i voff s).buf = s.buf := by
  induction rs generalizing i voff s with
  | nil => rfl
  | cons r rs ih => rw [writeRecords, ih]

@[simp] theorem writeRecords_extra (i voff : Nat) (s : State) : (writeRecords rs i voff s).extra = s.extra := by
  induction rs generalizing i voff s with
  | nil => rfl
  | cons r rs ih => rw [writeRecords, ih]

@[simp] theorem writeRecords_script (i voff : Nat) (s : State) : (writeRecords rs i voff s).script = s.script := by
  induction rs generalizing i voff s with
  | nil => rfl
  | cons r rs ih => rw [writeRecords, ih]

@[simp] theorem writeRecords_readback (i voff : Nat) (s : State) : (writeRecords rs i voff s).readback = s.readback := by
  induction rs generalizing i voff s with
  | nil => rfl
  | cons r rs ih => rw [writeRecords, ih]

@[simp] theorem writeRecordObject_cfg (s : State) : (writeRecordObject rs s).cfg = s.cfg := by
  simp [writeRecordObject]

@[simp] theorem writeRecordObject_status (s : State) : (writeRecordObject rs s).status = s.status := by
  simp [writeRecordObject]

@[simp] theorem writeRecordObject_bufLen (s : State) : (writeRecordObject rs s).bufLen = s.bufLen := by
  simp [writeRecordObject]

@[simp] theorem writeRecordObject_crcAcc (s : State) : (writeRecordObject rs s).crcAcc = s.crcAcc := by
  simp [writeRecordObject]

@[simp] theorem writeRecordObject_crcOff (s : State) : (writeRecordObject rs s).crcOff = s.crcOff := by
  simp [writeRecordObject]

@[simp] theorem writeRecordObject_crcCnt (s : State) : (writeRecordObject rs s).crcCnt = s.crcCnt := by
  simp [writeRecordObject]

@[simp] theorem writeRecordObject_sfxBcdDfu (s : State) : (writeRecordObject rs s).sfxBcdDfu = s.sfxBcdDfu := by
  simp [writeRecordObject]

@[simp] theorem writeRecordObject_sfxIdVendor (s : State) : (writeRecordObject rs s).sfxIdVendor = s.sfxIdVendor := by
  simp [writeRecordObject]

@[simp] theorem writeRecordObject_sfxIdProduct (s : State) : (writeRecordObject rs s).sfxIdProduct = s.sfxIdProduct := by
  simp [writeRecordObject]

@[simp] theorem writeRecordObject_sfxBcdDevice (s : State) : (writeRecordObject rs s).sfxBcdDevice = s.sfxBcdDevice := by
  simp [writeRecordObject]

@[simp] theorem writeRecordObject_sfxExtraLen (s : State) : (writeRecordObject rs s).sfxExtraLen = s.sfxExtraLen := by
  simp [writeRecordObject]

@[simp] theorem writeRecordObject_sfxCrc (s : State) : (writeRecordObject rs s).sfxCrc = s.sfxCrc := by
  simp [writeRecordObject]

@[simp] theorem writeRecordObject_recCount (s : State) :
    (writeRecordObject rs s).recCount = BitVec.ofNat 32 rs.length := rfl

@[simp] theorem writeRecordObject_tlvAlign (s : State) : (writeRecordObject rs s).tlvAlign = s.tlvAlign := by
  simp [writeRecordObject]

@[simp] theorem writeRecordObject_buf (s : State) : (writeRecordObject rs s).buf = s.buf := by
  simp [writeRecordObject]

@[simp] theorem writeRecordObject_extra (s : State) : (writeRecordObject rs s).extra = s.extra := by
  simp [writeRecordObject]

@[simp] theorem writeRecordObject_recOff (s : State) :
    (writeRecordObject rs s).recOff = (writeRecords rs 0 0 s).recOff := rfl

@[simp] theorem writeRecordObject_recHead (s : State) :
    (writeRecordObject rs s).recHead = (writeRecords rs 0 0 s).recHead := rfl

@[simp] theorem writeRecordObject_val (s : State) :
    (writeRecordObject rs s).val = (writeRecords rs 0 0 s).val := rfl

@[simp] theorem writeRecordObject_script (s : State) : (writeRecordObject rs s).script = s.script := by
  simp [writeRecordObject]

@[simp] theorem writeRecordObject_readback (s : State) : (writeRecordObject rs s).readback = s.readback := by
  simp [writeRecordObject]

end

end Sys2Proof.Machine
end

