-- ==== Sys2Proof/Laws/Records.lean ====
section
/-! SUPPORT. What the record object holds after a parsed list is written to it (42_tlv rules R143, R145). -/

namespace Sys2Proof.Machine

@[simp] theorem valueTotal_nil : valueTotal [] = 0 := rfl

@[simp] theorem valueTotal_cons (r : Record) (rs : List Record) :
    valueTotal (r :: rs) = r.value.length + valueTotal rs := by simp [valueTotal]

theorem valueTotal_take_add (rs : List Record) {i : Nat} (h : i < rs.length) :
    valueTotal (rs.take (i + 1)) = valueTotal (rs.take i) + rs[i].value.length := by
  induction rs generalizing i with
  | nil => simp at h
  | cons r rs ih =>
    cases i with
    | zero => simp
    | succ i =>
      have := ih (i := i) (by simpa using h)
      simp [this]; omega

theorem valueTotal_take_le (rs : List Record) (i : Nat) : valueTotal (rs.take i) ≤ valueTotal rs := by
  induction rs generalizing i with
  | nil => simp
  | cons r rs ih =>
    cases i with
    | zero => simp
    | succ i => simp [ih i]

/-- The heads written: entry `i + j` describes record `j`, every other entry is kept. -/
theorem readCell_writeRecords_recHead (rs : List Record) (i voff j : Nat) (s : State) :
    readCell (writeRecords rs i voff s).recHead j =
      if h : i ≤ j ∧ j < i + rs.length then
        some ⟨(rs[j - i]'(by omega)).tag, BitVec.ofNat 8 (rs[j - i]'(by omega)).value.length⟩
      else readCell s.recHead j := by
  induction rs generalizing i voff s with
  | nil => simp [writeRecords]
  | cons r rs ih =>
    rw [writeRecords, ih]
    by_cases hj : j = i
    · subst hj; simp
    · by_cases h : i + 1 ≤ j ∧ j < i + 1 + rs.length
      · obtain ⟨k, rfl⟩ : ∃ k, j = i + 1 + k := ⟨j - (i + 1), by omega⟩
        rw [dif_pos h, dif_pos (by simp; omega)]
        simp [show i + 1 + k - i = k + 1 by omega]
      · rw [dif_neg h, dif_neg (by simp; omega)]
        exact readCell_writeCell_other hj

/-- The offsets written: back to back from `voff`, every other entry is kept. -/
theorem readCell_writeRecords_recOff (rs : List Record) (i voff j : Nat) (s : State) :
    readCell (writeRecords rs i voff s).recOff j =
      if i ≤ j ∧ j < i + rs.length then some (BitVec.ofNat 32 (voff + valueTotal (rs.take (j - i))))
      else readCell s.recOff j := by
  induction rs generalizing i voff s with
  | nil => simp [writeRecords]
  | cons r rs ih =>
    rw [writeRecords, ih]
    by_cases hj : j = i
    · subst hj; simp
    · by_cases h : i + 1 ≤ j ∧ j < i + 1 + rs.length
      · obtain ⟨k, rfl⟩ : ∃ k, j = i + 1 + k := ⟨j - (i + 1), by omega⟩
        rw [if_pos h, if_pos (by simp; omega)]
        rw [show i + 1 + k - (i + 1) = k by omega, show i + 1 + k - i = k + 1 by omega, List.take_succ_cons,
          valueTotal_cons, Nat.add_assoc]
      · rw [if_neg h, if_neg (by simp; omega)]
        exact readCell_writeCell_other hj

/-- VAL outside the values written is kept. -/
theorem readCell_writeRecords_val_outside (rs : List Record) (i voff a : Nat) (s : State)
    (h : a < voff ∨ voff + valueTotal rs ≤ a) :
    readCell (writeRecords rs i voff s).val a = readCell s.val a := by
  induction rs generalizing i voff s with
  | nil => rfl
  | cons r rs ih =>
    simp only [valueTotal_cons] at h
    rw [writeRecords, ih _ _ _ (by omega)]
    exact readCell_writeCells_outside (by omega)

/-- The values written lie back to back from `voff`. -/
theorem readRange_writeRecords_val (rs : List Record) (i voff j : Nat) (s : State) (h : j < rs.length) :
    readRange (writeRecords rs i voff s).val (voff + valueTotal (rs.take j)) rs[j].value.length =
      some rs[j].value := by
  induction rs generalizing i voff j s with
  | nil => simp at h
  | cons r rs ih =>
    rw [writeRecords]
    cases j with
    | zero =>
      simp only [List.take_zero, valueTotal_nil, Nat.add_zero, List.getElem_cons_zero]
      rw [readRange_congr fun k hk => readCell_writeRecords_val_outside rs _ _ _ _ (.inl (by omega))]
      exact readRange_writeCells_same s.val voff r.value
    | succ j =>
      have := ih (i + 1) (voff + r.value.length) j
        { s with
          recOff := writeCell s.recOff i (BitVec.ofNat 32 voff)
          recHead := writeCell s.recHead i ⟨r.tag, BitVec.ofNat 8 r.value.length⟩
          val := writeCells s.val voff r.value } (by simpa using h)
      simpa [Nat.add_assoc] using this

theorem recordsFrom_eq_some {s : State} {i n : Nat} {rs : List Record} :
    recordsFrom s i n = some rs ↔ rs.length = n ∧ ∀ j, j < n → recordAt s (i + j) = rs[j]? := by
  induction n generalizing i rs with
  | zero => cases rs <;> simp [recordsFrom]
  | succ n ih =>
    rw [recordsFrom]
    constructor
    · intro h
      split at h
      · rename_i r rs' hr hrs
        cases h
        obtain ⟨hl, hj⟩ := ih.1 hrs
        refine ⟨by simp [hl], fun j hjn => ?_⟩
        cases j with
        | zero => simpa using hr
        | succ j => rw [show i + (j + 1) = i + 1 + j by omega, hj j (by omega)]; simp
      · cases h
    · rintro ⟨hl, hj⟩
      cases rs with
      | nil => simp at hl
      | cons r rs =>
        have h0 : recordAt s i = some r := by simpa using hj 0 (by omega)
        have hr : recordsFrom s (i + 1) n = some rs := ih.2 ⟨by simpa using hl, fun j hjn => by
          have := hj (j + 1) (by omega)
          rw [show i + (j + 1) = i + 1 + j by omega] at this; simpa using this⟩
        rw [h0, hr]

/-- The record object holds the list written to it, where it fits and every value has at most 255 bytes. -/
theorem records_writeRecordObject {s : State} {rs : List Record} (hmax : rs.length ≤ s.cfg.recMax)
    (hval : valueTotal rs ≤ s.cfg.valSize) (hlen : ∀ r ∈ rs, r.value.length ≤ 255) :
    records (writeRecordObject rs s) = some rs := by
  have hc : (BitVec.ofNat 32 rs.length).toNat = rs.length := by
    have := s.cfg.recMax_lt; simp; omega
  have hv := s.cfg.valSize_lt
  unfold records
  rw [writeRecordObject_recCount, writeRecordObject_cfg, hc, if_pos hmax, recordsFrom_eq_some]
  refine ⟨rfl, fun j hj => ?_⟩
  have htake := valueTotal_take_le rs j
  have hnext := valueTotal_take_le rs (j + 1)
  rw [valueTotal_take_add rs hj] at hnext
  have hl := hlen _ (List.getElem_mem hj)
  have ho : (BitVec.ofNat 32 (valueTotal (rs.take j))).toNat = valueTotal (rs.take j) := by simp; omega
  have he : (BitVec.ofNat 8 rs[j].value.length).toNat = rs[j].value.length := by simp; omega
  have hr := readRange_writeRecords_val rs 0 0 j s hj
  simp only [Nat.zero_add] at hr
  simp only [recordAt, writeRecordObject_recHead, writeRecordObject_recOff, writeRecordObject_cfg,
    writeRecordObject_val, readCell_writeRecords_recHead, readCell_writeRecords_recOff, Nat.zero_add,
    Nat.zero_le, true_and, Nat.sub_zero, hj, dif_pos, if_true, ho, he, hr]
  rw [if_pos (by omega)]
  simp [hj]

/-! ## Looking a tag up -/

/-- Entries with another tag are passed over, whatever else they hold. -/
theorem lookupFrom_skip {s : State} {t : Byte} {j : Nat} (i n : Nat)
    (h : ∀ k, k < j → ∃ head, readCell s.recHead (i + k) = some head ∧ head.tag ≠ t) :
    lookupFrom s t i (j + n) = lookupFrom s t (i + j) n := by
  induction j generalizing i with
  | zero => simp
  | succ j ih =>
    obtain ⟨head, hr, ht⟩ := h 0 (by omega)
    rw [show j + 1 + n = (j + n) + 1 by omega, lookupFrom, show readCell s.recHead i = some head from hr]
    simp only [ht, if_false]
    rw [ih (i + 1) fun k hk => by simpa [Nat.add_assoc, Nat.add_comm 1 k] using h (k + 1) (by omega)]
    congr 1
    omega

/-- At the first entry with the tag, or the first whose tag cannot be read, the lookup ends. -/
theorem lookupFrom_stop {s : State} {t : Byte} {j n : Nat} (i : Nat)
    (h : ∀ k, k < j → ∃ head, readCell s.recHead (i + k) = some head ∧ head.tag ≠ t) (hn : j < n) :
    (readCell s.recHead (i + j) = none → lookupFrom s t i n = .unreadable) ∧
      ∀ head, readCell s.recHead (i + j) = some head → head.tag = t →
        lookupFrom s t i n = (match recordAt s (i + j) with | some r => .found r.value | none => .unreadable) := by
  obtain ⟨n, rfl⟩ : ∃ m, n = j + (m + 1) := ⟨n - j - 1, by omega⟩
  rw [lookupFrom_skip i (n + 1) h, lookupFrom]
  exact ⟨fun hr => by rw [hr], fun head hr ht => by
    rw [hr]
    exact (if_pos ht).trans (by cases recordAt s (i + j) <;> rfl)⟩

end Sys2Proof.Machine
end

