-- ==== Sys2Proof/Laws/Commands.lean ====
section
/-! SUPPORT. One law per command's rule: when it goes on to its writes, and what they are. -/

namespace Sys2Proof.Machine

theorem signature_eq : signature = [0x55, 0x46, 0x44] := rfl

/-- A structurally sound end of an image has at least 16 bytes and a length byte between 16 and the image's length. -/
theorem structural_eq_true {buf : List Host.Cell} {n : Nat} (h : structural buf n = .ok true) :
    16 ≤ n ∧ readRange buf (n - 8) 3 = some signature ∧
      ∃ length, readCell buf (n - 5) = some length ∧ 16 ≤ length.toNat ∧ length.toNat ≤ n := by
  unfold structural at h
  split at h
  · simp at h
  · obtain ⟨sig, hsig, h⟩ := Cmd.bind_eq_ok.1 h
    obtain ⟨length, hlength, h⟩ := Cmd.bind_eq_ok.1 h
    simp only [Cmd.pure_eq, Except.ok.injEq, Bool.and_eq_true, beq_iff_eq, decide_eq_true_eq] at h
    exact ⟨by omega, h.1.1 ▸ readBytes_eq_ok.1 hsig, length, readByte_eq_ok.1 hlength, h.1.2, h.2⟩

/-- Where a Suffix was read: its `extra` lies before the 16 bytes at the image's end. -/
theorem readSuffix_eq_ok {buf : List Host.Cell} {n : Nat} {x : Suffix} (h : readSuffix buf n = .ok x) :
    ∃ length, readCell buf (n - 5) = some length ∧
      readRange buf (n - length.toNat) (length.toNat - 16) = some x.extra ∧
      x.extra.length = length.toNat - 16 ∧
      (∃ b0 b1 b2 b3 b4 b5 b6 b7 c0 c1 c2 c3, readRange buf (n - 16) 2 = some [b0, b1] ∧
        readRange buf (n - 14) 2 = some [b2, b3] ∧ readRange buf (n - 12) 2 = some [b4, b5] ∧
        readRange buf (n - 10) 2 = some [b6, b7] ∧ readRange buf (n - 4) 4 = some [c0, c1, c2, c3]) := by
  unfold readSuffix readHalf readWord at h
  simp only [Cmd.bind_eq_ok, readByte_eq_ok, readBytes_eq_ok, Cmd.pure_eq, Except.ok.injEq] at h
  obtain ⟨length, hl, _, ⟨b0, h0, b1, h1, -⟩, _, ⟨b2, h2, b3, h3, -⟩, _, ⟨b4, h4, b5, h5, -⟩, _,
    ⟨b6, h6, b7, h7, -⟩, extra, hx, _, ⟨c0, k0, c1, k1, c2, k2, c3, k3, -⟩, rfl⟩ := h
  refine ⟨length, hl, hx, readRange_length hx, b0, b1, b2, b3, b4, b5, b6, b7, c0, c1, c2, c3, ?_⟩
  simp [readRange, h0, h1, h2, h3, h4, h5, h6, h7, k0, k1, k2, k3]

/-- What a successful parse says of the image: its bounds, and that its trailer fits in it. -/
theorem parseSuffix_eq_ok {v : Bool} {s : State} {x : Suffix} (h : parseSuffix v s = .ok x) :
    s.bufLen.toNat ≤ s.cfg.bufSize ∧ x.size ≤ s.bufLen.toNat ∧ x.extra.length ≤ extraMax ∧
      structural s.buf s.bufLen.toNat = .ok true ∧ readSuffix s.buf s.bufLen.toNat = .ok x ∧
      (v = true → ∃ body, readRange s.buf 0 (s.bufLen.toNat - x.size) = some body ∧
        trailerCrc s.cfg body x.block = x.crc) := by
  unfold parseSuffix at h
  obtain ⟨_, hb, h⟩ := Cmd.bind_eq_ok.1 h
  obtain ⟨sound, hs, h⟩ := Cmd.bind_eq_ok.1 h
  obtain ⟨_, hsound, h⟩ := Cmd.bind_eq_ok.1 h
  rw [require_eq_ok] at hsound
  rw [hsound] at hs
  obtain ⟨y, hy, h⟩ := Cmd.bind_eq_ok.1 h
  have hyx : y = x ∧ (v = true → ∃ body, readRange s.buf 0 (s.bufLen.toNat - y.size) = some body ∧
      trailerCrc s.cfg body y.block = y.crc) := by
    cases v
    · simpa using h
    · simp only [if_true, Cmd.bind_eq_ok, readBytes_eq_ok, require_eq_ok, Cmd.pure_eq, Except.ok.injEq] at h
      obtain ⟨body, hbody, _, hc, rfl⟩ := h
      exact ⟨rfl, fun _ => ⟨body, hbody, hc⟩⟩
  obtain ⟨rfl, hv⟩ := hyx
  obtain ⟨h16, -, length, hl, hge, hle⟩ := structural_eq_true hs
  obtain ⟨length', hl', -, hx, -⟩ := readSuffix_eq_ok hy
  obtain rfl : length = length' := Option.some.inj (hl.symm.trans hl')
  have := length.isLt
  refine ⟨require_eq_ok.1 hb, ?_, ?_, hs, hy, hv⟩ <;> simp only [Suffix.size, extraMax] <;> omega

/-- A verified image is written throughout. -/
theorem parseSuffix_true_image {s : State} {x : Suffix} (h : parseSuffix true s = .ok x) :
    ∃ img, image s = some img ∧ structuralImg img = true ∧ x = suffixOf img ∧
      trailerCrc s.cfg (bodyOf img) (suffixOf img).block = (suffixOf img).crc := by
  obtain ⟨hb, -, -, hs, hx, hv⟩ := parseSuffix_eq_ok h
  obtain ⟨body, hbody, -⟩ := hv rfl
  obtain ⟨h16, hsig, length, hl, hge, hle⟩ := structural_eq_true hs
  obtain ⟨length', hl', hextra, hxl, b0, b1, b2, b3, b4, b5, b6, b7, c0, c1, c2, c3, r1, r2, r3, r4, r5⟩ :=
    readSuffix_eq_ok hx
  obtain rfl : length = length' := Option.some.inj (hl.symm.trans hl')
  have hsize : x.size = length.toNat := by simp only [Suffix.size]; omega
  have r0 : readRange s.buf (s.bufLen.toNat - 5) 1 = some [length] := by simp [readRange, hl]
  generalize hn : s.bufLen.toNat = n at *
  have j1 := readRange_append hbody (k := length.toNat - 16) (by rw [hsize, Nat.zero_add]; exact hextra)
  have j2 := readRange_append j1 (k := 2) (by rw [show 0 + (n - x.size + (length.toNat - 16)) = n - 16 by omega]; exact r1)
  have j3 := readRange_append j2 (k := 2) (by
    rw [show 0 + (n - x.size + (length.toNat - 16) + 2) = n - 14 by omega]; exact r2)
  have j4 := readRange_append j3 (k := 2) (by
    rw [show 0 + (n - x.size + (length.toNat - 16) + 2 + 2) = n - 12 by omega]; exact r3)
  have j5 := readRange_append j4 (k := 2) (by
    rw [show 0 + (n - x.size + (length.toNat - 16) + 2 + 2 + 2) = n - 10 by omega]; exact r4)
  have j6 := readRange_append j5 (k := 3) (by
    rw [show 0 + (n - x.size + (length.toNat - 16) + 2 + 2 + 2 + 2) = n - 8 by omega]; exact hsig)
  have j7 := readRange_append j6 (k := 1) (by
    rw [show 0 + (n - x.size + (length.toNat - 16) + 2 + 2 + 2 + 2 + 3) = n - 5 by omega]; exact r0)
  have j8 := readRange_append j7 (k := 4) (by
    rw [show 0 + (n - x.size + (length.toNat - 16) + 2 + 2 + 2 + 2 + 3 + 1) = n - 4 by omega]; exact r5)
  rw [show n - x.size + (length.toNat - 16) + 2 + 2 + 2 + 2 + 3 + 1 + 4 = n by omega] at j8
  have himg := image_eq_some.2 ⟨hn ▸ hb, hn ▸ j8⟩
  refine ⟨_, himg, ?_⟩
  have hp := parseSuffix_of_image himg true
  rw [h] at hp
  split at hp
  · rename_i hverdict
    simp only [trailerVerdict] at hverdict
    split at hverdict
    · cases hverdict
    · rename_i hst
      split at hverdict
      · cases hverdict
      · rename_i hc
        simp only [true_and, not_not] at hc
        exact ⟨by simpa using hst, Except.ok.inj hp, hc⟩
  · cases hp

/-- When CRC_COMPUTE writes, and what (40_crc rule R96). -/
theorem crcComputeEffect_eq_ok {s t : State} :
    crcComputeEffect s = .ok t ↔
      s.bufLen.toNat ≤ s.cfg.bufSize ∧ s.crcOff.toNat + s.crcCnt.toNat ≤ s.bufLen.toNat ∧
        ∃ bytes, readRange s.buf s.crcOff.toNat s.crcCnt.toNat = some bytes ∧
          t = { s with crcAcc := crc s.cfg bytes s.crcAcc } := by
  simp [crcComputeEffect, Cmd.bind_eq_ok, @eq_comm _ t]

/-- When SFX_SERIALIZE writes, and what (41_suffix rule R124). -/
theorem sfxSerializeEffect_eq_ok {s t : State} :
    sfxSerializeEffect s = .ok t ↔
      s.bufLen.toNat ≤ s.cfg.bufSize ∧ s.sfxExtraLen.toNat ≤ extraMax ∧
        s.bufLen.toNat + s.sfxExtraLen.toNat + 16 ≤ s.cfg.bufSize ∧
        ∃ body extra c, readRange s.buf 0 s.bufLen.toNat = some body ∧
          readRange s.extra 0 s.sfxExtraLen.toNat = some extra ∧
          c = trailerCrc s.cfg body
            (fieldBlock s.sfxBcdDevice s.sfxIdProduct s.sfxIdVendor s.sfxBcdDfu extra) ∧
          t = { appendImage (trailer s.sfxBcdDevice s.sfxIdProduct s.sfxIdVendor s.sfxBcdDfu extra c) s with
            sfxCrc := c } := by
  simp [sfxSerializeEffect, Cmd.bind_eq_ok, trailer, @eq_comm _ t]

/-- When OP_ADD writes, and what (43_workflow rule R172). -/
theorem opAddEffect_eq_ok {force : Bool} {s t : State} :
    opAddEffect force s = .ok t ↔
      s.bufLen.toNat ≤ s.cfg.bufSize ∧ (force = true ∨ structural s.buf s.bufLen.toNat = .ok false) ∧
        s.bufLen.toNat + 16 ≤ s.cfg.bufSize ∧
        ∃ body c, readRange s.buf 0 s.bufLen.toNat = some body ∧
          c = trailerCrc s.cfg body (fieldBlock s.sfxBcdDevice s.sfxIdProduct s.sfxIdVendor bcdDfuFixed []) ∧
          t = { appendImage (trailer s.sfxBcdDevice s.sfxIdProduct s.sfxIdVendor bcdDfuFixed [] c) s with
            sfxBcdDfu := bcdDfuFixed, sfxExtraLen := 0, sfxCrc := c } := by
  cases force <;> simp [opAddEffect, Cmd.bind_eq_ok, trailer, @eq_comm _ t]

/-! ## The entries and values TLV_SERIALIZE reads (42_tlv rule R152) -/

theorem encodeList_length (rs : List Record) :
    (encodeList rs).length = valueTotal rs + 2 * rs.length + 2 := by
  induction rs with
  | nil => rfl
  | cons r rs ih => simp [encodeList, encodeRecord, ih]; omega

/-- The entries go on exactly when every one is written and legal. -/
theorem checkEntries_eq_ok {s : State} {i n : Nat} {ds : List Descriptor} :
    checkEntries s i n = .ok ds ↔
      ds.length = n ∧ ∀ j, (h : j < ds.length) →
        readCell s.recHead (i + j) = some ⟨ds[j].tag, ds[j].len⟩ ∧ readCell s.recOff (i + j) = some ds[j].off ∧
          ds[j].tag ≠ 0 ∧ ds[j].len.toNat ≤ 254 ∧ ds[j].off.toNat + ds[j].len.toNat ≤ s.cfg.valSize := by
  induction n generalizing i ds with
  | zero => cases ds <;> simp [checkEntries]
  | succ n ih =>
    simp only [checkEntries, Cmd.bind_eq_ok, demand_eq_ok, require_eq_ok, Cmd.pure_eq, Except.ok.injEq]
    constructor
    · rintro ⟨h, hh, _, ht, _, hl, off, ho, _, hv, rest, hrest, rfl⟩
      obtain ⟨hlen, hj⟩ := ih.1 hrest
      refine ⟨by simp [hlen], fun j hjn => ?_⟩
      cases j with
      | zero => exact ⟨hh, ho, ht, hl, hv⟩
      | succ j =>
        have := hj j (by simpa using hjn)
        rwa [show i + 1 + j = i + (j + 1) by omega] at this
    · rintro ⟨hlen, hj⟩
      cases ds with
      | nil => simp at hlen
      | cons d ds =>
        obtain ⟨hh, ho, ht, hl, hv⟩ := hj 0 (by simp)
        refine ⟨⟨d.tag, d.len⟩, hh, ⟨⟩, ht, ⟨⟩, hl, d.off, ho, ⟨⟩, hv, ds, ih.2 ⟨by simpa using hlen, fun j hjn => ?_⟩, rfl⟩
        have := hj (j + 1) (by simpa using hjn)
        rw [show i + (j + 1) = i + 1 + j by omega] at this
        simpa using this

/-- The values read are the ranges the entries name. -/
theorem readValues_eq_ok {val : List Host.Cell} {ds : List Descriptor} {rs : List Record} :
    readValues val ds = .ok rs ↔
      rs.length = ds.length ∧ ∀ j, (h : j < ds.length) → (h' : j < rs.length) →
        rs[j].tag = ds[j].tag ∧ readRange val ds[j].off.toNat ds[j].len.toNat = some rs[j].value := by
  induction ds generalizing rs with
  | nil => cases rs <;> simp [readValues]
  | cons d ds ih =>
    simp only [readValues, Cmd.bind_eq_ok, readBytes_eq_ok, Cmd.pure_eq, Except.ok.injEq]
    constructor
    · rintro ⟨value, hv, rest, hrest, rfl⟩
      obtain ⟨hlen, hj⟩ := ih.1 hrest
      refine ⟨by simp [hlen], fun j h h' => ?_⟩
      cases j with
      | zero => exact ⟨rfl, hv⟩
      | succ j => exact hj j (by simpa using h) (by simpa using h')
    · rintro ⟨hlen, hj⟩
      cases rs with
      | nil => simp at hlen
      | cons r rs =>
        obtain ⟨ht, hv⟩ := hj 0 (by simp) (by simp)
        simp only [List.getElem_cons_zero] at ht hv
        refine ⟨r.value, hv, rs, ih.2 ⟨by simpa using hlen, fun j h h' => ?_⟩, by rw [← ht]⟩
        have := hj (j + 1) (by simpa using h) (by simpa using h')
        simpa only [List.getElem_cons_succ] using this

/-- The stream's length, from the entries alone, is the length of what is written (30_encoding rule R74). -/
theorem listLength_eq {val : List Host.Cell} {ds : List Descriptor} {rs : List Record}
    (h : readValues val ds = .ok rs) : listLength ds = (encodeList rs).length := by
  induction ds generalizing rs with
  | nil =>
    cases rs with
    | nil => rfl
    | cons r rs => simp [readValues] at h
  | cons d ds ih =>
    simp only [readValues, Cmd.bind_eq_ok, readBytes_eq_ok, Cmd.pure_eq, Except.ok.injEq] at h
    obtain ⟨value, hv, rest, hrest, rfl⟩ := h
    have := readRange_length hv
    simp [listLength, encodeList, encodeRecord, ih hrest, this]
    omega

/-- When TLV_SERIALIZE writes, and what (42_tlv rule R152). -/
theorem tlvSerializeEffect_eq_ok {s t : State} :
    tlvSerializeEffect s = .ok t ↔
      s.bufLen.toNat ≤ s.cfg.bufSize ∧ s.recCount.toNat ≤ s.cfg.recMax ∧
        ∃ ds rs, checkEntries s 0 s.recCount.toNat = .ok ds ∧ readValues s.val ds = .ok rs ∧
          s.bufLen.toNat + (encodeTlv rs s.tlvAlign.toNat).length ≤ s.cfg.bufSize ∧
          t = appendImage (encodeTlv rs s.tlvAlign.toNat) s := by
  simp only [tlvSerializeEffect, Cmd.bind_eq_ok, require_eq_ok, Cmd.pure_eq, Except.ok.injEq]
  constructor
  · rintro ⟨_, hb, _, hm, ds, hds, _, hsp, rs, hrs, rfl⟩
    refine ⟨hb, hm, ds, rs, hds, hrs, ?_, rfl⟩
    rw [listLength_eq hrs] at hsp
    simpa [encodeTlv] using hsp
  · rintro ⟨hb, hm, ds, rs, hds, hrs, hsp, rfl⟩
    refine ⟨⟨⟩, hb, ⟨⟩, hm, ds, hds, ⟨⟩, ?_, rs, hrs, rfl⟩
    rw [listLength_eq hrs]
    simpa [encodeTlv] using hsp

/-- `Records()` and the entries TLV_SERIALIZE reads are the same list. -/
theorem records_eq_of_entries {s : State} {ds : List Descriptor} {rs : List Record}
    (hm : s.recCount.toNat ≤ s.cfg.recMax) (hds : checkEntries s 0 s.recCount.toNat = .ok ds)
    (hrs : readValues s.val ds = .ok rs) : records s = some rs ∧ ∀ r ∈ rs, r.legal := by
  obtain ⟨hlen, hj⟩ := checkEntries_eq_ok.1 hds
  obtain ⟨hlen', hv⟩ := readValues_eq_ok.1 hrs
  refine ⟨?_, fun r hr => ?_⟩
  · rw [records, if_pos hm, recordsFrom_eq_some]
    refine ⟨by omega, fun j hjn => ?_⟩
    obtain ⟨hh, ho, -, -, hsz⟩ := hj j (by omega)
    obtain ⟨ht, hval⟩ := hv j (by omega) (by omega)
    simp only [recordAt, hh, ho, hsz, if_true, hval]
    rw [List.getElem?_eq_getElem (by omega)]
    rw [← ht]
  · obtain ⟨j, hjn, rfl⟩ := List.getElem_of_mem hr
    obtain ⟨-, -, ht0, hl, -⟩ := hj j (by omega)
    obtain ⟨ht, hval⟩ := hv j (by omega) hjn
    have := readRange_length hval
    exact ⟨ht ▸ ht0, by omega⟩

/-- The entries and values of `Records()`, where every record is legal, are what TLV_SERIALIZE reads. -/
theorem entries_of_records {s : State} {rs : List Record} (h : records s = some rs) (hleg : ∀ r ∈ rs, r.legal) :
    s.recCount.toNat ≤ s.cfg.recMax ∧
      ∃ ds, checkEntries s 0 s.recCount.toNat = .ok ds ∧ readValues s.val ds = .ok rs := by
  unfold records at h
  split at h
  · rename_i hm
    refine ⟨hm, ?_⟩
    generalize s.recCount.toNat = n at h
    generalize 0 = i at h ⊢
    clear hm
    induction n generalizing i rs with
    | zero =>
      simp only [recordsFrom, Option.some.injEq] at h
      subst h
      exact ⟨[], rfl, rfl⟩
    | succ n ih =>
      rw [recordsFrom] at h
      split at h
      · rename_i r rs' hr hrs
        cases h
        obtain ⟨ds, hds, hvs⟩ := ih (fun q hq => hleg q (List.mem_cons_of_mem _ hq)) (i + 1) hrs
        obtain ⟨htag, hlen⟩ := hleg r List.mem_cons_self
        unfold recordAt at hr
        split at hr
        · rename_i hd off hh ho
          split at hr
          · rename_i hsz
            split at hr
            · rename_i value hval
              cases hr
              have hvl := readRange_length hval
              refine ⟨⟨hd.tag, hd.len, off⟩ :: ds, ?_, ?_⟩
              · simp only [checkEntries, Cmd.bind_eq_ok, demand_eq_ok, require_eq_ok, Cmd.pure_eq]
                exact ⟨hd, hh, ⟨⟩, htag, ⟨⟩, by simp only at hlen; omega, off, ho, ⟨⟩, hsz, ds, hds, rfl⟩
              · simp only [readValues, Cmd.bind_eq_ok, readBytes_eq_ok, Cmd.pure_eq]
                exact ⟨value, hval, rs', hvs, rfl⟩
            · cases hr
          · cases hr
        · cases hr
      · cases h
  · cases h

end Sys2Proof.Machine
end

