-- ==== Sys2Proof/Laws/Invariant.lean ====
section
/-! SUPPORT. Every named write keeps the memories in canonical form and inside their spaces, and reset has that form. -/

namespace Sys2Proof.Machine

theorem memoryWf_resetIn (c : Config) : (State.resetIn c).memoryWf :=
  ⟨Memory.wf_nil _, Memory.wf_nil _, Memory.wf_nil _, Memory.wf_nil _, Memory.wf_nil _⟩

/-- The state after reset has its memories in canonical form. -/
theorem memoryWf_reset : State.reset.memoryWf := memoryWf_resetIn standardConfig

theorem memoryWf_setStatus {s : State} (h : s.memoryWf) (op : Byte) (pfx : Bool) (k : ErrKind) :
    (setStatus op pfx k s).memoryWf := h

theorem memoryWf_report {s : State} (h : s.memoryWf) (v : ReadValue) : (report v s).memoryWf := h

theorem memoryWf_appendImage {s : State} (h : s.memoryWf) {bs : List Byte}
    (hb : s.bufLen.toNat + bs.length ≤ s.cfg.bufSize) : (appendImage bs s).memoryWf :=
  ⟨Memory.wf_writeCells h.1 hb, h.2⟩

theorem memoryWf_writeBank {s : State} (h : s.memoryWf) {x : Suffix} (hx : x.extra.length ≤ extraMax) :
    (writeBank x s).memoryWf :=
  ⟨h.1, Memory.wf_writeCells h.2.1 (by omega), h.2.2⟩

theorem memoryWf_writeRecords {s : State} (h : s.memoryWf) {rs : List Record} {i voff : Nat}
    (hi : i + rs.length ≤ s.cfg.recMax) (hv : voff + valueTotal rs ≤ s.cfg.valSize) :
    (writeRecords rs i voff s).memoryWf := by
  induction rs generalizing i voff s with
  | nil => exact h
  | cons r rs ih =>
    simp only [List.length_cons] at hi
    rw [valueTotal_cons] at hv
    obtain ⟨h1, h2, h3, h4, h5⟩ := h
    rw [writeRecords]
    apply ih
    · exact ⟨h1, h2, Memory.wf_writeCell h3 (by omega) _, Memory.wf_writeCell h4 (by omega) _,
        Memory.wf_writeCells h5 (by simp only; omega)⟩
    · simp only; omega
    · simp only; omega

/-- A list parsed from an image fits the record object of every admissible configuration (42_tlv rule R146). -/
theorem memoryWf_writeRecordObject {s : State} (h : s.memoryWf) {rs : List Record} {buf : List Host.Cell} {n : Nat}
    (hn : n ≤ s.cfg.bufSize) (hrs : parseTlv buf n = .ok rs) : (writeRecordObject rs s).memoryWf := by
  have hb := (scanTlv_eq_ok hrs).1
  have h1 := s.cfg.recMax_ge
  have h2 := s.cfg.valSize_ge
  exact memoryWf_writeRecords h (by omega) (by omega)

theorem memoryWf_writeReg {s : State} (h : s.memoryWf) (n : Nat) (v : Word) : (writeReg n v s).memoryWf := by
  unfold writeReg; split <;> exact h

theorem memoryWf_writeByte {s : State} (h : s.memoryWf) {m : ByteSpace} {i : Nat} (hi : i < m.size s.cfg) (b : Byte) :
    (writeByte m i b s).memoryWf := by
  obtain ⟨h1, h2, h3, h4, h5⟩ := h
  cases m
  · exact ⟨Memory.wf_writeCell h1 hi b, h2, h3, h4, h5⟩
  · exact ⟨h1, Memory.wf_writeCell h2 hi b, h3, h4, h5⟩
  · exact ⟨h1, h2, h3, h4, Memory.wf_writeCell h5 hi b⟩

theorem memoryWf_writeRecWord {s : State} (h : s.memoryWf) {j : Nat} (hj : j < 2 * s.cfg.recMax) (v : Word) :
    (writeRecWord j v s).memoryWf := by
  obtain ⟨h1, h2, h3, h4, h5⟩ := h
  unfold writeRecWord
  split
  · exact ⟨h1, h2, Memory.wf_writeCell h3 (by omega) v, h4, h5⟩
  · exact ⟨h1, h2, h3, Memory.wf_writeCell h4 (by omega) _, h5⟩

theorem memoryWf_platformReset (s : State) : (platformReset s).memoryWf := memoryWf_resetIn s.cfg

end Sys2Proof.Machine
end

