-- ==== Sys2Proof/Laws/PerInstr.lean ====
section
/-! SUPPORT. A statement for every command, one lemma per constructor: its encoded word has the shape of 30_encoding rule
R60 (`RSV` zero, its own `OPC` and `FLG`), and the opcode map admits it (rule R62). -/

namespace Sys2Proof.Laws.WordShape

/-- The encoded word's fields are the command's own, and the word is legal. -/
def Statement (i : Instr) : Prop :=
  rsvOf (encode i) = 0 ∧ opcOf (encode i) = i.opc ∧ flgOf (encode i) = i.flg ∧ commandWordLegal (encode i) = true ∧
    i.wellFormed = true

theorem crcInit : Statement .crcInit := by unfold Statement; decide

theorem crcCompute : Statement .crcCompute := by unfold Statement; decide

theorem sfxParse (verify : Bool) : Statement (.sfxParse verify) := by unfold Statement; revert verify; decide

theorem sfxSerialize : Statement .sfxSerialize := by unfold Statement; decide

theorem tlvParse : Statement .tlvParse := by unfold Statement; decide

theorem tlvSerialize : Statement .tlvSerialize := by unfold Statement; decide

theorem opAdd (force : Bool) : Statement (.opAdd force) := by unfold Statement; revert force; decide

theorem opVerify : Statement .opVerify := by unfold Statement; decide

theorem opRemove (force : Bool) : Statement (.opRemove force) := by unfold Statement; revert force; decide

end Sys2Proof.Laws.WordShape
end

