-- ==== Sys2Proof/Tests/Slice0.lean ====
section
/-! SUPPORT. The model's own tests: single commands on small states with the results 95_test_vectors prints (its vector's
name stands in each docstring), ill-formed words, and for each obligation with hypotheses a state that meets them. -/

namespace Sys2Proof.Tests

open Sys2Proof Sys2Proof.Machine

/-! ## Helpers -/

/-- A small admissible configuration. -/
def tiny : Config :=
  { bufSize := 48, valSize := 48, recMax := 24, crc := .std, bufSize_ge := by decide, bufSize_lt := by decide
    valSize_ge := by decide, valSize_lt := by decide, recMax_ge := by decide, recMax_lt := by decide }

/-- After reset, with these bytes loaded as the image. -/
def holding (img : List Byte) : State :=
  { State.resetIn tiny with buf := writeCells [] 0 img, bufLen := BitVec.ofNat 32 img.length }

/-- The identifiers of 95_test_vectors S2. -/
def withIds (s : State) : State :=
  { s with sfxIdVendor := 0x1234, sfxIdProduct := 0x5678, sfxBcdDevice := 0x0001 }

/-- With one REC entry per triple `(tag, len, off)`, from entry 0, and these bytes in VAL. -/
def withRecords (entries : List (Byte × Byte × Word)) (val : List Byte) (s : State) : State :=
  { s with
    recCount := BitVec.ofNat 32 entries.length
    recHead := writeCells [] 0 (entries.map fun e => ⟨e.1, e.2.1⟩)
    recOff := writeCells [] 0 (entries.map fun e => e.2.2)
    val := writeCells [] 0 val }

/-- What a completed command left, seen through `f`. -/
def seen {α : Type} (f : State → α) : Out → Option α
  | .next t => some (f t)
  | .fault _ => none
  | .refused _ => none

/-- The fault a command stopped with. -/
def faultOf : Out → Option Fault
  | .next _ => none
  | .fault f => some f
  | .refused _ => none

/-- The state a command left, or the one it began in. -/
def after (i : Instr) (s : State) : State := (seen id (exec i s)).getD s

theorem exec_after {i : Instr} {s : State} (h : (seen id (exec i s)).isSome = true) :
    exec i s = .next (after i s) := by
  unfold after
  cases ho : exec i s with
  | next t => rfl
  | fault f => rw [ho] at h; cases h
  | refused r => rw [ho] at h; cases h

/-- The image of vector X2, with its checksum in STD. -/
def imageG : List Byte :=
  [0xDE, 0xAD, 0xBE, 0xEF, 0x01, 0x00, 0x78, 0x56, 0x34, 0x12, 0x00, 0x01, 0x55, 0x46, 0x44, 0x10,
   0x45, 0x2C, 0xB5, 0xBA]

/-- The image of vector W5: suffix-shaped, wrong checksum. -/
def shaped : List Byte :=
  [0x01, 0x00, 0x78, 0x56, 0x34, 0x12, 0x00, 0x01, 0x55, 0x46, 0x44, 0x10, 0x00, 0x00, 0x00, 0x00]

/-- The image of vector W12: the known pair, whose prefix list ends inside the trailer. -/
def imageKnown : List Byte :=
  [0x03, 0x01, 0xDE, 0xAD, 0x05, 0x00, 0x9C, 0x67, 0x61, 0x4A, 0x00, 0x01, 0x55, 0x46, 0x44, 0x10,
   0x13, 0x9F, 0x59, 0xFC]

/-- The image of program P5: the known pair, malformed prefix. -/
def imageMalformed : List Byte :=
  [0x03, 0x01, 0xDE, 0xAD, 0x30, 0x07, 0x11, 0x22, 0x00, 0x02, 0x9C, 0x67, 0x61, 0x4A, 0x00, 0x01,
   0x55, 0x46, 0x44, 0x10, 0xDC, 0xB7, 0x24, 0xEB]

/-- "123456789". -/
def nine : List Byte := [0x31, 0x32, 0x33, 0x34, 0x35, 0x36, 0x37, 0x38, 0x39]

/-! ## Command words -/

/-- 95_test_vectors 2.9: the check refuses a word with a reserved bit, an unlisted opcode, a flag where none is allowed. -/
theorem test_illformed_words_refused :
    [0x00000230, 0x80000001, 0x00000000, 0x000000FF, 0x00000003, 0x00000131, 0x00000101].map commandWordLegal =
      [false, false, false, false, false, false, false] := by decide

theorem test_decoder_rejects_by_name :
    decode 0x80000001 = .error .reservedBits ∧ decode 0x00000003 = .error .unlistedOpcode ∧
      decode 0x00000131 = .error .flagNotAllowed := by decide

/-- 30_encoding rules R60, R62: words written out bit by bit, `RSV`, `FLG`, `OPC`, one for each constructor. -/
theorem test_words_decode_crc :
    decode 0b00000000000000000000000_0_00000001 = .ok .crcInit ∧
      decode 0b00000000000000000000000_0_00000010 = .ok .crcCompute := by decide

theorem test_words_decode_suffix :
    decode 0b00000000000000000000000_0_00010000 = .ok (.sfxParse false) ∧
      decode 0b00000000000000000000000_1_00010000 = .ok (.sfxParse true) ∧
      decode 0b00000000000000000000000_0_00010001 = .ok .sfxSerialize := by decide

theorem test_words_decode_tlv :
    decode 0b00000000000000000000000_0_00100000 = .ok .tlvParse ∧
      decode 0b00000000000000000000000_0_00100001 = .ok .tlvSerialize := by decide

theorem test_words_decode_workflow :
    decode 0b00000000000000000000000_0_00110000 = .ok (.opAdd false) ∧
      decode 0b00000000000000000000000_1_00110000 = .ok (.opAdd true) ∧
      decode 0b00000000000000000000000_0_00110001 = .ok .opVerify ∧
      decode 0b00000000000000000000000_0_00110010 = .ok (.opRemove false) ∧
      decode 0b00000000000000000000000_1_00110010 = .ok (.opRemove true) := by decide

/-- The host's two questions of a table row, for OP_ADD as the first command after reset (vector W1 with the reset
identifiers: STATUS 0x3000). -/
theorem test_table_word :
    decodeTableWord 32 0x00000030 = some (.opAdd false) ∧
      seen State.status (step (State.reset.withFetchWord 32 0x00000030)) = some 0x00003000 := by decide +kernel

/-! ## Commands -/

/-- K1. -/
theorem test_crc_init :
    seen (fun t => (t.status, t.crcAcc)) (exec .crcInit { State.reset with crcAcc := 5 }) =
      some (0x00000100, 0x00000000) := by decide

/-- K4: the second of two chained ranges. -/
theorem test_crc_compute_chains :
    seen (fun t => (t.status, t.crcAcc))
      (exec .crcCompute { holding nine with crcAcc := 0x9BE3E0A3, crcOff := 4, crcCnt := 5 }) =
      some (0x00000200, 0xCBF43926) := by decide +kernel

/-- K8: the sum of offset and count does not wrap. -/
theorem test_crc_compute_no_wrap :
    seen (fun t => (t.status, t.crcAcc))
      (exec .crcCompute { holding nine with crcAcc := 0xCBF43926, crcOff := 0xFFFFFFFF, crcCnt := 2 }) =
      some (0x00000215, 0xCBF43926) := by decide +kernel

/-- X9. -/
theorem test_sfx_parse_verifies :
    seen (fun t => (t.status, suffixView t)) (exec (.sfxParse true) (holding imageG)) =
      some (0x00001000, some ⟨0x0100, 0x1234, 0x5678, 0x0001, [], 0xBAB52C45⟩) := by decide +kernel

/-- X15: the length byte 0x14 takes the whole image as the trailer. -/
theorem test_sfx_parse_extra :
    seen (fun t => (t.status, suffixView t)) (exec (.sfxParse false) (holding (imageG.set 15 0x14))) =
      some (0x00001000, some ⟨0x0100, 0x1234, 0x5678, 0x0001, [0xDE, 0xAD, 0xBE, 0xEF], 0xBAB52C45⟩) := by
  decide +kernel

/-- X3. -/
theorem test_sfx_serialize_extra :
    seen (fun t => (t.status, image t, t.sfxCrc))
      (exec .sfxSerialize { withIds (holding [1, 2, 3]) with extra := [(0, 0xA5), (1, 0x5A)], sfxExtraLen := 2 }) =
      some (0x00001100,
        some [0x01, 0x02, 0x03, 0xA5, 0x5A, 0x01, 0x00, 0x78, 0x56, 0x34, 0x12, 0x00, 0x01, 0x55, 0x46, 0x44, 0x12,
          0x60, 0x60, 0x48, 0x7D], 0x7D486060) := by decide +kernel

/-- X6c: `SFX_EXTRA_LEN = 240`. -/
theorem test_sfx_serialize_extra_too_long :
    seen (fun t => (t.status, t.bufLen)) (exec .sfxSerialize { holding [1, 2, 3] with sfxExtraLen := 240 }) =
      some (0x00001115, 3) := by decide +kernel

/-- T13: two records with one tag; `Lookup(7)` is the first. -/
theorem test_tlv_parse_two_records :
    seen (fun t => (t.status, t.recCount, records t, lookup t 7))
      (exec .tlvParse (holding [0x02, 0x07, 0x11, 0x02, 0x07, 0x22, 0x01, 0x00])) =
      some (0x00002000, 2, some [⟨7, [0x11]⟩, ⟨7, [0x22]⟩], .found [0x11]) := by decide +kernel

/-- T12: `size == 0` with a tag. -/
theorem test_tlv_parse_zero_size :
    seen (fun t => (t.status, t.recCount, t.val)) (exec .tlvParse (holding [0x00, 0x07, 0x01, 0x00])) =
      some (0x00002014, 0, []) := by decide +kernel

/-- T29: the stream's own length is aligned, not `BUF_LEN`. -/
theorem test_tlv_serialize_aligns_the_stream :
    seen (fun t => (t.status, image t))
      (exec .tlvSerialize { withRecords [(1, 2, 0)] [0xDE, 0xAD] (holding [0xAA]) with tlvAlign := 4 }) =
      some (0x00002100, some [0xAA, 0x03, 0x01, 0xDE, 0xAD, 0x01, 0x00, 0x00, 0x00]) := by decide +kernel

/-- T34, for `VAL_SIZE = 48`: the last byte of the value lies outside VAL. -/
theorem test_tlv_serialize_value_outside :
    seen (fun t => (t.status, t.bufLen)) (exec .tlvSerialize (withRecords [(1, 2, 47)] [] (holding []))) =
      some (0x00002115, 0) := by decide +kernel

/-- W2. -/
theorem test_op_add :
    seen (fun t => (t.status, image t, t.sfxCrc)) (exec (.opAdd false) (withIds (holding [0xDE, 0xAD, 0xBE, 0xEF]))) =
      some (0x00003000, some imageG, 0xBAB52C45) := by decide +kernel

/-- W5: the checksum is not consulted. -/
theorem test_op_add_shaped :
    seen (fun t => (t.status, t.bufLen)) (exec (.opAdd false) (holding shaped)) = some (0x00003013, 16) := by
  decide +kernel

/-- W12: the known pair; the trailer's own bytes end the list. -/
theorem test_op_verify_known_pair :
    seen (fun t => (t.status, t.sfxBcdDevice, records t)) (exec .opVerify (holding imageKnown)) =
      some (0x00003140, 0x0005, some [⟨1, [0xDE, 0xAD]⟩]) := by decide +kernel

/-- P5 step 5: `MalformedTlv` keeps the bank. -/
theorem test_op_verify_malformed :
    seen (fun t => (t.status, t.sfxIdVendor, t.sfxCrc, t.recCount)) (exec .opVerify (holding imageMalformed)) =
      some (0x00003114, 0x4A61, 0xEB24B7DC, 0) := by decide +kernel

/-- W9: the trailer of X3 goes, with its extra bytes. -/
theorem test_op_remove :
    seen (fun t => (t.status, image t, (suffixView t).map Suffix.extra))
      (exec (.opRemove false) (holding
        [0x01, 0x02, 0x03, 0xA5, 0x5A, 0x01, 0x00, 0x78, 0x56, 0x34, 0x12, 0x00, 0x01, 0x55, 0x46, 0x44, 0x12,
          0x60, 0x60, 0x48, 0x7D])) =
      some (0x00003200, some [0x01, 0x02, 0x03], some [0xA5, 0x5A]) := by decide +kernel

/-- P4 step 7: force does not strip a corrupt trailer. -/
theorem test_op_remove_forced :
    seen (fun t => (t.status, t.bufLen)) (exec (.opRemove true) (holding (imageG.set 1 0xAC))) =
      some (0x00003222, 20) := by decide +kernel

/-- 93_implementation_defined U1: a command that reads a byte nobody has written faults at that byte. -/
theorem test_unwritten_read_faults :
    faultOf (exec .tlvParse { State.reset with bufLen := 2 }) = some (.unwrittenRead .buf 0) := by decide +kernel

/-- 43_workflow rule R178, on the records of T17. -/
theorem test_report :
    [⟨1, [0x78, 0x56, 0x34, 0x12]⟩, ⟨2, [0x00, 0x5E, 0x0B, 0x65]⟩, ⟨128, []⟩].map reportOf =
      [.deviceId [0x78, 0x56, 0x34, 0x12], .timestamp (some 0x650B5E00), .dump []] := by decide

/-- 30_encoding rule R66: program P3's lines 2 and 7 as the writes its "encoding" column gives. -/
theorem test_script_lines :
    lineWrec 0 1 0 4 = [.writeRec 0 0x00000000, .writeRec 1 0x00000401] ∧
      lineIds 0x4A61 0x679C 0x0200 = [.writeReg 7 0x4A61, .writeReg 8 0x679C, .writeReg 9 0x0200] ∧
      lineCrcMore 4 12 = [.writeReg 4 4, .writeReg 5 12, .writeReg 0 2] ∧
      lineCrc32 0 16 = [.writeReg 4 0, .writeReg 5 16, .writeReg 0 1, .writeReg 0 2] := by decide

/-! ## States that meet the obligations' hypotheses -/

theorem witness_DecodeInvertsEncode :
    (Instr.opAdd true).wellFormed = true ∧ decode 0x00000130 = .ok (.opAdd true) := by decide

/-- After reset, with one host event pending. -/
def pending (e : HostEvent) : State := { State.resetIn tiny with script := [e] }

/-- A reserved bit alone, an unlisted opcode alone, a flag not allowed alone. -/
theorem witness_IllegalWordOnlyReports :
    (0x80000001 : Word).extractLsb' 9 23 ≠ 0 ∧
      (0x00000003 : Word).extractLsb' 0 8 ∉
        ([0x01, 0x02, 0x10, 0x11, 0x20, 0x21, 0x30, 0x31, 0x32] : List Byte) ∧
      ((0x00000131 : Word).getLsbD 8 = true ∧ (0x00000131 : Word).extractLsb' 0 8 ∉ ([0x10, 0x30, 0x32] : List Byte)) ∧
      (pending (.writeReg 0 0x00000131)).script = .writeReg 0 0x00000131 :: [] := by
  decide

theorem witness_StepRunsDecodedCommand :
    ((pending (.writeReg 0 0x00000132)).script = .writeReg 0 0x00000132 :: [] ∧
      decode 0x00000132 = .ok (.opRemove true)) ∧
      (pending (.readReg 0)).script = .readReg 0 :: [] := by decide

theorem witness_RunEndsWithTheScript : State.reset.script = [] := by decide

theorem witness_HostRegisterRead : (pending (.readReg 14)).script = .readReg 14 :: [] := by decide

theorem witness_ReservedSlotsDoNothing :
    15 ≤ 15 ∧ (pending (.readReg 15)).script = .readReg 15 :: [] ∧
      (pending (.writeReg 15 7)).script = .writeReg 15 7 :: [] := by decide

theorem witness_HostRegisterWriteTruncates :
    ((pending (.writeReg 10 0xFFF)).script = .writeReg 10 0xFFF :: [] ∧ (10 : Nat) ≠ 0 ∧
      (10 ≤ 10 ∧ (10 : Nat) ≠ 1 ∨ 10 = 13 ∨ 10 = 14)) ∧
    ((pending (.writeReg 14 9)).script = .writeReg 14 9 :: [] ∧ (14 : Nat) ≠ 0 ∧
      (14 ≤ 10 ∧ (14 : Nat) ≠ 1 ∨ 14 = 13 ∨ 14 = 14)) ∧
    ((pending (.writeReg 15 9)).script = .writeReg 15 9 :: [] ∧ (15 : Nat) ≠ 0 ∧
      (15 = 1 ∨ 15 = 11 ∨ 15 = 12 ∨ 15 ≤ 15)) := by decide

theorem witness_HostByteWriteThenRead :
    (pending (.writeByte .buf 47 9)).script = .writeByte .buf 47 9 :: [] ∧
      47 < ByteSpace.buf.size (pending (.writeByte .buf 47 9)).cfg := by decide

theorem witness_HostByteReadReturnsOrFaults :
    ((pending (.readByte .extra 238)).script = .readByte .extra 238 :: [] ∧
      238 < ByteSpace.extra.size (pending (.readByte .extra 238)).cfg ∧
      readCell (cellsOf { pending (.readByte .extra 238) with extra := [(238, 7)] } .extra) 238 = some 7) ∧
    (238 < ByteSpace.extra.size (pending (.readByte .extra 238)).cfg ∧
      readCell (cellsOf (pending (.readByte .extra 238)) .extra) 238 = none) ∧
    ((pending (.readByte .extra 239)).script = .readByte .extra 239 :: [] ∧
      ByteSpace.extra.size (pending (.readByte .extra 239)).cfg ≤ 239) ∧
    ((pending (.writeByte .val 48 1)).script = .writeByte .val 48 1 :: [] ∧
      ByteSpace.val.size (pending (.writeByte .val 48 1)).cfg ≤ 48) := by decide

/-- The last word of REC and the first beyond it, written to, and read where written and where not. -/
theorem witness_RecWordWriteThenRead :
    ((pending (.writeRec 47 0xFFFF0401)).script = .writeRec 47 0xFFFF0401 :: [] ∧
      47 < 2 * (pending (.writeRec 47 0xFFFF0401)).cfg.recMax) ∧
    ((pending (.writeRec 48 5)).script = .writeRec 48 5 :: [] ∧ 2 * (pending (.writeRec 48 5)).cfg.recMax ≤ 48) ∧
    (let s : State := { pending (.readRec 47) with recHead := [(23, ⟨1, 4⟩)] }
     s.script = .readRec 47 :: [] ∧ 47 < 2 * s.cfg.recMax ∧ readRecWord 47 s = some 0x00000401) ∧
    ((pending (.readRec 47)).script = .readRec 47 :: [] ∧ 47 < 2 * (pending (.readRec 47)).cfg.recMax ∧
      readRecWord 47 (pending (.readRec 47)) = none) ∧
    ((pending (.readRec 48)).script = .readRec 48 :: [] ∧ 2 * (pending (.readRec 48)).cfg.recMax ≤ 48) := by decide

theorem witness_ResetRegisterValues : (pending .reset).script = .reset :: [] := by decide

theorem witness_LoadPresentsTheImage :
    (List.replicate 48 (7 : Byte)).length ≤ tiny.bufSize ∧
      ({ State.resetIn tiny with script := lineLoad (List.replicate 48 7) ++ [.readReg 2] } : State).script =
        lineLoad (List.replicate 48 7) ++ [.readReg 2] := ⟨by decide, rfl⟩

theorem witness_ChecksumDetectsOneByteChange : (0xAD : Byte) ≠ 0xAC := by decide

/-- "123456789" with a range of the whole image. -/
def wholeRange : State := { holding nine with crcOff := 0, crcCnt := 9 }

theorem witness_CrcComputeContinuesTheSeed :
    (wholeRange.bufLen.toNat ≤ wholeRange.cfg.bufSize ∧
      wholeRange.crcOff.toNat + wholeRange.crcCnt.toNat ≤ wholeRange.bufLen.toNat ∧
      readRange wholeRange.buf wholeRange.crcOff.toNat wholeRange.crcCnt.toNat = some nine) ∧
    ({ wholeRange with bufLen := 49 } : State).cfg.bufSize < ({ wholeRange with bufLen := 49 } : State).bufLen.toNat ∧
    ({ wholeRange with crcCnt := 10 } : State).bufLen.toNat <
      ({ wholeRange with crcCnt := 10 } : State).crcOff.toNat +
        ({ wholeRange with crcCnt := 10 } : State).crcCnt.toNat := by decide +kernel

/-- The state after the first of two adjacent ranges, and after the second. -/
def firstRange : State :=
  after .crcCompute { holding nine with crcOff := BitVec.ofNat 32 0, crcCnt := BitVec.ofNat 32 (4 - 0) }

def secondRange : State :=
  after .crcCompute { firstRange with crcOff := BitVec.ofNat 32 4, crcCnt := BitVec.ofNat 32 (9 - 4) }

theorem witness_AdjacentRangesChain :
    0 ≤ 4 ∧ 4 ≤ 9 ∧ 9 < 4294967296 ∧
    exec .crcCompute { holding nine with crcOff := BitVec.ofNat 32 0, crcCnt := BitVec.ofNat 32 (4 - 0) } =
      .next firstRange ∧
    statusErr firstRange.status = 0 ∧
    exec .crcCompute { firstRange with crcOff := BitVec.ofNat 32 4, crcCnt := BitVec.ofNat 32 (9 - 4) } =
      .next secondRange ∧
    statusErr secondRange.status = 0 :=
  ⟨by decide, by decide, by decide, exec_after (by decide +kernel), by decide +kernel, exec_after (by decide +kernel),
    by decide +kernel⟩

theorem witness_TrailerChecksumIsSinglePass : structuralImg imageG = true ∧ structuralImg shaped = true := by decide

/-- Images that verify, that lack a trailer, that fail the checksum, and a `BUF_LEN` beyond BUF. -/
theorem witness_SfxParseReportsTheTrailer :
    (image (holding imageG) = some imageG ∧ trailerVerdict tiny true imageG = .ok) ∧
    (image (holding shaped) = some shaped ∧ trailerVerdict tiny true shaped = .invalidCrc) ∧
    (image (holding nine) = some nine ∧ trailerVerdict tiny false nine = .notASuffix) ∧
    ({ State.resetIn tiny with bufLen := 49 } : State).cfg.bufSize <
      ({ State.resetIn tiny with bufLen := 49 } : State).bufLen.toNat := by decide +kernel

/-- A trailer at the end of BUF with no byte of its body written. -/
theorem witness_SfxParseReadsOnlyTheTrailer :
    let s : State := { State.resetIn tiny with bufLen := 48, buf := writeCells [] 32 shaped }
    s.bufLen.toNat ≤ s.cfg.bufSize ∧ shaped.length ≤ s.bufLen.toNat ∧
      readRange s.buf (s.bufLen.toNat - shaped.length) shaped.length = some shaped ∧
      structuralImg shaped = true ∧ trailerLength shaped = shaped.length := by decide +kernel

/-- A body of 32 bytes and an empty `extra` fit exactly; one more byte does not. -/
theorem witness_SfxSerializeAppendsTheTrailer :
    (let s : State := holding (List.replicate 32 7)
     image s = some (List.replicate 32 7) ∧ suffixView s = some ⟨0x0100, 0xFFFF, 0xFFFF, 0xFFFF, [], 0⟩ ∧
      s.bufLen.toNat + s.sfxExtraLen.toNat + 16 ≤ s.cfg.bufSize) ∧
    (({ State.resetIn tiny with bufLen := 49 } : State).cfg.bufSize <
      ({ State.resetIn tiny with bufLen := 49 } : State).bufLen.toNat) ∧
    239 < ({ State.resetIn tiny with sfxExtraLen := 240 } : State).sfxExtraLen.toNat ∧
    (let s : State := { holding [7] with sfxExtraLen := 239 }
     s.bufLen.toNat ≤ s.cfg.bufSize ∧ s.sfxExtraLen.toNat ≤ 239 ∧
      s.cfg.bufSize < s.bufLen.toNat + s.sfxExtraLen.toNat + 16) := by decide +kernel

/-- `holding [1, 2, 3]` with the identifiers of S2. -/
def body3 : State := withIds (holding [1, 2, 3])

theorem witness_SerializedTrailerVerifies :
    exec .sfxSerialize body3 = .next (after .sfxSerialize body3) ∧
      statusErr (after .sfxSerialize body3).status = 0 := ⟨exec_after (by decide +kernel), by decide +kernel⟩

theorem witness_ParsedTrailerSerializesBack :
    image (holding imageG) = some imageG ∧
      exec (.sfxParse true) (holding imageG) = .next (after (.sfxParse true) (holding imageG)) ∧
      statusErr (after (.sfxParse true) (holding imageG)).status = 0 :=
  ⟨by decide +kernel, exec_after (by decide +kernel), by decide +kernel⟩

/-- A list of two records, and a stream with no terminator. -/
def stream2 : List Byte := [0x02, 0x07, 0x11, 0x02, 0x07, 0x22, 0x01, 0x00]

theorem witness_TlvParseBuildsTheRecords :
    (image (holding stream2) = some stream2 ∧ parseTlvImg stream2 = some [⟨7, [0x11]⟩, ⟨7, [0x22]⟩]) ∧
    (image (holding [0x03, 0x01, 0xDE, 0xAD]) = some [0x03, 0x01, 0xDE, 0xAD] ∧
      parseTlvImg [0x03, 0x01, 0xDE, 0xAD] = none) ∧
    ({ State.resetIn tiny with bufLen := 49 } : State).cfg.bufSize <
      ({ State.resetIn tiny with bufLen := 49 } : State).bufLen.toNat := by decide +kernel

theorem witness_ParsedValuesAreCompact :
    image (holding stream2) = some stream2 ∧
      exec .tlvParse (holding stream2) = .next (after .tlvParse (holding stream2)) ∧
      statusErr (after .tlvParse (holding stream2)).status = 0 :=
  ⟨by decide +kernel, exec_after (by decide +kernel), by decide +kernel⟩

theorem witness_TlvParseCannotOverflow :
    image (holding stream2) = some stream2 ∧ parseTlvImg stream2 = some [⟨7, [0x11]⟩, ⟨7, [0x22]⟩] := by decide +kernel

theorem witness_EncodedListParsesBack :
    ∀ r ∈ ([⟨1, []⟩, ⟨255, List.replicate 254 7⟩] : List Record), r.legal := by decide +kernel

theorem witness_PaddingReachesTheAlignment : 0 < 1 ∧ 1 ≤ 1 := by decide

/-- One legal record: a fitting stream, no room, and each kind of bad operand. -/
theorem witness_TlvSerializeAppendsTheStream :
    (let s : State := withRecords [(1, 2, 46)] (List.replicate 48 7) (holding (List.replicate 42 9))
     records s = some [⟨1, [7, 7]⟩] ∧ (∀ r ∈ ([⟨1, [7, 7]⟩] : List Record), r.legal) ∧
      s.bufLen.toNat + (encodeTlv [⟨1, [7, 7]⟩] s.tlvAlign.toNat).length ≤ s.cfg.bufSize) ∧
    (tiny.bufSize < ({ State.resetIn tiny with bufLen := 49 } : State).bufLen.toNat ∧
      tiny.recMax < ({ State.resetIn tiny with recCount := 25 } : State).recCount.toNat) ∧
    (let s : State := withRecords [(1, 2, 47)] [] (holding [])
     s.bufLen.toNat ≤ s.cfg.bufSize ∧ s.recCount.toNat ≤ s.cfg.recMax ∧
      (∀ i, i < s.recCount.toNat → (readCell s.recHead i).isSome = true ∧ (readCell s.recOff i).isSome = true) ∧
      readCell s.recHead 0 = some ⟨1, 2⟩ ∧ readCell s.recOff 0 = some 47 ∧ badEntry s.cfg ⟨1, 2⟩ 47) ∧
    (let s : State := withRecords [(1, 2, 46)] (List.replicate 48 7) (holding (List.replicate 43 9))
     s.bufLen.toNat ≤ s.cfg.bufSize ∧ records s = some [⟨1, [7, 7]⟩] ∧
      s.cfg.bufSize < s.bufLen.toNat + (encodeTlv [⟨1, [7, 7]⟩] s.tlvAlign.toNat).length) := by decide +kernel

/-- A record object in an empty image. -/
def oneRecord : State := withRecords [(1, 2, 0)] [0xDE, 0xAD] (holding [])

theorem witness_TlvRoundTrip :
    (oneRecord.bufLen = 0 ∧ exec .tlvSerialize oneRecord = .next (after .tlvSerialize oneRecord) ∧
      statusErr (after .tlvSerialize oneRecord).status = 0) ∧
    image (holding (stream2 ++ [0xFF])) = some (encodeList [⟨7, [0x11]⟩, ⟨7, [0x22]⟩] ++ [0xFF]) ∧
      (∀ r ∈ ([⟨7, [0x11]⟩, ⟨7, [0x22]⟩] : List Record), r.legal) ∧
      exec .tlvParse (holding (stream2 ++ [0xFF])) = .next (after .tlvParse (holding (stream2 ++ [0xFF]))) ∧
      statusErr (after .tlvParse (holding (stream2 ++ [0xFF]))).status = 0 :=
  ⟨⟨by decide, exec_after (by decide +kernel), by decide +kernel⟩, by decide +kernel, by decide +kernel,
    exec_after (by decide +kernel), by decide +kernel⟩

/-- An exact fit, a `BUF_LEN` beyond BUF, a suffix-shaped image, and an image with no room. -/
theorem witness_OpAddAppendsAFreshTrailer :
    (image (holding (List.replicate 32 7)) = some (List.replicate 32 7) ∧
      structuralImg (List.replicate 32 7) = false ∧ (holding (List.replicate 32 7)).bufLen.toNat + 16 ≤ tiny.bufSize) ∧
    tiny.bufSize < ({ State.resetIn tiny with bufLen := 49 } : State).bufLen.toNat ∧
    (image (holding shaped) = some shaped ∧ structuralImg shaped = true) ∧
    (image (holding (List.replicate 33 7)) = some (List.replicate 33 7) ∧
      structuralImg (List.replicate 33 7) = false ∧
      tiny.bufSize < (holding (List.replicate 33 7)).bufLen.toNat + 16) := by decide +kernel

/-- A failing checksum, another pair, the known pair with a malformed and with a sound prefix, `BUF_LEN` beyond BUF. -/
theorem witness_OpVerifyReports :
    (image (holding shaped) = some shaped ∧ trailerVerdict tiny true shaped ≠ .ok) ∧
    (image (holding imageG) = some imageG ∧ trailerVerdict tiny true imageG = .ok ∧
      (suffixOf imageG).idVendor ≠ 0x4A61) ∧
    (image (holding imageMalformed) = some imageMalformed ∧ trailerVerdict tiny true imageMalformed = .ok ∧
      (suffixOf imageMalformed).idVendor = 0x4A61 ∧ (suffixOf imageMalformed).idProduct = 0x679C ∧
      parseTlvImg imageMalformed = none) ∧
    (image (holding imageKnown) = some imageKnown ∧ trailerVerdict tiny true imageKnown = .ok ∧
      (suffixOf imageKnown).idVendor = 0x4A61 ∧ (suffixOf imageKnown).idProduct = 0x679C ∧
      parseTlvImg imageKnown = some [⟨1, [0xDE, 0xAD]⟩]) ∧
    tiny.bufSize < ({ State.resetIn tiny with bufLen := 49 } : State).bufLen.toNat := by decide +kernel

theorem witness_PfxTellsOfThePrefixList :
    (exec .opVerify (holding imageKnown) = .next (after .opVerify (holding imageKnown)) ∧
      statusPfx (after .opVerify (holding imageKnown)).status = true) ∧
    exec .opVerify (holding imageG) = .next (after .opVerify (holding imageG)) ∧
      statusPfx (after .opVerify (holding imageG)).status = false :=
  ⟨⟨exec_after (by decide +kernel), by decide +kernel⟩, exec_after (by decide +kernel), by decide +kernel⟩

theorem witness_OpRemoveStripsTheTrailer :
    (image (holding imageG) = some imageG ∧ trailerVerdict tiny true imageG = .ok) ∧
    (image (holding shaped) = some shaped ∧ trailerVerdict tiny true shaped ≠ .ok) ∧
    tiny.bufSize < ({ State.resetIn tiny with bufLen := 49 } : State).bufLen.toNat := by decide +kernel

theorem witness_RemoveIgnoresForce :
    image (holding shaped) = some shaped ∧ structuralImg shaped = true ∧
      trailerCrc tiny (bodyOf shaped) (suffixOf shaped).block ≠ (suffixOf shaped).crc := by decide +kernel

theorem witness_AddThenRemoveRestoresTheImage :
    (image (holding shaped) = some shaped ∧ shaped.length + 16 ≤ tiny.bufSize ∧ structuralImg shaped = true) ∧
    image (holding (List.replicate 32 7)) = some (List.replicate 32 7) ∧
      (List.replicate 32 (7 : Byte)).length + 16 ≤ tiny.bufSize ∧
      ¬(false = false ∧ structuralImg (List.replicate 32 7) = true) := by decide +kernel

/-- The image of X2 as OP_ADD leaves it. -/
def added : State := after (.opAdd false) (withIds (holding [0xDE, 0xAD, 0xBE, 0xEF]))

/-- One flipped bit in each place the statement tells apart: the signature (bytes 12 and 14), the length byte out of and in
range, the byte before the signature, the stored checksum. -/
theorem witness_OneFlippedBitIsReported :
    exec (.opAdd false) (withIds (holding [0xDE, 0xAD, 0xBE, 0xEF])) = .next added ∧
      statusErr added.status = 0 ∧ image added = some imageG ∧
      (∀ p ∈ ([11, 12, 14, 15, 16, 19] : List Nat), p < imageG.length) ∧
      (byteAt imageG 15 ^^^ BitVec.ofNat 8 (2 ^ 3)).toNat = 24 ∧
      (byteAt imageG 15 ^^^ BitVec.ofNat 8 (2 ^ 2)).toNat = 20 ∧
      (byteAt imageG 15 ^^^ BitVec.ofNat 8 (2 ^ 4)).toNat = 0 :=
  ⟨exec_after (by decide +kernel), by decide +kernel, by decide +kernel, by decide, by decide, by decide, by decide⟩

theorem witness_SecondAddIsRejectedOrStacks :
    exec (.opAdd false) (withIds (holding [0xDE, 0xAD, 0xBE, 0xEF])) = .next added ∧
      statusErr added.status = 0 ∧ added.bufLen.toNat + 16 ≤ added.cfg.bufSize :=
  ⟨exec_after (by decide +kernel), by decide +kernel, by decide +kernel⟩

/-- Length bytes 15 and 21 in an image of 20 bytes. -/
theorem witness_LengthByteOutOfRangeIsRejected :
    (image (holding (imageG.set 15 0x0F)) = some (imageG.set 15 0x0F) ∧ 16 ≤ (imageG.set 15 0x0F).length ∧
      trailerLength (imageG.set 15 0x0F) < 16) ∧
    (image (holding (imageG.set 15 0x15)) = some (imageG.set 15 0x15) ∧
      (imageG.set 15 0x15).length < trailerLength (imageG.set 15 0x15) ∧
      (imageG.set 15 0x15).length + 16 ≤ tiny.bufSize) := by decide +kernel

theorem witness_FailureChangesOnlyStatus :
    (exec .tlvParse (holding []) = .next (after .tlvParse (holding [])) ∧
      statusErr (after .tlvParse (holding [])).status ≠ 0) ∧
    exec .opVerify (holding imageMalformed) = .next (after .opVerify (holding imageMalformed)) ∧
      statusErr (after .opVerify (holding imageMalformed)).status ≠ 0 :=
  ⟨⟨exec_after (by decide +kernel), by decide +kernel⟩, exec_after (by decide +kernel), by decide +kernel⟩

theorem witness_CommandEndsAsItsRuleLists :
    exec .opVerify (holding imageKnown) = .next (after .opVerify (holding imageKnown)) := exec_after (by decide +kernel)

/-- The last word of REC, the last byte of VAL and the first of BUF, unwritten. -/
theorem witness_CommandsFaultOnlyOnUnwrittenReads :
    exec .tlvSerialize { State.resetIn tiny with recCount := 1 } = .fault (.unwrittenRead .recWords 1) ∧
      exec .tlvSerialize (withRecords [(1, 1, 47)] [] (holding [])) = .fault (.unwrittenRead .val 47) ∧
      exec .tlvParse { State.resetIn tiny with bufLen := 48 } = .fault (.unwrittenRead .buf 0) := ⟨rfl, rfl, rfl⟩

/-- CRC_COMPUTE over a range whose last byte is unwritten; an image of 16 bytes whose length byte is unwritten; a written
trailer below whose first byte the body is unwritten; OP_ADD.F and SFX_SERIALIZE of an exact fit that is unwritten. -/
theorem witness_CommandsStopAtUnwrittenReads :
    (let s : State := { holding nine with bufLen := 10, crcOff := 0, crcCnt := 10 }
     s.bufLen.toNat ≤ s.cfg.bufSize ∧ s.crcOff.toNat + s.crcCnt.toNat ≤ s.bufLen.toNat ∧
      readRange s.buf s.crcOff.toNat s.crcCnt.toNat = none) ∧
    (let s : State := { holding (shaped.take 11) with bufLen := 16 }
     s.bufLen.toNat ≤ s.cfg.bufSize ∧ 16 ≤ s.bufLen.toNat ∧ readRange s.buf (s.bufLen.toNat - 8) 4 = none) ∧
    (let s : State := { State.resetIn tiny with bufLen := 48, buf := writeCells [] 32 shaped }
     s.bufLen.toNat ≤ s.cfg.bufSize ∧ shaped.length ≤ s.bufLen.toNat ∧
      readRange s.buf (s.bufLen.toNat - shaped.length) shaped.length = some shaped ∧
      structuralImg shaped = true ∧ trailerLength shaped = shaped.length ∧ image s = none) ∧
    (let s : State := { State.resetIn tiny with bufLen := 32 }
     s.bufLen.toNat + 16 ≤ s.cfg.bufSize ∧ image s = none ∧ s.sfxExtraLen.toNat ≤ 239 ∧
      s.bufLen.toNat + s.sfxExtraLen.toNat + 16 ≤ s.cfg.bufSize) ∧
    (let s : State := { holding [1] with sfxExtraLen := 31 }
     s.bufLen.toNat + s.sfxExtraLen.toNat + 16 ≤ s.cfg.bufSize ∧ image s ≠ none ∧
      readRange s.extra 0 s.sfxExtraLen.toNat = none) := by decide +kernel

/-- A record, then an unwritten header; a record, then a header whose value ends beyond what is written. -/
theorem witness_CommandsStopAtUnwrittenReads_tlvParse :
    (∀ r ∈ ([⟨7, [0x11]⟩] : List Record), r.legal) ∧
    (let s : State := { holding [0x02, 0x07, 0x11] with bufLen := 5 }
     readRange s.buf 0 3 = some (([⟨7, [0x11]⟩] : List Record).flatMap encodeRecord) ∧ 3 + 2 ≤ s.bufLen.toNat ∧
      readRange s.buf 3 2 = none) ∧
    (let s : State := { holding [0x02, 0x07, 0x11, 0x03, 0x08, 0x22] with bufLen := 7 }
     readRange s.buf 0 3 = some (([⟨7, [0x11]⟩] : List Record).flatMap encodeRecord) ∧
      readRange s.buf 3 2 = some [0x03, 0x08] ∧ (0x08 : Byte) ≠ 0 ∧ (0x03 : Byte) ≠ 0 ∧
      3 + 1 + (0x03 : Byte).toNat ≤ s.bufLen.toNat ∧ readRange s.buf (3 + 2) ((0x03 : Byte).toNat - 1) = none) := by
  decide +kernel

/-- A sound first entry, then an entry with no odd word, and one with no even word. -/
theorem witness_CommandsStopAtUnwrittenReads_entries :
    let s : State := withRecords [(1, 2, 0)] [] (holding [])
    soundEntry s 0 ∧ (∀ k, k < 1 → soundEntry { s with recCount := 2 } k) ∧
      1 < ({ s with recCount := 2 } : State).recCount.toNat ∧ readCell s.recHead 1 = none ∧
      (let u : State := { s with recCount := 2, recHead := [(0, ⟨1, 2⟩), (1, ⟨1, 254⟩)] }
       readCell u.recHead 1 = some ⟨1, 254⟩ ∧ readCell u.recOff 1 = none ∧ (∀ k, k < 1 → soundEntry u k)) :=
  have h : soundEntry (withRecords [(1, 2, 0)] [] (holding [])) 0 := ⟨⟨1, 2⟩, 0, by decide, by decide, by decide⟩
  ⟨h, fun k hk => by obtain rfl : k = 0 := by omega
                     exact ⟨⟨1, 2⟩, 0, by decide, by decide, by decide⟩,
    by decide, by decide, by decide, by decide,
    fun k hk => by obtain rfl : k = 0 := by omega
                   exact ⟨⟨1, 2⟩, 0, by decide, by decide, by decide⟩⟩

/-- A sound entry whose value ends at the last byte of VAL, unwritten, in an exact fit. -/
theorem witness_CommandsStopAtUnwrittenReads_values :
    let s : State := withRecords [(1, 2, 46)] [] (holding (List.replicate 42 9))
    (∀ i, i < s.recCount.toNat → soundEntry s i) ∧ records s = none ∧
      s.bufLen.toNat + entriesLength s + fillCount (entriesLength s) s.tlvAlign.toNat ≤ s.cfg.bufSize :=
  ⟨fun i hi => by obtain rfl : i = 0 := by
                    have : i < 1 := hi
                    omega
                  exact ⟨⟨1, 2⟩, 46, by decide, by decide, by decide⟩,
    by decide +kernel, by decide +kernel⟩

/-- The add of an image beside unwritten bytes: the one after the image, which it writes, the last byte of VAL, and a word
of REC, which it does not. -/
theorem witness_UnwrittenContentsDoNotMatter :
    exec (.opAdd false) (withIds (holding [0xDE, 0xAD, 0xBE, 0xEF])) = .next added ∧
      readCell (cellsOf (withIds (holding [0xDE, 0xAD, 0xBE, 0xEF])) .buf) 4 = none ∧
      readCell (cellsOf (withIds (holding [0xDE, 0xAD, 0xBE, 0xEF])) .val) 47 = none ∧
      readRecWord 47 (withIds (holding [0xDE, 0xAD, 0xBE, 0xEF])) = none :=
  ⟨exec_after (by decide +kernel), by decide, by decide, by decide⟩

theorem witness_ChecksumRegistersAreNotTouched : Instr.opAdd true ≠ .crcInit ∧ Instr.opAdd true ≠ .crcCompute := by decide

theorem witness_RegisterFrame :
    exec (.opAdd false) (withIds (holding [0xDE, 0xAD, 0xBE, 0xEF])) = .next added ∧
      5 ∉ (Instr.opAdd false).slotsWritten := ⟨exec_after (by decide +kernel), by decide⟩

/-- One command of each clause: nothing stored, SFX_SERIALIZE, OP_ADD, TLV_SERIALIZE. -/
theorem witness_ImageMemoryFrame :
    exec .opVerify (holding imageG) = .next (after .opVerify (holding imageG)) ∧
      exec .sfxSerialize body3 = .next (after .sfxSerialize body3) ∧
      exec (.opAdd true) body3 = .next (after (.opAdd true) body3) ∧
      exec .tlvSerialize oneRecord = .next (after .tlvSerialize oneRecord) :=
  ⟨exec_after (by decide +kernel), exec_after (by decide +kernel), exec_after (by decide +kernel),
    exec_after (by decide +kernel)⟩

theorem witness_ExtraStoreFrame :
    exec (.opAdd true) body3 = .next (after (.opAdd true) body3) ∧
      (exec (.sfxParse true) (holding shaped) = .next (after (.sfxParse true) (holding shaped)) ∧
        statusErr (after (.sfxParse true) (holding shaped)).status = 2) ∧
      exec (.sfxParse false) (holding (imageG.set 15 0x14)) =
        .next (after (.sfxParse false) (holding (imageG.set 15 0x14))) :=
  ⟨exec_after (by decide +kernel), ⟨exec_after (by decide +kernel), by decide +kernel⟩, exec_after (by decide +kernel)⟩

theorem witness_RecordMemoryFrame :
    (exec .opVerify (holding imageG) = .next (after .opVerify (holding imageG)) ∧
      Instr.opVerify ≠ .tlvParse ∧ statusPfx (after .opVerify (holding imageG)).status = false) ∧
    exec .tlvParse (holding stream2) = .next (after .tlvParse (holding stream2)) ∧
      statusErr (after .tlvParse (holding stream2)).status = 0 ∧
      records (after .tlvParse (holding stream2)) = some [⟨7, [0x11]⟩, ⟨7, [0x22]⟩] :=
  ⟨⟨exec_after (by decide +kernel), by decide, by decide +kernel⟩, exec_after (by decide +kernel), by decide +kernel,
    by decide +kernel⟩

/-- A host write to the last byte of VAL, from a state that meets the invariant. -/
theorem witness_StepKeepsTheInvariant :
    (pending (.writeByte .val 47 1)).Inv ∧
      step (pending (.writeByte .val 47 1)) =
        .next { pending (.writeByte .val 47 1) with script := [], val := [(47, 1)] } :=
  ⟨by decide, rfl⟩

theorem witness_MemoryIsCanonical :
    (Memory.wf 48 ([(0, 7), (47, 9)] : List Host.Cell) ∧
      ∀ a, readCell ([(0, 7), (47, 9)] : List Host.Cell) a = readCell ([(0, 7), (47, 9)] : List Host.Cell) a) ∧
    Memory.wf 24 ([(0, ⟨1, 4⟩), (23, ⟨2, 0⟩)] : List (Nat × RecHead)) ∧
      ∀ a, readCell ([(0, ⟨1, 4⟩), (23, ⟨2, 0⟩)] : List (Nat × RecHead)) a =
        readCell ([(0, ⟨1, 4⟩), (23, ⟨2, 0⟩)] : List (Nat × RecHead)) a :=
  ⟨⟨by decide, fun _ => rfl⟩, by decide, fun _ => rfl⟩

/-- 10_state rule R31: an entry before it with an unwritten value and one after it outside VAL do not matter to the first
entry with the tag; a tag no entry has. -/
theorem test_lookup_beside_bad_entries :
    let s : State := withRecords [(1, 2, 40), (7, 2, 0), (2, 2, 47)] [0x11, 0x22] (holding [])
    records s = none ∧ lookup s 7 = .found [0x11, 0x22] ∧ lookup s 9 = .absent ∧ lookup s 1 = .unreadable := by
  decide +kernel

/-- The last entry of REC with `REC_COUNT` beyond REC; a first entry unwritten, and one whose value is; no entry with the
tag, within REC and beyond; a defined `Records()`. -/
theorem witness_LookupTakesTheFirstRecord :
    (let s : State := { withRecords (List.replicate 23 (1, 2, 0) ++ [(7, 2, 46)]) (List.replicate 48 9) (holding []) with
        recCount := 25 }
     23 < s.recCount.toNat ∧ 23 < s.cfg.recMax ∧ readCell s.recHead 22 = some ⟨1, 2⟩ ∧
      (∀ k, k < 23 → (readCell s.recHead k).map RecHead.tag = some 1) ∧ readCell s.recHead 23 = some ⟨7, 2⟩ ∧
      readCell s.recOff 23 = some 46 ∧ (46 : Word).toNat + (2 : Byte).toNat ≤ s.cfg.valSize ∧
      readRange s.val 46 2 = some [9, 9] ∧ (∀ k, k < 24 → (readCell s.recHead k).map RecHead.tag ≠ some 8) ∧
      s.cfg.recMax < s.recCount.toNat) ∧
    (let s : State := { State.resetIn tiny with recCount := 1 }
     0 < s.recCount.toNat ∧ 0 < s.cfg.recMax ∧ readCell s.recHead 0 = none) ∧
    (let s : State := withRecords [(7, 1, 47)] [] (holding [])
     readCell s.recHead 0 = some ⟨7, 1⟩ ∧ recordAt s 0 = none) ∧
    records (withRecords [(7, 1, 0), (7, 1, 1)] [0x11, 0x22] (holding [])) = some [⟨7, [0x11]⟩, ⟨7, [0x22]⟩] ∧
      (∀ r ∈ ([⟨7, [0x11]⟩, ⟨7, [0x22]⟩] : List Record), r.tag ≠ 8) ∧
      ([⟨7, [0x11]⟩, ⟨7, [0x22]⟩] : List Record) = [] ++ ⟨7, [0x11]⟩ :: [⟨7, [0x22]⟩] := by decide +kernel

end Sys2Proof.Tests
end

/-! ## One host access: what the step does, and what a byte write leaves in the three byte memories -/

namespace Sys2Proof.Machine

/-- A step at an event that launches no command is that event, in the state whose script has moved past it (20_memory rule
R48). -/
theorem step_eq_hostEvent {s : State} {e : HostEvent} {rest : List HostEvent} (hs : s.script = e :: rest)
    (he : commandOf e = none) : step s = hostEvent e { s with script := rest } := by
  simp only [step, hs, he]

theorem hostWrite_of_lt {m : Space} {i size : Nat} {t : State} (h : i < size) : hostWrite m i size t = .next t :=
  if_pos h

theorem cellsOf_writeByte (m m' : ByteSpace) (i : Nat) (b : Byte) (s : State) :
    cellsOf (writeByte m i b s) m' = if m' = m then writeCell (cellsOf s m') i b else cellsOf s m' := by
  cases m <;> cases m' <;> rfl

/-- A byte write is read back, and touches only its own byte of its own space (00_scope rule R8, 20_memory rule R45). -/
theorem readCell_writeByte (m m' : ByteSpace) (i a : Nat) (b : Byte) (s : State) :
    readCell (cellsOf (writeByte m i b s) m') a =
      if m' = m ∧ a = i then some b else readCell (cellsOf s m') a := by
  rw [cellsOf_writeByte]
  by_cases hm : m' = m
  · simp [hm, readCell_writeCell]
  · simp [hm]

/-- A byte write keeps every field but the three byte memories. -/
theorem writeByte_frame (m : ByteSpace) (i : Nat) (b : Byte) (s : State) :
    writeByte m i b s = { s with
      buf := (writeByte m i b s).buf
      extra := (writeByte m i b s).extra
      val := (writeByte m i b s).val } := by
  cases m <;> rfl

/-- A host write of one byte inside its space succeeds. -/
theorem step_writeByte {s : State} {m : ByteSpace} {i : Nat} {b : Byte} {rest : List HostEvent}
    (hs : s.script = .writeByte m i b :: rest) (hi : i < m.size s.cfg) :
    step s = .next (writeByte m i b { s with script := rest }) :=
  (step_eq_hostEvent hs rfl).trans (hostWrite_of_lt hi)

/-- Settles O10: the step is `writeByte`, whose frame and whose read of every byte are lemmas. -/
theorem hostByteWriteThenRead : Obligations.HostByteWriteThenRead := by
  intro s m i b rest hs hi
  refine ⟨_, step_writeByte hs hi, writeByte_frame m i b _, ?_, fun m' a h => ?_⟩
  · exact (readCell_writeByte ..).trans (if_pos ⟨rfl, rfl⟩)
  · exact (readCell_writeByte ..).trans (if_neg h)

end Sys2Proof.Machine

/-! ## Host accesses to the register slots, the byte memories and REC -/

namespace Sys2Proof.Machine

/-- A step at a write of a legal word to `CMD` is the command it encodes (10_state rule R13). -/
theorem step_eq_exec {s : State} {w : Word} {i : Instr} {rest : List HostEvent}
    (hs : s.script = .writeReg 0 w :: rest) (hw : decode w = .ok i) : step s = exec i { s with script := rest } := by
  simp only [step, hs, commandOf, runCommand, hw]

theorem step_readReg {s : State} {n : Nat} {rest : List HostEvent} (hs : s.script = .readReg n :: rest) :
    step s = .next { s with script := rest, readback := s.readback ++ [.word (readReg n s)] } :=
  step_eq_hostEvent hs rfl

theorem commandOf_writeReg {n : Nat} (hn : n ≠ 0) (v : Word) : commandOf (.writeReg n v) = none := by
  cases n with
  | zero => exact absurd rfl hn
  | succ n => rfl

theorem step_writeReg {s : State} {n : Nat} {v : Word} {rest : List HostEvent}
    (hs : s.script = .writeReg n v :: rest) (hn : n ≠ 0) : step s = .next (writeReg n v { s with script := rest }) :=
  step_eq_hostEvent hs (commandOf_writeReg hn v)

/-! ### Register slots -/

/-- The slots in the order of 10_state rule R11, as a host reads them. -/
theorem readReg_eq_getD (n : Nat) (s : State) :
    readReg n s = ([0, s.status, s.bufLen, s.crcAcc, s.crcOff, s.crcCnt, s.sfxBcdDfu.setWidth 32,
      s.sfxIdVendor.setWidth 32, s.sfxIdProduct.setWidth 32, s.sfxBcdDevice.setWidth 32,
      s.sfxExtraLen.setWidth 32, BitVec.ofNat 32 (16 + s.sfxExtraLen.toNat), s.sfxCrc, s.recCount,
      s.tlvAlign] : List Word).getD n 0 := by
  rcases Nat.lt_or_ge n 15 with h | h
  · interval_cases n <;> rfl
  · obtain ⟨k, rfl⟩ := Nat.exists_eq_add_of_le' h
    rfl

/-- Reserved slots read 0 (10_state rule R28). -/
theorem readReg_of_reserved {n : Nat} (hn : 15 ≤ n) (s : State) : readReg n s = 0 := by
  obtain ⟨k, rfl⟩ := Nat.exists_eq_add_of_le' hn
  rfl

/-- Read-only and reserved slots ignore a write (10_state rules R28, R29). -/
theorem writeReg_of_not_writable {n : Nat} (hn : n = 1 ∨ n = 11 ∨ n = 12 ∨ 15 ≤ n) (v : Word) (s : State) :
    writeReg n v s = s := by
  rcases hn with rfl | rfl | rfl | hn
  · rfl
  · rfl
  · rfl
  · obtain ⟨k, rfl⟩ := Nat.exists_eq_add_of_le' hn
    rfl

/-- `SFX_LENGTH` as a sum of words: it does not wrap (10_state rule R21). -/
theorem sfxLength_word (x : Byte) : BitVec.ofNat 32 (16 + x.toNat) = 16 + x.setWidth 32 :=
  BitVec.eq_of_toNat_eq (by simp)

/-- A value truncated to a register's width, as a host reads it back (10_state rules R11, R29). -/
theorem setWidth_setWidth_eq_mask (v : Word) {k : Nat} (hk : k < 32) :
    (v.setWidth k).setWidth 32 = v &&& BitVec.ofNat 32 (2 ^ k - 1) := by
  have hmask : 2 ^ k - 1 < 2 ^ 32 := (Nat.sub_le _ _).trans_lt (Nat.pow_lt_pow_right (by decide) hk)
  have hv : v.toNat % 2 ^ k < 2 ^ 32 := (Nat.mod_le _ _).trans_lt v.isLt
  apply BitVec.eq_of_toNat_eq
  rw [BitVec.toNat_setWidth, BitVec.toNat_setWidth, BitVec.toNat_and, BitVec.toNat_ofNat, Nat.mod_eq_of_lt hmask,
    Nat.mod_eq_of_lt hv, Nat.and_two_pow_sub_one_eq_mod]

/-- A read/write slot reads back as the value truncated to its width (10_state rule R29). -/
theorem readReg_writeReg_same {n : Nat} (hn : 2 ≤ n ∧ n ≤ 10 ∨ n = 13 ∨ n = 14) (v : Word) (s : State) :
    readReg n (writeReg n v s) = v &&& slotMask n := by
  have hword : v &&& 0xFFFFFFFF = v := BitVec.and_allOnes
  rcases hn with ⟨h2, h10⟩ | rfl | rfl
  · interval_cases n
    case _ | _ | _ | _ => exact hword.symm
    case _ | _ | _ | _ => exact setWidth_setWidth_eq_mask v (k := 16) (by decide)
    exact setWidth_setWidth_eq_mask v (k := 8) (by decide)
  · exact hword.symm
  · exact hword.symm

/-- A register write touches no other slot but `SFX_LENGTH`, which is computed (10_state rule R21). -/
theorem readReg_writeReg_other {m n : Nat} (hmn : m ≠ n) (h11 : ¬(n = 10 ∧ m = 11)) (v : Word) (s : State) :
    readReg m (writeReg n v s) = readReg m s := by
  unfold writeReg
  split <;> unfold readReg <;> split <;> simp_all

/-- `SFX_LENGTH` follows `SFX_EXTRA_LEN` (10_state rule R21). -/
theorem readReg_sfxLength_writeReg (v : Word) (s : State) : readReg 11 (writeReg 10 v s) = 16 + (v &&& 0xFF) :=
  (sfxLength_word _).trans (congrArg (16 + ·) (setWidth_setWidth_eq_mask v (k := 8) (by decide)))

/-- A register write changes no memory and none of the model's own fields. -/
theorem writeReg_frame (n : Nat) (v : Word) (s : State) :
    let t := writeReg n v s
    t.cfg = s.cfg ∧ t.script = s.script ∧ t.readback = s.readback ∧
      t.buf = s.buf ∧ t.extra = s.extra ∧ t.recOff = s.recOff ∧ t.recHead = s.recHead ∧ t.val = s.val := by
  unfold writeReg
  split <;> simp

/-! ### Locations -/

section
variable {m : Space} {i size : Nat} {v : ReadValue} {s t : State}

theorem hostRead_written (h : i < size) : hostRead m i size (some v) s = .next (report v s) := if_pos h

theorem hostRead_unwritten (h : i < size) : hostRead m i size none s = .fault (.unwrittenRead m i) := if_pos h

theorem hostRead_outside (h : size ≤ i) (o : Option ReadValue) :
    hostRead m i size o s = .fault (.noSuchLocation m i) := if_neg (Nat.not_lt.2 h)

theorem hostWrite_outside (h : size ≤ i) : hostWrite m i size t = .fault (.noSuchLocation m i) :=
  if_neg (Nat.not_lt.2 h)

end

section
variable {s : State} {m : ByteSpace} {i : Nat} {rest : List HostEvent}

theorem step_readByte (hs : s.script = .readByte m i :: rest) :
    step s = hostRead m.space i (m.size s.cfg) ((readCell (cellsOf s m) i).map .byte) { s with script := rest } := by
  rw [step_eq_hostEvent hs rfl]
  cases m <;> rfl

theorem step_writeByte_outside {b : Byte} (hs : s.script = .writeByte m i b :: rest) (hi : m.size s.cfg ≤ i) :
    step s = .fault (.noSuchLocation m.space i) :=
  (step_eq_hostEvent hs rfl).trans (hostWrite_outside hi)

theorem step_readRec (hs : s.script = .readRec i :: rest) :
    step s = hostRead .recWords i (2 * s.cfg.recMax) ((readRecWord i s).map .word) { s with script := rest } :=
  step_eq_hostEvent hs rfl

theorem step_writeRec {v : Word} (hs : s.script = .writeRec i v :: rest) :
    step s = hostWrite .recWords i (2 * s.cfg.recMax) (writeRecWord i v { s with script := rest }) :=
  step_eq_hostEvent hs rfl

end

/-! ### The words of REC (10_state rule R24) -/

theorem headWord_eq_setWidth (v : Word) : headWord (headOf v) = (v.setWidth 16).setWidth 32 := by
  apply BitVec.eq_of_getLsbD_eq
  intro i hi
  simp only [headWord, headOf, BitVec.getLsbD_append, BitVec.getLsbD_extractLsb', BitVec.getLsbD_setWidth]
  grind

/-- An odd word of REC keeps bits 15:0 of what is written. -/
theorem headWord_headOf (v : Word) : headWord (headOf v) = v &&& 0x0000FFFF :=
  (headWord_eq_setWidth v).trans (setWidth_setWidth_eq_mask v (k := 16) (by decide))

theorem writeRecWord_of_even {j : Nat} (h : j % 2 = 0) (v : Word) (s : State) :
    writeRecWord j v s = { s with recOff := writeCell s.recOff (j / 2) v } := if_pos h

theorem writeRecWord_of_odd {j : Nat} (h : j % 2 ≠ 0) (v : Word) (s : State) :
    writeRecWord j v s = { s with recHead := writeCell s.recHead (j / 2) (headOf v) } := if_neg h

/-- A word write is read back, bits 31:16 dropped in an odd word, and touches no other word of REC. -/
theorem readRecWord_writeRecWord (j k : Nat) (v : Word) (s : State) :
    readRecWord k (writeRecWord j v s) =
      if k = j then some (if j % 2 = 0 then v else v &&& 0x0000FFFF) else readRecWord k s := by
  rw [← headWord_headOf]
  by_cases hj : j % 2 = 0
  · rw [writeRecWord_of_even hj]
    by_cases hk : k % 2 = 0
    · have : k / 2 = j / 2 ↔ k = j := by omega
      simp [readRecWord, hk, hj, readCell_writeCell, this]
    · have : k ≠ j := by rintro rfl; exact hk hj
      simp [readRecWord, hk, this]
  · rw [writeRecWord_of_odd hj]
    by_cases hk : k % 2 = 0
    · have : k ≠ j := by rintro rfl; exact hj hk
      simp [readRecWord, hk, this]
    · have : k / 2 = j / 2 ↔ k = j := by omega
      by_cases hkj : k = j <;> simp [readRecWord, hk, hj, readCell_writeCell, this, hkj]

/-- A word write keeps every field but the two tables of REC. -/
theorem writeRecWord_frame (j : Nat) (v : Word) (s : State) :
    writeRecWord j v s =
      { s with recOff := (writeRecWord j v s).recOff, recHead := (writeRecWord j v s).recHead } := by
  by_cases h : j % 2 = 0
  · simp only [writeRecWord_of_even h]
  · simp only [writeRecWord_of_odd h]

/-! ### The obligations -/

/-- Settles O5: `step` runs the decoded command, and slot 0 reads 0. -/
theorem stepRunsDecodedCommand : Obligations.StepRunsDecodedCommand :=
  ⟨fun _ _ _ _ hs hw => step_eq_exec hs hw, fun _ _ hs => step_readReg hs⟩

/-- Settles O7, by the table of the slots. -/
theorem hostRegisterRead : Obligations.HostRegisterRead := by
  intro s n rest hs
  rw [step_readReg hs, readReg_eq_getD, sfxLength_word]

/-- Settles O8: slots from 15 on read 0 and keep no write. -/
theorem reservedSlotsDoNothing : Obligations.ReservedSlotsDoNothing := by
  intro s n v rest hn
  constructor
  · intro hs
    rw [step_readReg hs, readReg_of_reserved hn]
  · intro hs
    rw [step_writeReg hs (by omega), writeReg_of_not_writable (by omega)]

/-- Settles O9: the step is `writeReg`, whose read of every slot and whose frame are lemmas. -/
theorem hostRegisterWriteTruncates : Obligations.HostRegisterWriteTruncates := by
  intro s n v rest hs hn
  constructor
  · intro hw
    refine ⟨_, step_writeReg hs hn, readReg_writeReg_same (by omega) v _, fun m hmn h11 => ?_, ?_,
      writeReg_frame n v { s with script := rest }⟩
    · exact readReg_writeReg_other hmn h11 v _
    · rintro rfl
      exact readReg_sfxLength_writeReg v _
  · intro hr
    rw [step_writeReg hs hn, writeReg_of_not_writable hr]

/-- Settles O11, by the cases of `hostRead` and `hostWrite`. -/
theorem hostByteReadReturnsOrFaults : Obligations.HostByteReadReturnsOrFaults := by
  intro s m i rest
  refine ⟨fun hs => ⟨fun b hi hb => ?_, fun hi hb => ?_, fun hi => ?_⟩, fun b hs hi => step_writeByte_outside hs hi⟩
  · rw [step_readByte hs, hb]
    exact hostRead_written hi
  · rw [step_readByte hs, hb]
    exact hostRead_unwritten hi
  · rw [step_readByte hs, hostRead_outside hi]

/-- Settles O12: the step is `writeRecWord` or a read of that word, inside REC. -/
theorem recWordWriteThenRead : Obligations.RecWordWriteThenRead := by
  intro s j rest
  refine ⟨fun v hs => ⟨fun hj => ?_, fun hj => ?_⟩, fun hs => ⟨fun v hj hv => ?_, fun hj hv => ?_, fun hj => ?_⟩⟩
  · refine ⟨_, (step_writeRec hs).trans (hostWrite_of_lt hj), writeRecWord_frame j v _, ?_, fun k hk => ?_,
      fun hodd => ?_⟩
    · exact (readRecWord_writeRecWord ..).trans (if_pos rfl)
    · exact (readRecWord_writeRecWord ..).trans (if_neg hk)
    · rw [writeRecWord_of_odd (by omega)]
      exact readCell_writeCell_same ..
  · rw [step_writeRec hs, hostWrite_outside hj]
  · rw [step_readRec hs, hv]
    exact hostRead_written hj
  · rw [step_readRec hs, hv]
    exact hostRead_unwritten hj
  · rw [step_readRec hs, hostRead_outside hj]

/-- Settles O56: after reset nothing is written, and `STATUS` is 0. -/
theorem resetMeetsTheInvariant : Obligations.ResetMeetsTheInvariant := by
  intro c
  have hstatus : statusLegal 0 = true := by decide
  exact ⟨memoryWf_resetIn c, hstatus⟩

end Sys2Proof.Machine

/-! ## Memories in canonical form -/

namespace Sys2Proof.Machine

section
variable {α : Type}

/-- Below every listed address nothing is written. -/
theorem readCell_eq_none_of_lt {m : List (Nat × α)} {a : Nat} (h : ∀ k ∈ m.map Prod.fst, a < k) :
    readCell m a = none := by
  induction m with
  | nil => rfl
  | cons c m ih =>
    obtain ⟨k, v⟩ := c
    obtain ⟨hk, hm⟩ := List.forall_mem_cons.1 h
    rw [readCell, if_neg (Nat.ne_of_gt hk), ih hm]

/-- With rising addresses the first one listed is the lowest one written. -/
theorem le_of_readCell_cons {m : List (Nat × α)} {k a : Nat} {v w : α} (hk : ∀ b ∈ m.map Prod.fst, k < b)
    (h : readCell ((k, v) :: m) a = some w) : k ≤ a := by
  by_contra hlt
  rw [readCell_eq_none_of_lt] at h
  · cases h
  · exact List.forall_mem_cons.2 ⟨not_le.1 hlt, fun b hb => (not_le.1 hlt).trans (hk b hb)⟩

/-- Memories with rising addresses that read alike are the same list: each one's first address is the lowest written. -/
theorem eq_of_readCell_eq {m₁ m₂ : List (Nat × α)} (h₁ : (m₁.map Prod.fst).Pairwise (· < ·))
    (h₂ : (m₂.map Prod.fst).Pairwise (· < ·)) (h : ∀ a, readCell m₁ a = readCell m₂ a) : m₁ = m₂ := by
  induction m₁ generalizing m₂ with
  | nil =>
    cases m₂ with
    | nil => rfl
    | cons d m₂ => simpa [readCell] using h d.1
  | cons c m₁ ih =>
    cases m₂ with
    | nil => simpa [readCell] using h c.1
    | cons d m₂ =>
      obtain ⟨k, v⟩ := c
      obtain ⟨l, w⟩ := d
      obtain ⟨hk, hp₁⟩ := List.pairwise_cons.1 h₁
      obtain ⟨hl, hp₂⟩ := List.pairwise_cons.1 h₂
      have hfirst : k = l := le_antisymm (le_of_readCell_cons hk ((h l).trans (if_pos rfl)))
        (le_of_readCell_cons hl ((h k).symm.trans (if_pos rfl)))
      subst hfirst
      have hvalue : v = w := by simpa [readCell] using h k
      have htail : ∀ a, readCell m₁ a = readCell m₂ a := by
        intro a
        by_cases ha : k = a
        · subst ha
          rw [readCell_eq_none_of_lt hk, readCell_eq_none_of_lt hl]
        · simpa [readCell, ha] using h a
      rw [hvalue, ih hp₁ hp₂ htail]

end

/-- Settles O57, for every kind of cell. -/
theorem memoryIsCanonical : Obligations.MemoryIsCanonical :=
  fun _ _ _ _ h₁ h₂ h => eq_of_readCell_eq h₁.1 h₂.1 h

/-! ## `Lookup` -/

/-- `Lookup` passes over entries with another tag, as far as REC and the record object go. -/
theorem lookup_of_no_tag {s : State} {t : Byte}
    (h : ∀ k, k < s.recCount.toNat → k < s.cfg.recMax → ∃ head, readCell s.recHead k = some head ∧ head.tag ≠ t) :
    lookup s t = if s.recCount.toNat ≤ s.cfg.recMax then .absent else .unreadable := by
  have hskip : lookupFrom s t 0 (min s.recCount.toNat s.cfg.recMax) = .absent :=
    lookupFrom_skip (j := min s.recCount.toNat s.cfg.recMax) 0 0 fun k hk => by
      simpa using h k (by omega) (by omega)
  simp only [lookup, hskip]

/-- `Lookup` ends at the first entry with the tag, or at the first whose tag cannot be read. -/
theorem lookup_of_first {s : State} {t : Byte} {i : Nat} (hcount : i < s.recCount.toNat) (hmax : i < s.cfg.recMax)
    (hbefore : ∀ k, k < i → ∃ head, readCell s.recHead k = some head ∧ head.tag ≠ t) :
    (readCell s.recHead i = none → lookup s t = .unreadable) ∧
      ∀ head, readCell s.recHead i = some head → head.tag = t →
        (recordAt s i = none → lookup s t = .unreadable) ∧
          ∀ r, recordAt s i = some r → lookup s t = .found r.value := by
  obtain ⟨hnone, hsome⟩ := lookupFrom_stop (s := s) (t := t) (n := min s.recCount.toNat s.cfg.recMax) 0
    (by simpa using hbefore) (lt_min hcount hmax)
  rw [Nat.zero_add] at hnone hsome
  refine ⟨fun hi => ?_, fun head hi ht => ⟨fun hr => ?_, fun r hr => ?_⟩⟩
  · simp only [lookup, hnone hi]
  · simp only [lookup, hsome head hi ht, hr]
  · simp only [lookup, hsome head hi ht, hr]

/-- A record is an entry and its value. -/
theorem recordAt_eq_some {s : State} {i : Nat} {r : Record} :
    recordAt s i = some r ↔ ∃ head off, readCell s.recHead i = some head ∧ readCell s.recOff i = some off ∧
      off.toNat + head.len.toNat ≤ s.cfg.valSize ∧ head.tag = r.tag ∧
      readRange s.val off.toNat head.len.toNat = some r.value := by
  unfold recordAt
  constructor
  · intro h
    split at h
    · rename_i head off hhead hoff
      split at h
      · rename_i hsize
        split at h
        · rename_i value hvalue
          cases h
          exact ⟨head, off, hhead, hoff, hsize, rfl, hvalue⟩
        · cases h
      · cases h
    · cases h
  · rintro ⟨head, off, hhead, hoff, hsize, htag, hvalue⟩
    simp [hhead, hoff, hsize, htag, hvalue]

theorem records_eq_some {s : State} {rs : List Record} :
    records s = some rs ↔ s.recCount.toNat ≤ s.cfg.recMax ∧ rs.length = s.recCount.toNat ∧
      ∀ i, (h : i < rs.length) → recordAt s i = some rs[i] := by
  unfold records
  split
  · rename_i hmax
    rw [recordsFrom_eq_some]
    refine ⟨fun ⟨hlen, h⟩ => ⟨hmax, hlen, fun i hi => ?_⟩, fun ⟨_, hlen, h⟩ => ⟨hlen, fun i hi => ?_⟩⟩
    · simpa [hi] using h i (by omega)
    · simpa [hlen, hi] using h i (by omega)
  · simp_all

/-- The tag of a record stands in its entry. -/
theorem recHead_of_records {s : State} {rs : List Record} (h : records s = some rs) {i : Nat} (hi : i < rs.length) :
    ∃ head, readCell s.recHead i = some head ∧ head.tag = rs[i].tag := by
  obtain ⟨-, -, hrec⟩ := records_eq_some.1 h
  obtain ⟨head, -, hhead, -, -, htag, -⟩ := recordAt_eq_some.1 (hrec i hi)
  exact ⟨head, hhead, htag⟩

/-- `Lookup` in a defined record object is the value of the first record with the tag. -/
theorem lookup_of_records {s : State} {t : Byte} {front back : List Record} {r : Record}
    (hrs : records s = some (front ++ r :: back)) (htag : r.tag = t) (hfront : ∀ q ∈ front, q.tag ≠ t) :
    lookup s t = .found r.value := by
  obtain ⟨hmax, hlen, hrec⟩ := records_eq_some.1 hrs
  have hi : front.length < (front ++ r :: back).length := by simp
  have hr : (front ++ r :: back)[front.length] = r := by simp
  obtain ⟨head, hhead, hheadTag⟩ := recHead_of_records hrs hi
  have hbefore : ∀ k, k < front.length → ∃ head, readCell s.recHead k = some head ∧ head.tag ≠ t := by
    intro k hk
    obtain ⟨head, hhead, hheadTag⟩ := recHead_of_records hrs (hk.trans hi)
    rw [List.getElem_append_left hk] at hheadTag
    exact ⟨head, hhead, hheadTag ▸ hfront _ (List.getElem_mem hk)⟩
  obtain ⟨-, hsome⟩ := lookup_of_first (by omega) (by omega) hbefore
  exact (hsome head hhead (by rw [hheadTag, hr, htag])).2 r (by rw [hrec _ hi, hr])

/-- Settles O58: the first entry with the tag decides; `Records()` names the same entries. -/
theorem lookupTakesTheFirstRecord : Obligations.LookupTakesTheFirstRecord := by
  intro s t
  refine ⟨fun i hcount hmax hbefore => ?_, fun hother => ?_, fun rs hrs => ?_⟩
  · obtain ⟨hnone, hsome⟩ := lookup_of_first hcount hmax hbefore
    constructor
    · intro head off value hhead htag hoff hsize hvalue
      have hrec : recordAt s i = some ⟨head.tag, value⟩ :=
        recordAt_eq_some.2 ⟨head, off, hhead, hoff, hsize, rfl, hvalue⟩
      exact (hsome head hhead htag).2 _ hrec
    · rintro (hhead | ⟨head, hhead, htag, hrec⟩)
      · exact hnone hhead
      · exact (hsome head hhead htag).1 hrec
  · exact ⟨fun hle => (lookup_of_no_tag hother).trans (if_pos hle),
      fun hlt => (lookup_of_no_tag hother).trans (if_neg (Nat.not_le.2 hlt))⟩
  · obtain ⟨hmax, hlen, -⟩ := records_eq_some.1 hrs
    constructor
    · intro hne
      refine (lookup_of_no_tag fun k hk _ => ?_).trans (if_pos hmax)
      obtain ⟨head, hhead, htag⟩ := recHead_of_records hrs (hlen ▸ hk)
      exact ⟨head, hhead, htag ▸ hne _ (List.getElem_mem _)⟩
    · rintro front r back rfl htag hfront
      exact lookup_of_records hrs htag hfront

end Sys2Proof.Machine
/-! ## How a command ends, said once -/

namespace Sys2Proof.Machine

/-- What each command's rule writes where it succeeds, `STATUS` apart (40_crc rules R95, R96, 41_suffix rules R116,
R124, 42_tlv rules R143, R152, 43_workflow rules R172, R175, R180). -/
inductive CommandWrites (s : State) : Instr → State → Prop
  | crcInit : CommandWrites s .crcInit { s with crcAcc := defaultSeed s.cfg }
  | crcCompute {bytes : List Byte} (hb : s.bufLen.toNat ≤ s.cfg.bufSize)
    (hrange : s.crcOff.toNat + s.crcCnt.toNat ≤ s.bufLen.toNat)
    (hbytes : readRange s.buf s.crcOff.toNat s.crcCnt.toNat = some bytes) :
    CommandWrites s .crcCompute { s with crcAcc := crc s.cfg bytes s.crcAcc }
  | sfxParse {v : Bool} {x : Suffix} (hx : parseSuffix v s = .ok x) : CommandWrites s (.sfxParse v) (writeBank x s)
  | sfxSerialize {body extra : List Byte} {c : Word} (hb : s.bufLen.toNat ≤ s.cfg.bufSize)
    (hmax : s.sfxExtraLen.toNat ≤ extraMax) (hfit : s.bufLen.toNat + s.sfxExtraLen.toNat + 16 ≤ s.cfg.bufSize)
    (hbody : readRange s.buf 0 s.bufLen.toNat = some body)
    (hextra : readRange s.extra 0 s.sfxExtraLen.toNat = some extra)
    (hc : c = trailerCrc s.cfg body (fieldBlock s.sfxBcdDevice s.sfxIdProduct s.sfxIdVendor s.sfxBcdDfu extra)) :
    CommandWrites s .sfxSerialize
      { appendImage (trailer s.sfxBcdDevice s.sfxIdProduct s.sfxIdVendor s.sfxBcdDfu extra c) s with sfxCrc := c }
  | tlvParse {rs : List Record} (hb : s.bufLen.toNat ≤ s.cfg.bufSize) (hrs : parseTlv s.buf s.bufLen.toNat = .ok rs) :
    CommandWrites s .tlvParse (writeRecordObject rs s)
  | tlvSerialize {rs : List Record} (hb : s.bufLen.toNat ≤ s.cfg.bufSize) (hrs : records s = some rs)
    (hlegal : ∀ r ∈ rs, r.legal)
    (hfit : s.bufLen.toNat + (encodeTlv rs s.tlvAlign.toNat).length ≤ s.cfg.bufSize) :
    CommandWrites s .tlvSerialize (appendImage (encodeTlv rs s.tlvAlign.toNat) s)
  | opAdd {force : Bool} {body : List Byte} {c : Word} (hb : s.bufLen.toNat ≤ s.cfg.bufSize)
    (hpresent : force = true ∨ structural s.buf s.bufLen.toNat = .ok false)
    (hfit : s.bufLen.toNat + 16 ≤ s.cfg.bufSize) (hbody : readRange s.buf 0 s.bufLen.toNat = some body)
    (hc : c = trailerCrc s.cfg body (fieldBlock s.sfxBcdDevice s.sfxIdProduct s.sfxIdVendor bcdDfuFixed [])) :
    CommandWrites s (.opAdd force)
      { appendImage (trailer s.sfxBcdDevice s.sfxIdProduct s.sfxIdVendor bcdDfuFixed [] c) s with
        sfxBcdDfu := bcdDfuFixed, sfxExtraLen := 0, sfxCrc := c }
  | opVerify {x : Suffix} (hx : parseSuffix true s = .ok x) (hpair : knownPair x = false) :
    CommandWrites s .opVerify (writeBank x s)
  | opVerifyKnown {x : Suffix} {rs : List Record} (hx : parseSuffix true s = .ok x) (hpair : knownPair x = true)
    (hrs : parseTlv s.buf s.bufLen.toNat = .ok rs) :
    CommandWrites s .opVerify (writeRecordObject rs (writeBank x s))
  | opRemove {force : Bool} {x : Suffix} (hx : parseSuffix true s = .ok x) :
    CommandWrites s (.opRemove force)
      { writeBank x s with bufLen := BitVec.ofNat 32 (s.bufLen.toNat - x.size) }

/-- How a command ends: it fails with only `STATUS` changed, it succeeds with its rule's writes, or it is OP_VERIFY of
the known pair with a malformed record list, which keeps the bank (60_exceptions rules R203, R204, 43_workflow rule
R179). -/
inductive CommandEnds (i : Instr) (s : State) : State → Prop
  | fails (k : ErrKind) : CommandEnds i s (setStatus i.opc false k s)
  | writes {u : State} (pfx : Bool) (hu : CommandWrites s i u) : CommandEnds i s (setStatus i.opc pfx .ok u)
  | malformedList {x : Suffix} (hi : i = .opVerify) (hx : parseSuffix true s = .ok x) (hpair : knownPair x = true)
    (hlist : parseTlv s.buf s.bufLen.toNat = .error (.error .malformedTlv)) :
    CommandEnds i s (setStatus i.opc false .malformedTlv (writeBank x s))

theorem CommandEnds.of_conclude {i : Instr} {s t : State} {r : Cmd State} (h : conclude i.opc false s r = .next t)
    (hr : ∀ u, r = .ok u → CommandWrites s i u) : CommandEnds i s t := by
  rcases conclude_eq_next.1 h with ⟨u, hu, rfl⟩ | ⟨k, -, rfl⟩
  · exact .writes false (hr u hu)
  · exact .fails k

/-- The TLV scan fails with `MalformedTlv` only (42_tlv rule R142). -/
theorem scanTlv_error_kind {buf : List Host.Cell} {n fuel off : Nat} {k : ErrKind}
    (h : scanTlv buf n fuel off = .error (.error k)) : k = .malformedTlv := by
  induction fuel generalizing off with
  | zero => simpa [scanTlv, eq_comm] using h
  | succ fuel ih =>
    have hvalue : ∀ a m, readBytes .buf buf a m ≠ .error (.error k) := fun a m hv => by
      obtain ⟨_, _, _, _, hf⟩ := readBytes_eq_error hv
      cases hf
    simp only [scanTlv, Cmd.bind_eq_error, require_eq_error, readByte_eq_error, Stop.error.injEq, reduceCtorEq,
      and_false, false_or] at h
    rcases h with ⟨-, rfl⟩ | ⟨_, -, size, -, tag, -, h⟩
    · rfl
    · split at h
      · simp at h
      · simp only [Cmd.bind_eq_error, require_eq_error, Stop.error.injEq, hvalue, false_or, Cmd.pure_eq,
          reduceCtorEq, and_false, exists_false, or_false] at h
        rcases h with ⟨-, rfl⟩ | ⟨_, -, ⟨-, rfl⟩ | ⟨_, -, value, -, h⟩⟩
        · rfl
        · rfl
        · exact ih h

theorem execOpVerify_ends {s t : State} (h : execOpVerify s = .next t) : CommandEnds .opVerify s t := by
  unfold execOpVerify at h
  split at h
  · exact .of_conclude h (by simp)
  · rename_i x hx
    split at h
    · rename_i hpair
      rcases conclude_eq_next.1 h with ⟨u, hu, rfl⟩ | ⟨k, hk, rfl⟩
      · obtain ⟨rs, hrs, hu⟩ := Cmd.bind_eq_ok.1 hu
        cases hu
        exact .writes true (.opVerifyKnown hx hpair hrs)
      · have hlist : parseTlv s.buf s.bufLen.toNat = .error (.error k) := by simpa [Cmd.bind_eq_error] using hk
        obtain rfl := scanTlv_error_kind hlist
        exact .malformedList rfl hx hpair hlist
    · rename_i hpair
      exact .of_conclude h fun u hu => by cases hu; exact .opVerify hx (by simpa using hpair)

/-- Every command that ends, ends in one of these ways. -/
theorem exec_ends {i : Instr} {s t : State} (h : exec i s = .next t) : CommandEnds i s t := by
  cases i with
  | crcInit =>
    cases h
    exact .writes false .crcInit
  | crcCompute =>
    refine .of_conclude h fun u hu => ?_
    obtain ⟨hb, hrange, bytes, hbytes, rfl⟩ := crcComputeEffect_eq_ok.1 hu
    exact .crcCompute hb hrange hbytes
  | sfxParse v =>
    refine .of_conclude h fun u hu => ?_
    obtain ⟨x, hx, hu⟩ := Cmd.bind_eq_ok.1 hu
    cases hu
    exact .sfxParse hx
  | sfxSerialize =>
    refine .of_conclude h fun u hu => ?_
    obtain ⟨hb, hmax, hfit, body, extra, c, hbody, hextra, hc, rfl⟩ := sfxSerializeEffect_eq_ok.1 hu
    exact .sfxSerialize hb hmax hfit hbody hextra hc
  | tlvParse =>
    refine .of_conclude h fun u hu => ?_
    obtain ⟨_, hb, hu⟩ := Cmd.bind_eq_ok.1 hu
    obtain ⟨rs, hrs, hu⟩ := Cmd.bind_eq_ok.1 hu
    cases hu
    exact .tlvParse (require_eq_ok.1 hb) hrs
  | tlvSerialize =>
    refine .of_conclude h fun u hu => ?_
    obtain ⟨hb, hmax, ds, rs, hds, hrs, hfit, rfl⟩ := tlvSerializeEffect_eq_ok.1 hu
    obtain ⟨hrecords, hlegal⟩ := records_eq_of_entries hmax hds hrs
    exact .tlvSerialize hb hrecords hlegal hfit
  | opAdd force =>
    refine .of_conclude h fun u hu => ?_
    obtain ⟨hb, hpresent, hfit, body, c, hbody, hc, rfl⟩ := opAddEffect_eq_ok.1 hu
    exact .opAdd hb hpresent hfit hbody hc
  | opVerify => exact execOpVerify_ends h
  | opRemove force =>
    refine .of_conclude h fun u hu => ?_
    obtain ⟨x, hx, hu⟩ := Cmd.bind_eq_ok.1 hu
    cases hu
    exact .opRemove hx

/-! ## What a command leaves alone -/

/-! ### Registers -/

section
variable {n : Nat}

theorem readReg_setStatus (hn : n ≠ 1) (op : Byte) (pfx : Bool) (k : ErrKind) (s : State) :
    readReg n (setStatus op pfx k s) = readReg n s := by
  unfold readReg; split <;> simp_all

theorem readReg_appendImage (hn : n ≠ 2) (bs : List Byte) (s : State) :
    readReg n (appendImage bs s) = readReg n s := by
  unfold readReg; split <;> simp_all

theorem readReg_writeBank (hn : n < 6 ∨ 12 < n) (x : Suffix) (s : State) :
    readReg n (writeBank x s) = readReg n s := by
  unfold readReg; split <;> simp_all

theorem readReg_writeRecordObject (hn : n ≠ 13) (rs : List Record) (s : State) :
    readReg n (writeRecordObject rs s) = readReg n s := by
  unfold readReg; split <;> simp_all

theorem readReg_with_sfxCrc (hn : n ≠ 12) (c : Word) (s : State) : readReg n { s with sfxCrc := c } = readReg n s := by
  unfold readReg; split <;> simp_all

/-- The bank registers OP_ADD writes (43_workflow rule R172). -/
theorem readReg_with_freshBank (hn : n < 6 ∨ 6 < n ∧ n < 10 ∨ 12 < n) (dfu : Half) (len : Byte) (c : Word) (s : State) :
    readReg n { s with sfxBcdDfu := dfu, sfxExtraLen := len, sfxCrc := c } = readReg n s := by
  unfold readReg; split <;> simp_all

end

/-- The model's own fields are as they were. -/
def SameHost (s t : State) : Prop := t.cfg = s.cfg ∧ t.script = s.script ∧ t.readback = s.readback

theorem CommandWrites.sameHost {i : Instr} {s u : State} (h : CommandWrites s i u) : SameHost s u := by
  cases h <;> simp [SameHost]

/-- The writes of a rule stay in the slots of its row (10_state rule R11, 30_encoding rule R63). -/
theorem CommandWrites.readReg_eq {i : Instr} {s u : State} (h : CommandWrites s i u) {n : Nat}
    (hn : n ∉ i.slotsWritten) : readReg n u = readReg n s := by
  cases h with simp only [Instr.slotsWritten, List.mem_cons, List.not_mem_nil, or_false, not_or] at hn
  | crcInit => exact readReg_writeReg_other (n := 3) (by omega) (by omega) _ s
  | crcCompute => exact readReg_writeReg_other (n := 3) (by omega) (by omega) _ s
  | sfxParse => exact readReg_writeBank (by omega) _ s
  | sfxSerialize => rw [readReg_with_sfxCrc (by omega), readReg_appendImage (by omega)]
  | tlvParse => exact readReg_writeRecordObject (by omega) _ s
  | tlvSerialize => exact readReg_appendImage (by omega) _ s
  | opAdd => rw [readReg_with_freshBank (by omega), readReg_appendImage (by omega)]
  | opVerify => exact readReg_writeBank (by omega) _ s
  | opVerifyKnown => rw [readReg_writeRecordObject (by omega), readReg_writeBank (by omega)]
  | @opRemove force x =>
    exact (readReg_writeReg_other (n := 2) (by omega) (by omega) _ (writeBank x s)).trans
      (readReg_writeBank (by omega) x s)

theorem status_mem_slotsWritten (i : Instr) : 1 ∈ i.slotsWritten := by cases i <;> simp [Instr.slotsWritten]

/-- Settles O51: each way a command ends keeps the slots outside its row. -/
theorem registerFrame : Obligations.RegisterFrame := by
  intro i s t h
  have hstatus : ∀ n, n ∉ i.slotsWritten → n ≠ 1 := fun n hn h1 => hn (h1 ▸ status_mem_slotsWritten i)
  cases exec_ends h with
  | fails k => exact ⟨fun n hn => readReg_setStatus (hstatus n hn) .., rfl, rfl, rfl⟩
  | writes pfx hu =>
    exact ⟨fun n hn => (readReg_setStatus (hstatus n hn) ..).trans (hu.readReg_eq hn), hu.sameHost⟩
  | @malformedList x hi =>
    subst hi
    refine ⟨fun n hn => (readReg_setStatus (hstatus n hn) ..).trans (readReg_writeBank ?_ x s), rfl, rfl, rfl⟩
    simp only [Instr.slotsWritten, List.mem_cons, List.not_mem_nil, or_false, not_or] at hn
    omega

/-! ### BUF -/

/-- A command writes bytes at `BUF_LEN`: as many as its trailer has (41_suffix rule R124, 43_workflow rule R172), or up
to the new `BUF_LEN` (42_tlv rule R152). -/
def AppendsToBuf (i : Instr) (s t : State) : Prop :=
  ∃ bs : List Byte, t.buf = writeCells s.buf s.bufLen.toNat bs ∧
    (i = .sfxSerialize ∧ bs.length = s.sfxExtraLen.toNat + 16 ∨ (∃ force, i = .opAdd force) ∧ bs.length = 16 ∨
      i = .tlvSerialize ∧ t.bufLen.toNat = s.bufLen.toNat + bs.length)

theorem CommandWrites.buf_eq {i : Instr} {s u : State} (h : CommandWrites s i u) :
    u.buf = s.buf ∨ AppendsToBuf i s u := by
  cases h with
  | sfxSerialize _ _ _ _ hextra =>
    have hlen := readRange_length hextra
    exact .inr ⟨_, rfl, .inl ⟨rfl, by simp [hlen]⟩⟩
  | @opAdd force _ c =>
    have hlen := trailer_length s.sfxBcdDevice s.sfxIdProduct s.sfxIdVendor bcdDfuFixed [] c
    generalize trailer s.sfxBcdDevice s.sfxIdProduct s.sfxIdVendor bcdDfuFixed [] c = bs at hlen ⊢
    exact .inr ⟨bs, rfl, .inr (.inl ⟨⟨force, rfl⟩, hlen⟩)⟩
  | tlvSerialize _ _ _ hfit =>
    have hsize := s.cfg.bufSize_lt
    exact .inr ⟨_, rfl, .inr (.inr ⟨rfl, (BitVec.toNat_ofNat _ _).trans (Nat.mod_eq_of_lt (by omega))⟩)⟩
  | opVerifyKnown => exact .inl (writeRecordObject_buf _ _)
  | tlvParse => exact .inl (writeRecordObject_buf _ _)
  | crcInit | crcCompute | sfxParse | opVerify | opRemove => exact .inl rfl

theorem exec_buf_eq {i : Instr} {s t : State} (h : exec i s = .next t) : t.buf = s.buf ∨ AppendsToBuf i s t := by
  cases exec_ends h with
  | fails k => exact .inl rfl
  | writes pfx hu => exact hu.buf_eq
  | malformedList => exact .inl rfl

/-- Settles O52: a command keeps BUF, or appends at `BUF_LEN`. -/
theorem imageMemoryFrame : Obligations.ImageMemoryFrame := by
  intro i s t h
  rcases exec_buf_eq h with hbuf | ⟨bs, hbuf, happends⟩
  · simp only [hbuf, implies_true, and_self]
  · have hkeep : ∀ a, a < s.bufLen.toNat ∨ s.bufLen.toNat + bs.length ≤ a → readCell t.buf a = readCell s.buf a :=
      fun a ha => hbuf ▸ readCell_writeCells_outside ha
    rcases happends with ⟨rfl, hlen⟩ | ⟨⟨force, rfl⟩, hlen⟩ | ⟨rfl, hlen⟩
    · exact ⟨by simp, fun _ a ha => hkeep a (by omega), by simp, by simp⟩
    · exact ⟨by simp, by simp, fun _ a ha => hkeep a (by omega), by simp⟩
    · exact ⟨by simp, by simp, by simp, fun _ a ha => hkeep a (by omega)⟩

/-! ### EXTRA -/

@[simp] theorem statusErr_statusWord (op : Byte) (pfx : Bool) (k : ErrKind) :
    statusErr (statusWord op pfx k) = k.code := by
  apply BitVec.eq_of_getLsbD_eq
  intro i hi
  rw [statusErr, statusWord, BitVec.getLsbD_extractLsb', BitVec.getLsbD_append]
  simp [hi]

/-- The `extra` of a parsed trailer, as `SFX_EXTRA_LEN` counts it, where the bank is written (41_suffix rule R116); the
bank is written on success and with `MalformedTlv`. -/
def WritesExtra (i : Instr) (s t : State) : Prop :=
  ∃ x : Suffix, t.extra = writeCells s.extra 0 x.extra ∧ t.sfxExtraLen.toNat = x.extra.length ∧
    (i = .opVerify ∨ (∃ v, i = .sfxParse v) ∨ ∃ force, i = .opRemove force) ∧
    (statusErr t.status = 0 ∨ statusErr t.status = 4)

theorem sfxExtraLen_of_parseSuffix {v : Bool} {s : State} {x : Suffix} (h : parseSuffix v s = .ok x) :
    (BitVec.ofNat 8 x.extra.length).toNat = x.extra.length := by
  obtain ⟨-, -, hlen, -⟩ := parseSuffix_eq_ok h
  exact (BitVec.toNat_ofNat _ _).trans (Nat.mod_eq_of_lt (by unfold extraMax at hlen; omega))

theorem exec_extra_eq {i : Instr} {s t : State} (h : exec i s = .next t) : t.extra = s.extra ∨ WritesExtra i s t := by
  cases exec_ends h with
  | fails k => exact .inl rfl
  | writes pfx hu =>
    cases hu with
    | crcInit | crcCompute | sfxSerialize | tlvSerialize | opAdd => exact .inl rfl
    | tlvParse => exact .inl (writeRecordObject_extra _ _)
    | sfxParse hx =>
      exact .inr ⟨_, rfl, sfxExtraLen_of_parseSuffix hx, .inr (.inl ⟨_, rfl⟩), .inl (by simp [ErrKind.code])⟩
    | opVerify hx => exact .inr ⟨_, rfl, sfxExtraLen_of_parseSuffix hx, .inl rfl, .inl (by simp [ErrKind.code])⟩
    | opVerifyKnown hx =>
      refine .inr ⟨_, writeRecordObject_extra _ _, ?_, .inl rfl, .inl (by simp [ErrKind.code])⟩
      simpa using sfxExtraLen_of_parseSuffix hx
    | opRemove hx =>
      exact .inr ⟨_, rfl, sfxExtraLen_of_parseSuffix hx, .inr (.inr ⟨_, rfl⟩), .inl (by simp [ErrKind.code])⟩
  | malformedList hi hx =>
    exact .inr ⟨_, rfl, sfxExtraLen_of_parseSuffix hx, .inl hi, .inr (by simp [ErrKind.code])⟩

/-- Settles O53: a command keeps EXTRA, or writes the bank's `extra` from 0. -/
theorem extraStoreFrame : Obligations.ExtraStoreFrame := by
  intro i s t h
  rcases exec_extra_eq h with hextra | ⟨x, hextra, hlen, hi, herr⟩
  · simp only [hextra, implies_true, and_self]
  · refine ⟨fun hother => ?_, fun _ => ⟨fun hfail => ?_, fun a ha => ?_⟩⟩
    · rcases hi with rfl | ⟨v, rfl⟩ | ⟨force, rfl⟩ <;> simp at hother
    · rcases herr with herr | herr <;> simp [herr] at hfail
    · rw [hextra]
      exact readCell_writeCells_outside (.inr (by omega))

/-! ### `STATUS` is never read -/

section
variable {op : Byte} {pfx : Bool} {s s' : State} {α : Type}

/-- Two commands with the same reads end alike where their writes and their failures do. -/
theorem conclude_bind_congr {x : Cmd α} {f g : α → Cmd State}
    (herror : ∀ k, setStatus op false k s = setStatus op false k s')
    (hok : ∀ a, conclude op pfx s (f a) = conclude op pfx s' (g a)) :
    conclude op pfx s (x >>= f) = conclude op pfx s' (x >>= g) := by
  rcases x with (e | k) | a
  · rfl
  · exact congrArg Host.Outcome.next (herror k)
  · exact hok a

end

theorem writeRecords_with_status (rs : List Record) (i voff : Nat) (s : State) (w : Word) :
    writeRecords rs i voff { s with status := w } = { writeRecords rs i voff s with status := w } := by
  induction rs generalizing i voff s with
  | nil => rfl
  | cons r rs ih => exact ih _ _ { s with recOff := _, recHead := _, val := _ }

theorem setStatus_writeRecordObject_with_status (op : Byte) (pfx : Bool) (k : ErrKind) (rs : List Record) (s : State)
    (w : Word) :
    setStatus op pfx k (writeRecordObject rs { s with status := w }) = setStatus op pfx k (writeRecordObject rs s) := by
  simp only [writeRecordObject, writeRecords_with_status]
  rfl

/-- The entry tests of TLV_SERIALIZE read REC and the configuration only. -/
theorem checkEntries_congr {s s' : State} (hcfg : s'.cfg = s.cfg) (hoff : s'.recOff = s.recOff)
    (hhead : s'.recHead = s.recHead) (i n : Nat) : checkEntries s' i n = checkEntries s i n := by
  induction n generalizing i with
  | zero => rfl
  | succ n ih => rw [checkEntries, checkEntries, hcfg, hoff, hhead, ih]

/-- Settles O49: every command's tests, reads and writes are the same whatever `STATUS` holds. -/
theorem statusIsNeverRead : Obligations.StatusIsNeverRead := by
  intro i s w
  have hstatus : ∀ op k, setStatus op false k { s with status := w } = setStatus op false k s := fun _ _ => rfl
  cases i with
  | crcInit => rfl
  | crcCompute =>
    exact conclude_bind_congr (hstatus _) fun _ => conclude_bind_congr (hstatus _) fun _ =>
      conclude_bind_congr (hstatus _) fun _ => rfl
  | sfxParse v => exact conclude_bind_congr (hstatus _) fun _ => rfl
  | sfxSerialize =>
    exact conclude_bind_congr (hstatus _) fun _ => conclude_bind_congr (hstatus _) fun _ =>
      conclude_bind_congr (hstatus _) fun _ => conclude_bind_congr (hstatus _) fun _ =>
      conclude_bind_congr (hstatus _) fun _ => rfl
  | tlvParse =>
    exact conclude_bind_congr (hstatus _) fun _ => conclude_bind_congr (hstatus _) fun rs =>
      congrArg Host.Outcome.next (setStatus_writeRecordObject_with_status 0x20 false .ok rs s w)
  | tlvSerialize =>
    have hentries : checkEntries { s with status := w } 0 s.recCount.toNat = checkEntries s 0 s.recCount.toNat :=
      checkEntries_congr (s := s) (s' := { s with status := w }) rfl rfl rfl 0 _
    simp only [exec, execTlvSerialize, tlvSerializeEffect, hentries]
    exact conclude_bind_congr (hstatus _) fun _ => conclude_bind_congr (hstatus _) fun _ =>
      conclude_bind_congr (hstatus _) fun _ => conclude_bind_congr (hstatus _) fun _ =>
      conclude_bind_congr (hstatus _) fun _ => rfl
  | opAdd force =>
    cases force <;>
      exact conclude_bind_congr (hstatus _) fun _ => conclude_bind_congr (hstatus _) fun _ =>
        conclude_bind_congr (hstatus _) fun _ => conclude_bind_congr (hstatus _) fun _ =>
        conclude_bind_congr (hstatus _) fun _ => rfl
  | opVerify =>
    have hparse : parseSuffix true { s with status := w } = parseSuffix true s := rfl
    simp only [exec, execOpVerify, hparse]
    rcases parseSuffix true s with (f | k) | x
    · rfl
    · rfl
    · by_cases hknown : knownPair x = true
      · simp only [hknown, if_true]
        exact conclude_bind_congr (fun _ => rfl) fun rs =>
          congrArg Host.Outcome.next (setStatus_writeRecordObject_with_status 0x31 true .ok rs (writeBank x s) w)
      · simp only [hknown]
        rfl
  | opRemove force => exact conclude_bind_congr (hstatus _) fun _ => rfl

end Sys2Proof.Machine

/-! ## A command that ends does not depend on unwritten locations

A state is compared with one that is filled: some locations nobody has written hold a value there. -/

namespace Sys2Proof.Machine

section
variable {α β γ δ : Type}

/-- `m'` is `m` with the contents `d` where `m` is unwritten; filling nothing is no change. -/
structure FilledBy (d : Nat → Option α) (m m' : List (Nat × α)) : Prop where
  read : ∀ a, readCell m' a = (readCell m a).or (d a)
  same : (∀ a, d a = none) → m' = m

section
variable {d : Nat → Option α} {m m' : List (Nat × α)}

theorem FilledBy.of_nothing (hd : ∀ a, d a = none) (m : List (Nat × α)) : FilledBy d m m :=
  ⟨fun a => by rw [hd, Option.or_none], fun _ => rfl⟩

/-- One unwritten location filled. -/
theorem FilledBy.of_writeCell {a : Nat} {v : α} (h : readCell m a = none)
    (hd : ∀ c, d c = if c = a then some v else none) : FilledBy d m (writeCell m a v) where
  read c := by
    rw [readCell_writeCell, hd]
    by_cases hc : c = a <;> simp [hc, h]
  same hnone := by simpa [hd] using hnone a

/-- The same write in both keeps them comparable. -/
theorem FilledBy.writeCell (h : FilledBy d m m') (a : Nat) (v : α) :
    FilledBy d (writeCell m a v) (writeCell m' a v) where
  read c := by
    rw [readCell_writeCell, readCell_writeCell, h.read]
    split <;> rfl
  same hd := by rw [h.same hd]

theorem FilledBy.writeCells (h : FilledBy d m m') (a : Nat) (vs : List α) :
    FilledBy d (writeCells m a vs) (writeCells m' a vs) := by
  induction vs generalizing m m' a with
  | nil => exact h
  | cons v vs ih => exact ih (h.writeCell a v) (a + 1)

theorem FilledBy.readCell_eq (h : FilledBy d m m') {a : Nat} {v : α} (hv : readCell m a = some v) :
    readCell m' a = some v := by rw [h.read, hv]; rfl

theorem FilledBy.readRange_eq (h : FilledBy d m m') {a n : Nat} {vs : List α} (hvs : readRange m a n = some vs) :
    readRange m' a n = some vs := by
  obtain ⟨hlen, hread⟩ := readRange_eq_some_iff.1 hvs
  refine readRange_eq_some_iff.2 ⟨hlen, fun i hi => ?_⟩
  have hi' : i < vs.length := hlen ▸ hi
  rw [List.getElem?_eq_getElem hi']
  exact h.readCell_eq (by rw [hread i hi, List.getElem?_eq_getElem hi'])

end

/-! ### The tests and reads of a command -/

/-- Where `x` ends, with a value or an error kind, `y` ends the same way, up to `R` between the values. -/
def EndsLike (R : α → β → Prop) (x : Cmd α) (y : Cmd β) : Prop :=
  (∀ a, x = .ok a → ∃ b, y = .ok b ∧ R a b) ∧ ∀ k, x = .error (.error k) → y = .error (.error k)

/-- Both end alike with the same value. -/
abbrev EndsSame (x y : Cmd α) : Prop := EndsLike Eq x y

theorem EndsLike.refl (x : Cmd α) : EndsSame x x := ⟨fun a h => ⟨a, h, rfl⟩, fun _ h => h⟩

theorem EndsLike.ok {R : α → β → Prop} {a : α} {b : β} (h : R a b) : EndsLike R (.ok a : Cmd α) (.ok b) :=
  ⟨fun _ ha => ⟨b, rfl, by cases ha; exact h⟩, fun _ hk => by cases hk⟩

theorem EndsLike.error (R : α → β → Prop) (e : Stop) : EndsLike R (.error e : Cmd α) (.error e) :=
  ⟨fun _ ha => (by cases ha), fun _ hk => (by cases hk; rfl)⟩

/-- Commands with the same reads go on alike. -/
theorem EndsLike.bind {R : γ → δ → Prop} {x y : Cmd α} {f : α → Cmd γ} {g : α → Cmd δ} (hx : EndsSame x y)
    (hf : ∀ a, EndsLike R (f a) (g a)) : EndsLike R (x >>= f) (y >>= g) := by
  obtain ⟨hok, herror⟩ := hx
  constructor
  · intro c hc
    obtain ⟨a, ha, hfa⟩ := Cmd.bind_eq_ok.1 hc
    obtain ⟨_, hy, rfl⟩ := hok a ha
    rw [hy]
    exact (hf a).1 c hfa
  · intro k hk
    rcases Cmd.bind_eq_error.1 hk with hk | ⟨a, ha, hfa⟩
    · rw [herror k hk]
      rfl
    · obtain ⟨_, hy, rfl⟩ := hok a ha
      rw [hy]
      exact (hf a).2 k hfa

theorem demand_endsSame {d : Nat → Option α} {m m' : List (Nat × α)} (h : FilledBy d m m') (sp : Space) (i a : Nat) :
    EndsSame (demand sp i (readCell m a)) (demand sp i (readCell m' a)) :=
  ⟨fun v hv => ⟨v, demand_eq_ok.2 (h.readCell_eq (demand_eq_ok.1 hv)), rfl⟩, fun k hk => by simp at hk⟩

end

section
variable {d : Nat → Option Byte} {buf buf' : List Host.Cell}

theorem readBytes_endsSame (h : FilledBy d buf buf') (sp : Space) (a n : Nat) :
    EndsSame (readBytes sp buf a n) (readBytes sp buf' a n) where
  left bs hbs := ⟨bs, readBytes_eq_ok.2 (h.readRange_eq (readBytes_eq_ok.1 hbs)), rfl⟩
  right k hk := by
    obtain ⟨_, _, _, _, hfault⟩ := readBytes_eq_error hk
    cases hfault

theorem readByte_endsSame (h : FilledBy d buf buf') (sp : Space) (a : Nat) :
    EndsSame (readByte sp buf a) (readByte sp buf' a) := demand_endsSame h sp a a

theorem readHalf_endsSame (h : FilledBy d buf buf') (a : Nat) : EndsSame (readHalf buf a) (readHalf buf' a) :=
  (readByte_endsSame h _ _).bind fun _ => (readByte_endsSame h _ _).bind fun _ => .refl _

theorem readWord_endsSame (h : FilledBy d buf buf') (a : Nat) : EndsSame (readWord buf a) (readWord buf' a) :=
  (readByte_endsSame h _ _).bind fun _ => (readByte_endsSame h _ _).bind fun _ =>
    (readByte_endsSame h _ _).bind fun _ => (readByte_endsSame h _ _).bind fun _ => .refl _

theorem structural_endsSame (h : FilledBy d buf buf') (n : Nat) : EndsSame (structural buf n) (structural buf' n) := by
  unfold structural
  split
  · exact .refl _
  · exact (readBytes_endsSame h _ _ _).bind fun _ => (readByte_endsSame h _ _).bind fun _ => .refl _

theorem readSuffix_endsSame (h : FilledBy d buf buf') (n : Nat) : EndsSame (readSuffix buf n) (readSuffix buf' n) :=
  (readByte_endsSame h _ _).bind fun _ => (readHalf_endsSame h _).bind fun _ => (readHalf_endsSame h _).bind fun _ =>
    (readHalf_endsSame h _).bind fun _ => (readHalf_endsSame h _).bind fun _ =>
    (readBytes_endsSame h _ _ _).bind fun _ => (readWord_endsSame h _).bind fun _ => .refl _

theorem scanTlv_endsSame (h : FilledBy d buf buf') (n fuel off : Nat) :
    EndsSame (scanTlv buf n fuel off) (scanTlv buf' n fuel off) := by
  induction fuel generalizing off with
  | zero => exact .refl _
  | succ fuel ih =>
    refine EndsLike.bind (.refl _) fun _ => (readByte_endsSame h _ _).bind fun size =>
      (readByte_endsSame h _ _).bind fun tag => ?_
    split
    · exact .refl _
    · exact EndsLike.bind (.refl _) fun _ => EndsLike.bind (.refl _) fun _ =>
        (readBytes_endsSame h _ _ _).bind fun _ => (ih _).bind fun _ => .refl _

theorem readValues_endsSame (h : FilledBy d buf buf') (ds : List Descriptor) :
    EndsSame (readValues buf ds) (readValues buf' ds) := by
  induction ds with
  | nil => exact .refl _
  | cons e ds ih => exact (readBytes_endsSame h _ _ _).bind fun _ => ih.bind fun _ => .refl _

end

/-! ### The state -/

/-- Contents for unwritten locations of every memory. -/
structure Fill where
  bytes : ByteSpace → Nat → Option Byte
  off : Nat → Option Word
  head : Nat → Option RecHead

/-- `s'` is `s` with its memories filled; nothing else differs. -/
inductive State.Filled (d : Fill) (s : State) : State → Prop
  | mk {buf extra val : List Host.Cell} {recOff : List (Nat × Word)} {recHead : List (Nat × RecHead)}
    (hbuf : FilledBy (d.bytes .buf) s.buf buf) (hextra : FilledBy (d.bytes .extra) s.extra extra)
    (hval : FilledBy (d.bytes .val) s.val val) (hoff : FilledBy d.off s.recOff recOff)
    (hhead : FilledBy d.head s.recHead recHead) :
    State.Filled d s { s with buf := buf, extra := extra, val := val, recOff := recOff, recHead := recHead }

section
variable {d : Fill} {s s' : State}

theorem setStatus_filled (h : State.Filled d s s') (op : Byte) (pfx : Bool) (k : ErrKind) :
    State.Filled d (setStatus op pfx k s) (setStatus op pfx k s') := by
  obtain ⟨hbuf, hextra, hval, hoff, hhead⟩ := h
  exact .mk hbuf hextra hval hoff hhead

theorem writeBank_filled (h : State.Filled d s s') (x : Suffix) :
    State.Filled d (writeBank x s) (writeBank x s') := by
  obtain ⟨hbuf, hextra, hval, hoff, hhead⟩ := h
  exact .mk (s := writeBank x s) hbuf (hextra.writeCells 0 x.extra) hval hoff hhead

theorem appendImage_filled (h : State.Filled d s s') (bs : List Byte) :
    State.Filled d (appendImage bs s) (appendImage bs s') := by
  obtain ⟨hbuf, hextra, hval, hoff, hhead⟩ := h
  exact .mk (s := appendImage bs s) (hbuf.writeCells _ bs) hextra hval hoff hhead

theorem writeRecords_filled (h : State.Filled d s s') (rs : List Record) (i voff : Nat) :
    State.Filled d (writeRecords rs i voff s) (writeRecords rs i voff s') := by
  induction rs generalizing i voff s s' with
  | nil => exact h
  | cons r rs ih =>
    obtain ⟨hbuf, hextra, hval, hoff, hhead⟩ := h
    have hstep := State.Filled.mk
      (s := { s with
        recOff := writeCell s.recOff i (BitVec.ofNat 32 voff)
        recHead := writeCell s.recHead i ⟨r.tag, BitVec.ofNat 8 r.value.length⟩
        val := writeCells s.val voff r.value })
      hbuf hextra (hval.writeCells voff r.value) (hoff.writeCell i _) (hhead.writeCell i _)
    exact ih hstep _ _

theorem writeRecordObject_filled (h : State.Filled d s s') (rs : List Record) :
    State.Filled d (writeRecordObject rs s) (writeRecordObject rs s') := by
  have hrs := writeRecords_filled h rs 0 0
  unfold writeRecordObject
  generalize writeRecords rs 0 0 s = u at hrs
  generalize writeRecords rs 0 0 s' = u' at hrs
  obtain ⟨hbuf, hextra, hval, hoff, hhead⟩ := hrs
  exact .mk hbuf hextra hval hoff hhead

theorem parseSuffix_endsSame (h : State.Filled d s s') (v : Bool) :
    EndsSame (parseSuffix v s) (parseSuffix v s') := by
  obtain ⟨hbuf, -, -, -, -⟩ := h
  refine EndsLike.bind (.refl _) fun _ => (structural_endsSame hbuf _).bind fun _ =>
    EndsLike.bind (.refl _) fun _ => (readSuffix_endsSame hbuf _).bind fun _ => ?_
  split
  · exact (readBytes_endsSame hbuf _ _ _).bind fun _ => .refl _
  · exact .refl _

theorem checkEntries_endsSame (h : State.Filled d s s') (i n : Nat) :
    EndsSame (checkEntries s i n) (checkEntries s' i n) := by
  obtain ⟨-, -, -, hoff, hhead⟩ := h
  induction n generalizing i with
  | zero => exact .refl _
  | succ n ih =>
    exact (demand_endsSame hhead _ _ _).bind fun _ => EndsLike.bind (.refl _) fun _ =>
      EndsLike.bind (.refl _) fun _ => (demand_endsSame hoff _ _ _).bind fun _ =>
      EndsLike.bind (.refl _) fun _ => (ih _).bind fun _ => .refl _

/-! ### The commands -/

theorem crcComputeEffect_filled (h : State.Filled d s s') :
    EndsLike (State.Filled d) (crcComputeEffect s) (crcComputeEffect s') := by
  obtain ⟨hbuf, hextra, hval, hoff, hhead⟩ := h
  exact EndsLike.bind (.refl _) fun _ => EndsLike.bind (.refl _) fun _ => (readBytes_endsSame hbuf _ _ _).bind
    fun bytes => .ok (State.Filled.mk (s := { s with crcAcc := crc s.cfg bytes s.crcAcc }) hbuf hextra hval hoff hhead)

theorem sfxSerializeEffect_filled (h : State.Filled d s s') :
    EndsLike (State.Filled d) (sfxSerializeEffect s) (sfxSerializeEffect s') := by
  obtain ⟨hbuf, hextra, hval, hoff, hhead⟩ := h
  exact EndsLike.bind (.refl _) fun _ => EndsLike.bind (.refl _) fun _ => EndsLike.bind (.refl _) fun _ =>
    (readBytes_endsSame hbuf _ _ _).bind fun _ => (readBytes_endsSame hextra _ _ _).bind fun _ =>
    .ok (State.Filled.mk (s := { appendImage _ s with sfxCrc := _ }) (hbuf.writeCells _ _) hextra hval hoff hhead)

theorem tlvSerializeEffect_filled (h : State.Filled d s s') :
    EndsLike (State.Filled d) (tlvSerializeEffect s) (tlvSerializeEffect s') := by
  have hentries := checkEntries_endsSame h 0 s.recCount.toNat
  obtain ⟨hbuf, hextra, hval, hoff, hhead⟩ := h
  exact EndsLike.bind (.refl _) fun _ => EndsLike.bind (.refl _) fun _ => hentries.bind fun _ =>
    EndsLike.bind (.refl _) fun _ => (readValues_endsSame hval _).bind fun _ =>
    .ok (appendImage_filled (.mk hbuf hextra hval hoff hhead) _)

/-- The registers OP_ADD writes beside the image (43_workflow rule R172). -/
theorem freshBank_filled (h : State.Filled d s s') (bs : List Byte) (dfu : Half) (len : Byte) (c : Word) :
    State.Filled d { appendImage bs s with sfxBcdDfu := dfu, sfxExtraLen := len, sfxCrc := c }
      { appendImage bs s' with sfxBcdDfu := dfu, sfxExtraLen := len, sfxCrc := c } := by
  obtain ⟨hbuf, hextra, hval, hoff, hhead⟩ := h
  exact .mk (s := { appendImage bs s with sfxBcdDfu := dfu, sfxExtraLen := len, sfxCrc := c }) (hbuf.writeCells _ bs)
    hextra hval hoff hhead

theorem opAddEffect_filled (h : State.Filled d s s') (force : Bool) :
    EndsLike (State.Filled d) (opAddEffect force s) (opAddEffect force s') := by
  obtain ⟨hbuf, hextra, hval, hoff, hhead⟩ := h
  have h := State.Filled.mk hbuf hextra hval hoff hhead
  have hpresent := structural_endsSame hbuf s.bufLen.toNat
  cases force with
  | false =>
    exact EndsLike.bind (.refl _) fun _ => hpresent.bind fun _ => EndsLike.bind (.refl _) fun _ =>
      EndsLike.bind (.refl _) fun _ => (readBytes_endsSame hbuf _ _ _).bind fun _ => .ok (freshBank_filled h _ _ _ _)
  | true =>
    exact EndsLike.bind (.refl _) fun _ => EndsLike.bind (.refl (pure false)) fun _ => EndsLike.bind (.refl _) fun _ =>
      EndsLike.bind (.refl _) fun _ => (readBytes_endsSame hbuf _ _ _).bind fun _ => .ok (freshBank_filled h _ _ _ _)

/-- Commands whose rules end alike end alike. -/
theorem conclude_filled (h : State.Filled d s s') {op : Byte} {pfx : Bool} {r r' : Cmd State}
    (hr : EndsLike (State.Filled d) r r') {t : State} (ht : conclude op pfx s r = .next t) :
    ∃ u, conclude op pfx s' r' = .next u ∧ State.Filled d t u := by
  rcases conclude_eq_next.1 ht with ⟨u, hu, rfl⟩ | ⟨k, hk, rfl⟩
  · obtain ⟨u', hu', hfilled⟩ := hr.1 u hu
    exact ⟨_, by rw [hu']; rfl, setStatus_filled hfilled op pfx .ok⟩
  · exact ⟨_, by rw [hr.2 k hk]; rfl, setStatus_filled h op false k⟩

theorem execTlvParse_filled (h : State.Filled d s s') {t : State} (ht : execTlvParse s = .next t) :
    ∃ u, execTlvParse s' = .next u ∧ State.Filled d t u := by
  obtain ⟨hbuf, hextra, hval, hoff, hhead⟩ := h
  have h := State.Filled.mk hbuf hextra hval hoff hhead
  exact conclude_filled h (EndsLike.bind (.refl _) fun _ => (scanTlv_endsSame hbuf _ _ _).bind fun rs =>
    .ok (writeRecordObject_filled h rs)) ht

theorem execOpVerify_filled (h : State.Filled d s s') {t : State} (ht : execOpVerify s = .next t) :
    ∃ u, execOpVerify s' = .next u ∧ State.Filled d t u := by
  obtain ⟨hok, herror⟩ := parseSuffix_endsSame h true
  unfold execOpVerify at ht ⊢
  rcases hparse : parseSuffix true s with (f | k) | x
  · rw [hparse] at ht
    cases ht
  · rw [hparse] at ht
    rw [herror k hparse]
    exact conclude_filled h (.error _ _) ht
  · obtain ⟨_, hparse', rfl⟩ := hok x hparse
    rw [hparse] at ht
    rw [hparse']
    have hbank := writeBank_filled h x
    obtain ⟨hbuf, hextra, hval, hoff, hhead⟩ := h
    by_cases hknown : knownPair x = true
    · simp only [hknown, if_true] at ht ⊢
      exact conclude_filled hbank ((scanTlv_endsSame hbuf _ _ _).bind fun rs =>
        .ok (writeRecordObject_filled hbank rs)) ht
    · simp only [hknown] at ht ⊢
      exact conclude_filled (.mk hbuf hextra hval hoff hhead) (.ok hbank) ht

/-- A command that ends in `s` ends the same way in every filled `s`, and leaves the filled form of what it leaves in
`s`. -/
theorem exec_filled (h : State.Filled d s s') {i : Instr} {t : State} (ht : exec i s = .next t) :
    ∃ u, exec i s' = .next u ∧ State.Filled d t u := by
  cases i with
  | crcInit =>
    obtain ⟨hbuf, hextra, hval, hoff, hhead⟩ := h
    exact conclude_filled (.mk hbuf hextra hval hoff hhead)
      (.ok (State.Filled.mk (s := { s with crcAcc := defaultSeed s.cfg }) hbuf hextra hval hoff hhead)) ht
  | crcCompute => exact conclude_filled h (crcComputeEffect_filled h) ht
  | sfxParse v =>
    exact conclude_filled h ((parseSuffix_endsSame h v).bind fun x => .ok (writeBank_filled h x)) ht
  | sfxSerialize => exact conclude_filled h (sfxSerializeEffect_filled h) ht
  | tlvParse => exact execTlvParse_filled h ht
  | tlvSerialize => exact conclude_filled h (tlvSerializeEffect_filled h) ht
  | opAdd force => exact conclude_filled h (opAddEffect_filled h force) ht
  | opVerify => exact execOpVerify_filled h ht
  | opRemove force =>
    have hparse := parseSuffix_endsSame h true
    obtain ⟨hbuf, hextra, hval, hoff, hhead⟩ := h
    exact conclude_filled (.mk hbuf hextra hval hoff hhead) (hparse.bind fun x =>
      .ok (State.Filled.mk (s := { writeBank x s with bufLen := BitVec.ofNat 32 (s.bufLen.toNat - x.size) }) hbuf
        (hextra.writeCells 0 x.extra) hval hoff hhead)) ht

/-! ### One location filled -/

theorem cellsOf_filled (h : State.Filled d s s') (m : ByteSpace) :
    FilledBy (d.bytes m) (cellsOf s m) (cellsOf s' m) := by
  obtain ⟨hbuf, hextra, hval, -, -⟩ := h
  cases m
  · exact hbuf
  · exact hextra
  · exact hval

theorem readRecWord_filled (h : State.Filled d s s') (k : Nat) :
    readRecWord k s' = (readRecWord k s).or
      (if k % 2 = 0 then d.off (k / 2) else (d.head (k / 2)).map headWord) := by
  obtain ⟨-, -, -, hoff, hhead⟩ := h
  unfold readRecWord
  split
  · exact hoff.read _
  · rw [hhead.read]
    cases readCell s.recHead (k / 2) <;> rfl

end

/-- Nothing but one byte. -/
def Fill.byte (m : ByteSpace) (a : Nat) (b : Byte) : Fill where
  bytes m' c := if m' = m ∧ c = a then some b else none
  off _ := none
  head _ := none

/-- Nothing but one word of REC, as a host write of it would leave it (10_state rule R24). -/
def Fill.recWord (j : Nat) (v : Word) : Fill where
  bytes _ _ := none
  off c := if j % 2 = 0 ∧ c = j / 2 then some v else none
  head c := if j % 2 = 1 ∧ c = j / 2 then some (headOf v) else none

theorem filled_writeByte {s : State} {m : ByteSpace} {a : Nat} (h : readCell (cellsOf s m) a = none) (b : Byte) :
    State.Filled (.byte m a b) s (writeByte m a b s) := by
  have hmem : ∀ m' cells, m' ≠ m → FilledBy ((Fill.byte m a b).bytes m') cells cells :=
    fun m' cells hm => .of_nothing (by simp [Fill.byte, hm]) cells
  have hcell : FilledBy ((Fill.byte m a b).bytes m) (cellsOf s m) (writeCell (cellsOf s m) a b) :=
    .of_writeCell h (by simp [Fill.byte])
  have hoff : FilledBy (Fill.byte m a b).off s.recOff s.recOff := .of_nothing (fun _ => rfl) _
  have hhead : FilledBy (Fill.byte m a b).head s.recHead s.recHead := .of_nothing (fun _ => rfl) _
  cases m with
  | buf => exact .mk hcell (hmem .extra _ (by decide)) (hmem .val _ (by decide)) hoff hhead
  | extra => exact .mk (hmem .buf _ (by decide)) hcell (hmem .val _ (by decide)) hoff hhead
  | val => exact .mk (hmem .buf _ (by decide)) (hmem .extra _ (by decide)) hcell hoff hhead

theorem filled_writeRecWord {s : State} {j : Nat} (h : readRecWord j s = none) (v : Word) :
    State.Filled (.recWord j v) s (writeRecWord j v s) := by
  have hmem : ∀ m cells, FilledBy ((Fill.recWord j v).bytes m) cells cells :=
    fun m cells => .of_nothing (fun _ => rfl) cells
  by_cases hj : j % 2 = 0
  · rw [writeRecWord_of_even hj]
    have hcell : readCell s.recOff (j / 2) = none := by simpa [readRecWord, hj] using h
    exact .mk (hmem .buf _) (hmem .extra _) (hmem .val _) (.of_writeCell hcell (by simp [Fill.recWord, hj]))
      (.of_nothing (by simp [Fill.recWord, hj]) _)
  · rw [writeRecWord_of_odd hj]
    have hcell : readCell s.recHead (j / 2) = none := by simpa [readRecWord, hj] using h
    exact .mk (hmem .buf _) (hmem .extra _) (hmem .val _) (.of_nothing (by simp [Fill.recWord, hj]) _)
      (.of_writeCell hcell (by simp [Fill.recWord, Nat.mod_two_ne_zero.1 hj]))

/-- What a filled word of REC reads as. -/
theorem recWord_fill (j : Nat) (v : Word) (k : Nat) :
    (if k % 2 = 0 then (Fill.recWord j v).off (k / 2) else ((Fill.recWord j v).head (k / 2)).map headWord) =
      if k = j then some (if j % 2 = 0 then v else v &&& 0x0000FFFF) else none := by
  rw [← headWord_headOf]
  by_cases hkj : k = j
  · subst hkj
    by_cases hk : k % 2 = 0
    · simp [Fill.recWord, hk]
    · simp [Fill.recWord, Nat.mod_two_ne_zero.1 hk]
  · by_cases hk : k % 2 = 0
    · have : ¬(j % 2 = 0 ∧ k / 2 = j / 2) := by omega
      simp [Fill.recWord, hk, hkj, this]
    · have : ¬(j % 2 = 1 ∧ k / 2 = j / 2) := by omega
      simp [Fill.recWord, hk, hkj, this]

/-- Reading through a fill of one location. -/
theorem or_ite_some {α : Type} (o : Option α) (p : Prop) [Decidable p] (v : α) :
    o.or (if p then some v else none) = if p ∧ o = none then some v else o := by
  cases o <;> simp

/-- Settles O60: with a byte or a word written where nothing was, the state is a filled one. -/
theorem unwrittenContentsDoNotMatter : Obligations.UnwrittenContentsDoNotMatter := by
  intro i s t ht
  constructor
  · intro m a b ha
    obtain ⟨u, hu, hfilled⟩ := exec_filled (filled_writeByte ha b) ht
    refine ⟨u, hu, ?_, fun m' c => ?_⟩
    · obtain ⟨-, -, -, hoff, hhead⟩ := hfilled
      obtain rfl := hoff.same fun _ => rfl
      obtain rfl := hhead.same fun _ => rfl
      rfl
    · rw [(cellsOf_filled hfilled m').read, Fill.byte, or_ite_some]
      exact if_congr ⟨fun ⟨⟨hm, hc⟩, h⟩ => ⟨hm, hc, by rwa [← hm, ← hc]⟩,
        fun ⟨hm, hc, h⟩ => ⟨⟨hm, hc⟩, by rwa [hm, hc]⟩⟩ rfl rfl
  · intro j v hj
    obtain ⟨u, hu, hfilled⟩ := exec_filled (filled_writeRecWord hj v) ht
    refine ⟨u, hu, ?_, fun k => ?_⟩
    · obtain ⟨hbuf, hextra, hval, -, -⟩ := hfilled
      obtain rfl := hbuf.same fun _ => rfl
      obtain rfl := hextra.same fun _ => rfl
      obtain rfl := hval.same fun _ => rfl
      rfl
    · rw [readRecWord_filled hfilled k, recWord_fill, or_ite_some]
      exact if_congr ⟨fun ⟨hk, h⟩ => ⟨hk, by rwa [← hk]⟩, fun ⟨hk, h⟩ => ⟨hk, by rwa [hk]⟩⟩ rfl rfl

end Sys2Proof.Machine

/-! ## A command stops at the first unwritten location its rule reads -/

namespace Sys2Proof.Machine

/-- A rule's tests and reads stop at an unwritten location of a space, of index `lo` to `hi - 1`. -/
def CmdStopsIn {α : Type} (x : Cmd α) (s : State) (m : Space) (lo hi : Nat) : Prop :=
  ∃ a, lo ≤ a ∧ a < hi ∧ isWritten s m a = false ∧ x = .error (.fault (.unwrittenRead m a))

section
variable {α β : Type} {s : State} {m : Space} {lo hi : Nat}

/-- What follows a stop is not run. -/
theorem CmdStopsIn.bind {x : Cmd α} (h : CmdStopsIn x s m lo hi) (f : α → Cmd β) : CmdStopsIn (x >>= f) s m lo hi := by
  obtain ⟨a, hlo, hhi, ha, rfl⟩ := h
  exact ⟨a, hlo, hhi, ha, rfl⟩

/-- A stop after a part that goes on. -/
theorem CmdStopsIn.of_ok {x : Cmd α} {f : α → Cmd β} {b : α} (hx : x = .ok b) (h : CmdStopsIn (f b) s m lo hi) :
    CmdStopsIn (x >>= f) s m lo hi := by
  rw [hx]
  exact h

theorem CmdStopsIn.mono {x : Cmd α} (h : CmdStopsIn x s m lo hi) {lo' hi' : Nat} (hlo : lo' ≤ lo) (hhi : hi ≤ hi') :
    CmdStopsIn x s m lo' hi' := by
  obtain ⟨a, h₁, h₂, ha⟩ := h
  exact ⟨a, by omega, by omega, ha⟩

/-- A command stops where its rule does. -/
theorem stopsIn_of_conclude {i : Instr} {op : Byte} {pfx : Bool} {r : Cmd State}
    (hi' : exec i s = conclude op pfx s r) (h : CmdStopsIn r s m lo hi) : stopsIn i s m lo hi := by
  obtain ⟨a, hlo, hhi, ha, rfl⟩ := h
  exact ⟨a, hlo, hhi, ha, hi'⟩

end

/-- A byte memory, as a command's rule names it. -/
theorem isWritten_space (s : State) (m : ByteSpace) (a : Nat) :
    isWritten s m.space a = (readCell (cellsOf s m) a).isSome := by
  cases m <;> rfl

theorem readByte_stops {s : State} {m : ByteSpace} {a : Nat} (h : readCell (cellsOf s m) a = none) :
    CmdStopsIn (readByte m.space (cellsOf s m) a) s m.space a (a + 1) :=
  ⟨a, le_refl a, a.lt_succ_self, by rw [isWritten_space, h]; rfl, readByte_eq_error.2 ⟨h, rfl⟩⟩

/-- A range that is not all written stops at a location of its own. -/
theorem readBytes_stops {s : State} {m : ByteSpace} {a n : Nat} (h : readRange (cellsOf s m) a n = none) :
    CmdStopsIn (readBytes m.space (cellsOf s m) a n) s m.space a (a + n) := by
  cases hread : readBytes m.space (cellsOf s m) a n with
  | ok bs => simp [readBytes_eq_ok.1 hread] at h
  | error e =>
    obtain ⟨i, hlo, hhi, hi, rfl⟩ := readBytes_eq_error hread
    exact ⟨i, hlo, hhi, by rw [isWritten_space, hi]; rfl, rfl⟩

/-! ### CRC_COMPUTE, OP_ADD.F, SFX_SERIALIZE -/

theorem image_eq_none {s : State} (hb : s.bufLen.toNat ≤ s.cfg.bufSize) :
    image s = none ↔ readRange s.buf 0 s.bufLen.toNat = none := by
  rw [image, if_pos hb]

theorem crcCompute_stops {s : State} (hb : s.bufLen.toNat ≤ s.cfg.bufSize)
    (hrange : s.crcOff.toNat + s.crcCnt.toNat ≤ s.bufLen.toNat)
    (h : readRange s.buf s.crcOff.toNat s.crcCnt.toNat = none) :
    stopsIn .crcCompute s .buf s.crcOff.toNat (s.crcOff.toNat + s.crcCnt.toNat) :=
  stopsIn_of_conclude rfl <| .of_ok (require_pos hb) <| .of_ok (require_pos hrange) <|
    (readBytes_stops (m := .buf) h).bind _

theorem opAdd_force_stops {s : State} (hb : s.bufLen.toNat ≤ s.cfg.bufSize)
    (hfit : s.bufLen.toNat + 16 ≤ s.cfg.bufSize) (h : image s = none) :
    stopsIn (.opAdd true) s .buf 0 s.bufLen.toNat := by
  have hbody := readBytes_stops (m := .buf) ((image_eq_none hb).1 h)
  rw [Nat.zero_add] at hbody
  exact stopsIn_of_conclude rfl <| .of_ok (require_pos hb) <| .of_ok (x := pure false) rfl <|
    .of_ok (require_pos rfl) <| .of_ok (require_pos hfit) <| hbody.bind _

theorem sfxSerialize_stops {s : State} (hb : s.bufLen.toNat ≤ s.cfg.bufSize) (hextra : s.sfxExtraLen.toNat ≤ 239)
    (hfit : s.bufLen.toNat + s.sfxExtraLen.toNat + 16 ≤ s.cfg.bufSize) :
    (image s = none → stopsIn .sfxSerialize s .buf 0 s.bufLen.toNat) ∧
      (image s ≠ none → readRange s.extra 0 s.sfxExtraLen.toNat = none →
        stopsIn .sfxSerialize s .extra 0 s.sfxExtraLen.toNat) := by
  constructor
  · intro h
    have hbody := readBytes_stops (m := .buf) ((image_eq_none hb).1 h)
    rw [Nat.zero_add] at hbody
    exact stopsIn_of_conclude rfl <| .of_ok (require_pos hb) <| .of_ok (require_pos hextra) <|
      .of_ok (require_pos hfit) <| hbody.bind _
  · intro himage h
    obtain ⟨body, himg⟩ := Option.ne_none_iff_exists'.1 himage
    have hstop := readBytes_stops (m := .extra) h
    rw [Nat.zero_add] at hstop
    exact stopsIn_of_conclude rfl <| .of_ok (require_pos hb) <| .of_ok (require_pos hextra) <|
      .of_ok (require_pos hfit) <| .of_ok (readBytes_eq_ok.2 (image_eq_some.1 himg).2) <| hstop.bind _

/-! ### The commands that look for a trailer -/

/-- `Structural` reads the four bytes from `n - 8` and nothing else (41_suffix rule R111). -/
theorem structural_stops {s : State} {n : Nat} (h16 : 16 ≤ n) (h : readRange s.buf (n - 8) 4 = none) :
    CmdStopsIn (structural s.buf n) s .buf (n - 8) (n - 4) := by
  rw [structural, if_neg (by omega)]
  rcases Option.eq_none_or_eq_some (readRange s.buf (n - 8) 3) with hsig | ⟨sig, hsig⟩
  · exact ((readBytes_stops (m := .buf) hsig).mono (le_refl _) (by omega)).bind _
  · have hlength : readCell s.buf (n - 5) = none := by
      by_contra hsome
      obtain ⟨length, hlength⟩ := Option.ne_none_iff_exists'.1 hsome
      have hrest : readRange s.buf (n - 8 + 3) 1 = some [length] := by
        rw [show n - 8 + 3 = n - 5 by omega]
        simp [readRange, hlength]
      simp [readRange_append hsig hrest] at h
    exact .of_ok (readBytes_eq_ok.2 hsig) <|
      ((readByte_stops (m := .buf) hlength).mono (by omega) (by omega)).bind _

theorem parseSuffix_stops_of_structural {s : State} {v : Bool} {lo hi : Nat} (hb : s.bufLen.toNat ≤ s.cfg.bufSize)
    (h : CmdStopsIn (structural s.buf s.bufLen.toNat) s .buf lo hi) : CmdStopsIn (parseSuffix v s) s .buf lo hi :=
  .of_ok (require_pos hb) <| h.bind _

/-- With a written, sound trailer the checksum stops in the body (41_suffix rule R118). -/
theorem parseSuffix_stops_in_body {s : State} {tail : List Byte} (hb : s.bufLen.toNat ≤ s.cfg.bufSize)
    (hlen : tail.length ≤ s.bufLen.toNat)
    (htail : readRange s.buf (s.bufLen.toNat - tail.length) tail.length = some tail)
    (hsound : structuralImg tail = true) (hlength : trailerLength tail = tail.length) (himage : image s = none) :
    CmdStopsIn (parseSuffix true s) s .buf 0 (s.bufLen.toNat - tail.length) := by
  obtain ⟨h16, h16', -⟩ := structuralImg_bounds hsound
  have hstructural : structural s.buf s.bufLen.toNat = .ok true := by
    rw [structural_of_tail htail hlen h16]
    simp only [structuralImg, Bool.and_eq_true, decide_eq_true_eq, beq_iff_eq] at hsound
    simp [hsound, hlength, hlen]
  have hbody : readRange s.buf 0 (s.bufLen.toNat - tail.length) = none := by
    by_contra hsome
    obtain ⟨body, hbody⟩ := Option.ne_none_iff_exists'.1 hsome
    have hall := readRange_append hbody (by rw [Nat.zero_add]; exact htail)
    rw [Nat.sub_add_cancel hlen] at hall
    simp [(image_eq_none hb).1 himage] at hall
  have hstop := readBytes_stops (m := .buf) hbody
  rw [Nat.zero_add] at hstop
  have hsize : (suffixOf tail).size = tail.length := (suffixOf_size hsound).trans hlength
  refine .of_ok (require_pos hb) <| .of_ok hstructural <| .of_ok (require_pos rfl) <|
    .of_ok (readSuffix_of_tail htail hlen h16' hlength.le) ?_
  rw [if_pos rfl, hsize]
  exact hstop.bind _

/-- Where the document's parse stops, every command that parses a trailer does. -/
theorem stopsIn_of_parseSuffix {s : State} {lo hi : Nat} :
    (∀ v, CmdStopsIn (parseSuffix v s) s .buf lo hi → stopsIn (.sfxParse v) s .buf lo hi) ∧
      (CmdStopsIn (parseSuffix true s) s .buf lo hi →
        stopsIn .opVerify s .buf lo hi ∧ ∀ f, stopsIn (.opRemove f) s .buf lo hi) := by
  refine ⟨fun v h => stopsIn_of_conclude rfl (h.bind _), fun h => ⟨?_, fun f => stopsIn_of_conclude rfl (h.bind _)⟩⟩
  obtain ⟨a, hlo, hhi, ha, hparse⟩ := h
  exact ⟨a, hlo, hhi, ha, by rw [exec, execOpVerify, hparse]; rfl⟩

theorem opAdd_probe_stops {s : State} {lo hi : Nat} (hb : s.bufLen.toNat ≤ s.cfg.bufSize)
    (h : CmdStopsIn (structural s.buf s.bufLen.toNat) s .buf lo hi) : stopsIn (.opAdd false) s .buf lo hi :=
  stopsIn_of_conclude rfl <| .of_ok (require_pos hb) <| h.bind _

/-! ### TLV_PARSE -/

@[simp] theorem encodeRecord_length (r : Record) : (encodeRecord r).length = r.value.length + 2 := by
  simp [encodeRecord]

/-- The scan passes over an encoded record (42_tlv rules R141, R142). -/
theorem scanTlv_encodeRecord {buf : List Host.Cell} {n off : Nat} {r : Record} (hr : r.legal)
    (hread : readRange buf off (encodeRecord r).length = some (encodeRecord r))
    (hn : off + (encodeRecord r).length ≤ n) (fuel : Nat) :
    scanTlv buf n (fuel + 1) off =
      (scanTlv buf n fuel (off + (encodeRecord r).length) >>= fun rest => return r :: rest) := by
  obtain ⟨htag, hlen⟩ := hr
  rw [encodeRecord_length] at hread hn ⊢
  have hsizeNat : (BitVec.ofNat 8 (1 + r.value.length)).toNat = 1 + r.value.length :=
    (BitVec.toNat_ofNat _ _).trans (Nat.mod_eq_of_lt (by omega))
  have hne : BitVec.ofNat 8 (1 + r.value.length) ≠ 0 := by
    intro h
    have hzero : 0 = 1 + r.value.length := by rwa [h] at hsizeNat
    omega
  obtain ⟨-, hcells⟩ := readRange_eq_some_iff.1 hread
  have h0 : readCell buf off = some (BitVec.ofNat 8 (1 + r.value.length)) := by simpa [encodeRecord] using hcells 0
  have h1 : readCell buf (off + 1) = some r.tag := by simpa [encodeRecord] using hcells 1
  have hvalue : readRange buf (off + 2) r.value.length = some r.value := by
    have hpart := readRange_sub hread (i := 2) (k := r.value.length) (by omega)
    rwa [List.take_of_length_le (by simp [Nat.add_comm])] at hpart
  rw [scanTlv, require_pos (by omega), Cmd.ok_bind, readByte_eq_ok.2 h0, Cmd.ok_bind, readByte_eq_ok.2 h1, Cmd.ok_bind,
    if_neg htag, require_pos hne, Cmd.ok_bind, hsizeNat, require_pos (by omega), Cmd.ok_bind,
    Nat.add_sub_cancel_left, readBytes_eq_ok.2 hvalue, Cmd.ok_bind,
    show off + (1 + r.value.length) + 1 = off + (r.value.length + 2) by omega]

/-- The scan passes over encoded records and stops where it does after them. -/
theorem scanTlv_stops_after_records {s : State} {n off fuel lo hi : Nat} {rs : List Record} (hrs : ∀ r ∈ rs, r.legal)
    (hread : readRange s.buf off (rs.flatMap encodeRecord).length = some (rs.flatMap encodeRecord))
    (hn : off + (rs.flatMap encodeRecord).length ≤ n)
    (h : CmdStopsIn (scanTlv s.buf n fuel (off + (rs.flatMap encodeRecord).length)) s .buf lo hi) :
    CmdStopsIn (scanTlv s.buf n (fuel + rs.length) off) s .buf lo hi := by
  induction rs generalizing off with
  | nil => exact h
  | cons r rs ih =>
    obtain ⟨hr, hrs⟩ := List.forall_mem_cons.1 hrs
    rw [List.flatMap_cons, List.length_append] at hread hn h
    have hfirst := readRange_sub hread (i := 0) (k := (encodeRecord r).length) (by omega)
    have hrest := readRange_sub hread (i := (encodeRecord r).length) (k := (rs.flatMap encodeRecord).length) (by omega)
    simp only [Nat.add_zero, Nat.zero_add, List.drop_zero, List.take_left'] at hfirst
    rw [List.take_of_length_le (by simp), List.drop_left] at hrest
    rw [List.length_cons, ← Nat.add_assoc, scanTlv_encodeRecord hr hfirst (by omega)]
    exact (ih hrs hrest (by omega) (by rwa [Nat.add_assoc])).bind _

theorem two_mul_length_le_flatMap (rs : List Record) : 2 * rs.length ≤ (rs.flatMap encodeRecord).length := by
  induction rs with
  | nil => simp
  | cons r rs ih => simp; omega

/-- TLV_PARSE gets past the records before `off`. -/
theorem tlvParse_stops {s : State} {off lo hi : Nat} {rs : List Record} (hb : s.bufLen.toNat ≤ s.cfg.bufSize)
    (hrs : ∀ r ∈ rs, r.legal) (hread : readRange s.buf 0 off = some (rs.flatMap encodeRecord))
    (hoff : off + 2 ≤ s.bufLen.toNat)
    (h : ∀ fuel, CmdStopsIn (scanTlv s.buf s.bufLen.toNat (fuel + 1) off) s .buf lo hi) :
    stopsIn .tlvParse s .buf lo hi := by
  obtain rfl : (rs.flatMap encodeRecord).length = off := readRange_length hread
  have hturns := two_mul_length_le_flatMap rs
  obtain ⟨fuel, hfuel⟩ : ∃ fuel, s.bufLen.toNat = fuel + 1 + rs.length := ⟨s.bufLen.toNat - rs.length - 1, by omega⟩
  have hscan : CmdStopsIn (parseTlv s.buf s.bufLen.toNat) s .buf lo hi := by
    have := scanTlv_stops_after_records (off := 0) (n := s.bufLen.toNat) (fuel := fuel + 1) hrs hread (by omega)
      (by rw [Nat.zero_add]; exact h fuel)
    rwa [← hfuel] at this
  exact stopsIn_of_conclude rfl <| .of_ok (require_pos hb) <| hscan.bind _

/-- The scan stops at a header that is not written. -/
theorem scanTlv_stops_at_header {s : State} {n off : Nat} (hoff : off + 2 ≤ n) (h : readRange s.buf off 2 = none)
    (fuel : Nat) : CmdStopsIn (scanTlv s.buf n (fuel + 1) off) s .buf off (off + 2) := by
  refine .of_ok (require_pos hoff) ?_
  cases hsize : readCell s.buf off with
  | none => exact ((readByte_stops (m := .buf) hsize).mono (le_refl _) (by omega)).bind _
  | some size =>
    have htag : readCell s.buf (off + 1) = none := by
      cases htag : readCell s.buf (off + 1) with
      | none => rfl
      | some tag => simp [readRange, hsize, htag] at h
    exact .of_ok (readByte_eq_ok.2 hsize) <|
      ((readByte_stops (m := .buf) htag).mono (by omega) (by omega)).bind _

/-- The scan stops at a value that is not written. -/
theorem scanTlv_stops_at_value {s : State} {n off : Nat} {size tag : Byte}
    (hread : readRange s.buf off 2 = some [size, tag]) (htag : tag ≠ 0) (hsize : size ≠ 0)
    (hn : off + 1 + size.toNat ≤ n)
    (h : readRange s.buf (off + 2) (size.toNat - 1) = none) (fuel : Nat) :
    CmdStopsIn (scanTlv s.buf n (fuel + 1) off) s .buf (off + 2) (off + 1 + size.toNat) := by
  have hpos : size.toNat ≠ 0 := fun h => hsize (BitVec.eq_of_toNat_eq (by simpa using h))
  obtain ⟨-, hcells⟩ := readRange_eq_some_iff.1 hread
  have h0 : readCell s.buf off = some size := by simpa using hcells 0
  have h1 : readCell s.buf (off + 1) = some tag := by simpa using hcells 1
  have hvalue := (readBytes_stops (m := .buf) h).mono (le_refl _) (show _ ≤ off + 1 + size.toNat by omega)
  refine .of_ok (require_pos (by omega)) <| .of_ok (readByte_eq_ok.2 h0) <| .of_ok (readByte_eq_ok.2 h1) ?_
  rw [if_neg htag]
  exact .of_ok (require_pos hsize) <| .of_ok (require_pos hn) <| hvalue.bind _

/-! ### TLV_SERIALIZE -/

theorem isWritten_recHead (s : State) (i : Nat) :
    isWritten s .recWords (2 * i + 1) = (readCell s.recHead i).isSome := by
  simp [isWritten, readRecWord, show (2 * i + 1) / 2 = i by omega]

theorem isWritten_recOff (s : State) (i : Nat) : isWritten s .recWords (2 * i) = (readCell s.recOff i).isSome := by
  simp [isWritten, readRecWord]

/-- The entry tests pass over sound entries and stop where they do after them. -/
theorem checkEntries_stops_after {s : State} {m : Space} {lo hi i j n : Nat}
    (hsound : ∀ k, k < j → soundEntry s (i + k)) (h : CmdStopsIn (checkEntries s (i + j) n) s m lo hi) :
    CmdStopsIn (checkEntries s i (j + n)) s m lo hi := by
  induction j generalizing i with
  | zero => simpa using h
  | succ j ih =>
    obtain ⟨head, off, hhead, hoff, hgood⟩ := hsound 0 (by omega)
    obtain ⟨htag, hlen, hsize⟩ : head.tag ≠ 0 ∧ head.len.toNat ≤ 254 ∧ off.toNat + head.len.toNat ≤ s.cfg.valSize := by
      simpa [badEntry] using hgood
    have hrest : CmdStopsIn (checkEntries s (i + 1) (j + n)) s m lo hi :=
      ih (fun k hk => by simpa [Nat.add_assoc, Nat.add_comm 1 k] using hsound (k + 1) (by omega))
        (by rwa [Nat.add_assoc, Nat.add_comm 1 j])
    rw [show j + 1 + n = (j + n) + 1 by omega]
    exact .of_ok (demand_eq_ok.2 hhead) <| .of_ok (require_pos htag) <| .of_ok (require_pos hlen) <|
      .of_ok (demand_eq_ok.2 hoff) <| .of_ok (require_pos hsize) <| hrest.bind _

theorem tlvSerialize_stops_in_entries {s : State} {lo hi i : Nat} (hb : s.bufLen.toNat ≤ s.cfg.bufSize)
    (hmax : s.recCount.toNat ≤ s.cfg.recMax) (hi' : i < s.recCount.toNat) (hsound : ∀ k, k < i → soundEntry s k)
    (h : ∀ n, CmdStopsIn (checkEntries s i (n + 1)) s .recWords lo hi) : stopsIn .tlvSerialize s .recWords lo hi := by
  obtain ⟨n, hn⟩ : ∃ n, s.recCount.toNat = i + (n + 1) := ⟨s.recCount.toNat - i - 1, by omega⟩
  have hentries : CmdStopsIn (checkEntries s 0 s.recCount.toNat) s .recWords lo hi := by
    rw [hn]
    exact checkEntries_stops_after (by simpa using hsound) (by simpa using h n)
  exact stopsIn_of_conclude rfl <| .of_ok (require_pos hb) <| .of_ok (require_pos hmax) <| hentries.bind _

theorem checkEntries_stops_at_head {s : State} {i : Nat} (h : readCell s.recHead i = none) (n : Nat) :
    CmdStopsIn (checkEntries s i (n + 1)) s .recWords (2 * i + 1) (2 * i + 2) :=
  have hstop : CmdStopsIn (demand .recWords (2 * i + 1) (readCell s.recHead i)) s .recWords (2 * i + 1) (2 * i + 2) :=
    ⟨2 * i + 1, le_refl _, by omega, by rw [isWritten_recHead, h]; rfl, demand_eq_error.2 ⟨h, rfl⟩⟩
  hstop.bind _

theorem checkEntries_stops_at_off {s : State} {i : Nat} {head : RecHead} (hhead : readCell s.recHead i = some head)
    (htag : head.tag ≠ 0) (hlen : head.len.toNat ≤ 254) (h : readCell s.recOff i = none) (n : Nat) :
    CmdStopsIn (checkEntries s i (n + 1)) s .recWords (2 * i) (2 * i + 1) :=
  have hstop : CmdStopsIn (demand .recWords (2 * i) (readCell s.recOff i)) s .recWords (2 * i) (2 * i + 1) :=
    ⟨2 * i, le_refl _, by omega, by rw [isWritten_recOff, h]; rfl, demand_eq_error.2 ⟨h, rfl⟩⟩
  .of_ok (demand_eq_ok.2 hhead) <| .of_ok (require_pos htag) <| .of_ok (require_pos hlen) <| hstop.bind _

/-- Sound entries pass the entry tests. -/
theorem checkEntries_of_sound {s : State} {i n : Nat} (hsound : ∀ k, k < n → soundEntry s (i + k)) :
    ∃ ds, checkEntries s i n = .ok ds := by
  induction n generalizing i with
  | zero => exact ⟨[], rfl⟩
  | succ n ih =>
    obtain ⟨head, off, hhead, hoff, hgood⟩ := hsound 0 (by omega)
    obtain ⟨htag, hlen, hsize⟩ : head.tag ≠ 0 ∧ head.len.toNat ≤ 254 ∧ off.toNat + head.len.toNat ≤ s.cfg.valSize := by
      simpa [badEntry] using hgood
    obtain ⟨ds, hds⟩ := ih (i := i + 1) fun k hk => by
      simpa [Nat.add_assoc, Nat.add_comm 1 k] using hsound (k + 1) (by omega)
    refine ⟨⟨head.tag, head.len, off⟩ :: ds, ?_⟩
    simp only [checkEntries, Cmd.bind_eq_ok, demand_eq_ok, require_eq_ok, Cmd.pure_eq]
    exact ⟨head, hhead, ⟨⟩, htag, ⟨⟩, hlen, off, hoff, ⟨⟩, hsize, ds, hds, rfl⟩

/-- The values of entries inside VAL are read, or one of them stops there. -/
theorem readValues_ok_or_stops {s : State} {ds : List Descriptor}
    (h : ∀ d ∈ ds, d.off.toNat + d.len.toNat ≤ s.cfg.valSize) :
    (∃ rs, readValues s.val ds = .ok rs) ∨ CmdStopsIn (readValues s.val ds) s .val 0 s.cfg.valSize := by
  induction ds with
  | nil => exact .inl ⟨[], rfl⟩
  | cons d ds ih =>
    obtain ⟨hd, hds⟩ := List.forall_mem_cons.1 h
    rcases Option.eq_none_or_eq_some (readRange s.val d.off.toNat d.len.toNat) with hval | ⟨value, hval⟩
    · exact .inr (((readBytes_stops (m := .val) hval).mono (Nat.zero_le _) hd).bind _)
    · rcases ih hds with ⟨rs, hrs⟩ | hstop
      · refine .inl ⟨⟨d.tag, value⟩ :: rs, ?_⟩
        rw [readValues, readBytes_eq_ok.2 hval, Cmd.ok_bind, hrs]
        rfl
      · exact .inr (.of_ok (readBytes_eq_ok.2 hval) (hstop.bind _))

theorem listLength_eq_sum (ds : List Descriptor) : listLength ds = (ds.map fun d => d.len.toNat + 2).sum + 2 := by
  induction ds with
  | nil => rfl
  | cons d ds ih => simp [listLength, ih]; omega

/-- The stream's length follows from the `len` fields (30_encoding rules R73, R74). -/
theorem listLength_eq_entriesLength {s : State} {ds : List Descriptor}
    (hds : checkEntries s 0 s.recCount.toNat = .ok ds) : listLength ds = entriesLength s := by
  obtain ⟨hlen, hentry⟩ := checkEntries_eq_ok.1 hds
  rw [listLength_eq_sum, entriesLength]
  congr 2
  apply List.ext_getElem
  · simp [hlen]
  · intro j hj hj'
    obtain ⟨hhead, -⟩ := hentry j (by simpa using hj)
    rw [Nat.zero_add] at hhead
    simp [hhead]

theorem tlvSerialize_stops_in_values {s : State} (hb : s.bufLen.toNat ≤ s.cfg.bufSize)
    (hmax : s.recCount.toNat ≤ s.cfg.recMax) (hsound : ∀ i, i < s.recCount.toNat → soundEntry s i)
    (hrecords : records s = none)
    (hfit : s.bufLen.toNat + entriesLength s + fillCount (entriesLength s) s.tlvAlign.toNat ≤ s.cfg.bufSize) :
    stopsIn .tlvSerialize s .val 0 s.cfg.valSize := by
  obtain ⟨ds, hds⟩ := checkEntries_of_sound (s := s) (i := 0) (n := s.recCount.toNat) (by simpa using hsound)
  obtain ⟨-, hentry⟩ := checkEntries_eq_ok.1 hds
  have hinside : ∀ d ∈ ds, d.off.toNat + d.len.toNat ≤ s.cfg.valSize := by
    intro d hd
    obtain ⟨j, hj, rfl⟩ := List.getElem_of_mem hd
    obtain ⟨-, -, -, -, hsize⟩ := hentry j hj
    exact hsize
  have hstop : CmdStopsIn (readValues s.val ds) s .val 0 s.cfg.valSize := by
    rcases readValues_ok_or_stops hinside with ⟨rs, hrs⟩ | hstop
    · obtain ⟨hsome, -⟩ := records_eq_of_entries hmax hds hrs
      simp [hrecords] at hsome
    · exact hstop
  refine stopsIn_of_conclude rfl <| .of_ok (require_pos hb) <| .of_ok (require_pos hmax) <| .of_ok hds <|
    .of_ok (require_pos ?_) <| hstop.bind _
  rw [listLength_eq_entriesLength hds, ← Nat.add_assoc]
  exact hfit

/-- Settles O59, command by command. -/
theorem commandsStopAtUnwrittenReads : Obligations.CommandsStopAtUnwrittenReads := by
  intro s hb
  refine ⟨crcCompute_stops hb, fun h16 hread v f i hi => ?_, fun tail hlen htail hsound hlength himage f i hi => ?_,
    opAdd_force_stops hb, sfxSerialize_stops hb, fun rs off hrs hread hoff => ⟨fun hheader => ?_, ?_⟩,
    fun hmax => ⟨fun i hi hsound => ⟨fun hhead => ?_, fun head hhead htag hlen hoff => ?_⟩, ?_⟩⟩
  · have hstop := structural_stops h16 hread
    obtain ⟨hparse, hverify⟩ := stopsIn_of_parseSuffix (s := s) (lo := s.bufLen.toNat - 8) (hi := s.bufLen.toNat - 4)
    obtain ⟨hverify, hremove⟩ := hverify (parseSuffix_stops_of_structural hb hstop)
    simp only [List.mem_cons, List.not_mem_nil, or_false] at hi
    rcases hi with rfl | rfl | rfl | rfl
    · exact hparse v (parseSuffix_stops_of_structural hb hstop)
    · exact hverify
    · exact hremove f
    · exact opAdd_probe_stops hb hstop
  · have hstop := parseSuffix_stops_in_body hb hlen htail hsound hlength himage
    obtain ⟨hparse, hverify⟩ := stopsIn_of_parseSuffix (s := s) (lo := 0) (hi := s.bufLen.toNat - tail.length)
    obtain ⟨hverify, hremove⟩ := hverify hstop
    simp only [List.mem_cons, List.not_mem_nil, or_false] at hi
    rcases hi with rfl | rfl | rfl
    · exact hparse true hstop
    · exact hverify
    · exact hremove f
  · exact tlvParse_stops hb hrs hread hoff (scanTlv_stops_at_header hoff hheader)
  · intro size tag hhead htag hsize hn hvalue
    exact tlvParse_stops hb hrs hread hoff (scanTlv_stops_at_value hhead htag hsize hn hvalue)
  · exact tlvSerialize_stops_in_entries hb hmax hi hsound (checkEntries_stops_at_head hhead)
  · exact tlvSerialize_stops_in_entries hb hmax hi hsound (checkEntries_stops_at_off hhead htag hlen hoff)
  · exact tlvSerialize_stops_in_values hb hmax

end Sys2Proof.Machine

/-! ## Every step keeps the invariant -/

namespace Sys2Proof.Machine

/-! ### `STATUS` is a legal word -/

section
variable (op : Byte) (pfx : Bool) (k : ErrKind)

/-- The fields of `STATUS`, bit by bit (10_state rule R14). -/
theorem getLsbD_statusWord (i : Nat) :
    (statusWord op pfx k).getLsbD i =
      if i < 4 then k.code.getLsbD i
      else if i < 6 then k.exitCode.getLsbD (i - 4)
      else if i < 7 then pfx
      else if i < 8 then false
      else op.getLsbD (i - 8) := by
  simp only [statusWord, BitVec.getLsbD_append, BitVec.getLsbD_ofBool, BitVec.getLsbD_zero]
  grind

@[simp] theorem statusExit_statusWord : statusExit (statusWord op pfx k) = k.exitCode := by
  apply BitVec.eq_of_getLsbD_eq
  intro i hi
  rw [statusExit, BitVec.getLsbD_extractLsb', getLsbD_statusWord]
  simp [hi, show 4 + i < 6 by omega]

@[simp] theorem statusPfx_statusWord : statusPfx (statusWord op pfx k) = pfx := by
  simp only [statusPfx, getLsbD_statusWord]
  simp

@[simp] theorem statusLastOp_statusWord : statusLastOp (statusWord op pfx k) = op := by
  apply BitVec.eq_of_getLsbD_eq
  intro i hi
  rw [statusLastOp, BitVec.getLsbD_extractLsb', getLsbD_statusWord, if_neg (by omega), if_neg (by omega),
    if_neg (by omega), if_neg (by omega)]
  simp [hi]

theorem statusWord_reserved_high : (statusWord op pfx k).extractLsb' 16 16 = 0 := by
  apply BitVec.eq_of_getLsbD_eq
  intro i hi
  rw [BitVec.getLsbD_extractLsb', getLsbD_statusWord, if_neg (by omega), if_neg (by omega), if_neg (by omega),
    if_neg (by omega), BitVec.getLsbD_of_ge _ _ (by omega)]
  simp

theorem statusWord_reserved_bit : (statusWord op pfx k).getLsbD 7 = false := by
  simp only [getLsbD_statusWord]
  simp

end

/-- A written `STATUS` is legal where `PFX` stands only with OP_VERIFY and Ok (60_exceptions rules R201, R202, 43_workflow
rule R177). -/
theorem statusLegal_statusWord {op : Byte} {pfx : Bool} {k : ErrKind} (h : pfx = true → op = 0x31 ∧ k = .ok) :
    statusLegal (statusWord op pfx k) = true := by
  have hcode : k.code.toNat < 8 := by cases k <;> decide
  have hexit : k.exitCode = if k.code = 0 then 0 else if k.code = 2 then 2 else 1 := by cases k <;> decide
  have hpfx : (!pfx || (op == 0x31 && k.code == 0)) = true := by
    cases pfx with
    | false => rfl
    | true =>
      obtain ⟨rfl, rfl⟩ := h rfl
      rfl
  simp only [statusLegal, statusWord_reserved_high, statusWord_reserved_bit, statusErr_statusWord,
    statusExit_statusWord, statusPfx_statusWord, statusLastOp_statusWord, hcode, ← hexit, hpfx]
  simp

/-! ### The commands -/

theorem conclude_status {op : Byte} {pfx : Bool} {s t : State} {r : Cmd State} (h : conclude op pfx s r = .next t) :
    ∃ p k, t.status = statusWord op p k ∧ (p = true → pfx = true ∧ k = .ok) := by
  rcases conclude_eq_next.1 h with ⟨u, -, rfl⟩ | ⟨k, -, rfl⟩
  · exact ⟨pfx, .ok, rfl, fun hp => ⟨hp, rfl⟩⟩
  · exact ⟨false, k, rfl, by simp⟩

/-- OP_VERIFY ends by `conclude` too, with the bank written or not (43_workflow rules R175, R179). -/
theorem execOpVerify_eq_conclude (s : State) : ∃ pfx u r, execOpVerify s = conclude 0x31 pfx u r := by
  unfold execOpVerify
  split
  · exact ⟨_, _, _, rfl⟩
  · split
    · exact ⟨_, _, _, rfl⟩
    · exact ⟨_, _, _, rfl⟩

/-- A command that ends rewrites `STATUS`, with `PFX` only where OP_VERIFY succeeds (43_workflow rule R177). -/
theorem exec_status {i : Instr} {s t : State} (h : exec i s = .next t) :
    ∃ p k, t.status = statusWord i.opc p k ∧ (p = true → i = .opVerify ∧ k = .ok) := by
  cases i with
  | opVerify =>
    obtain ⟨pfx, u, r, hr⟩ := execOpVerify_eq_conclude s
    obtain ⟨p, k, hstatus, hp⟩ := conclude_status (hr.symm.trans h)
    exact ⟨p, k, hstatus, fun h => ⟨rfl, (hp h).2⟩⟩
  | crcInit =>
    cases h
    exact ⟨false, .ok, rfl, by simp⟩
  | crcCompute | sfxParse | sfxSerialize | tlvParse | tlvSerialize | opAdd | opRemove =>
    obtain ⟨p, k, hstatus, hp⟩ := conclude_status h
    exact ⟨p, k, hstatus, fun h => absurd (hp h).1 (by decide)⟩

theorem exec_statusLegal {i : Instr} {s t : State} (h : exec i s = .next t) : statusLegal t.status = true := by
  obtain ⟨p, k, hstatus, hp⟩ := exec_status h
  rw [hstatus]
  refine statusLegal_statusWord fun h => ?_
  obtain ⟨rfl, hk⟩ := hp h
  exact ⟨rfl, hk⟩

/-- The writes of every rule stay inside the memories: what is appended fits BUF, a parsed `extra` fits EXTRA, and a parsed
list fits REC and VAL (42_tlv rule R146). -/
theorem CommandWrites.memoryWf {i : Instr} {s u : State} (hu : CommandWrites s i u) (h : s.memoryWf) : u.memoryWf := by
  have hbank : ∀ {v x}, parseSuffix v s = .ok x → (writeBank x s).memoryWf := fun hx => by
    obtain ⟨-, -, hextra, -⟩ := parseSuffix_eq_ok hx
    exact memoryWf_writeBank h hextra
  cases hu with
  | crcInit | crcCompute => exact h
  | sfxParse hx | opVerify hx | opRemove hx => exact hbank hx
  | sfxSerialize _ _ hfit _ hextra =>
    have hlen := readRange_length hextra
    exact memoryWf_appendImage h (by rw [trailer_length]; omega)
  | opAdd _ _ hfit =>
    exact memoryWf_appendImage h (by rw [trailer_length]; exact hfit)
  | tlvParse hb hrs => exact memoryWf_writeRecordObject h hb hrs
  | tlvSerialize _ _ _ hfit => exact memoryWf_appendImage h hfit
  | opVerifyKnown hx _ hrs =>
    obtain ⟨hb, -⟩ := parseSuffix_eq_ok hx
    exact memoryWf_writeRecordObject (hbank hx) hb hrs

theorem exec_memoryWf {i : Instr} {s t : State} (h : exec i s = .next t) (hs : s.memoryWf) : t.memoryWf := by
  cases exec_ends h with
  | fails k => exact hs
  | writes pfx hu => exact hu.memoryWf hs
  | malformedList _ hx =>
    obtain ⟨-, -, hextra, -⟩ := parseSuffix_eq_ok hx
    exact memoryWf_writeBank hs hextra

/-- Every command keeps the invariant, and so does a word that encodes none (30_encoding rule R64). -/
theorem runCommand_inv {w : Word} {s t : State} (h : runCommand w s = .next t) (hs : s.memoryWf) : t.Inv := by
  unfold runCommand at h
  split at h
  · exact ⟨exec_memoryWf h hs, exec_statusLegal h⟩
  · cases h
    exact ⟨hs, statusLegal_statusWord (by simp)⟩

/-! ### The host's other events -/

theorem hostRead_eq_next {m : Space} {i size : Nat} {o : Option ReadValue} {s t : State}
    (h : hostRead m i size o s = .next t) : ∃ v, t = report v s := by
  unfold hostRead at h
  split at h
  · split at h
    · rename_i v
      cases h
      exact ⟨v, rfl⟩
    · cases h
  · cases h

theorem hostWrite_eq_next {m : Space} {i size : Nat} {u t : State} (h : hostWrite m i size u = .next t) :
    i < size ∧ t = u := by
  unfold hostWrite at h
  split at h
  · rename_i hi
    cases h
    exact ⟨hi, rfl⟩
  · cases h

theorem writeReg_status (n : Nat) (v : Word) (s : State) : (writeReg n v s).status = s.status := by
  unfold writeReg; split <;> rfl

theorem writeByte_status (m : ByteSpace) (i : Nat) (b : Byte) (s : State) : (writeByte m i b s).status = s.status := by
  rw [writeByte_frame]

theorem writeRecWord_status (j : Nat) (v : Word) (s : State) : (writeRecWord j v s).status = s.status := by
  rw [writeRecWord_frame]

theorem hostRead_inv {m : Space} {i size : Nat} {o : Option ReadValue} {s t : State}
    (h : hostRead m i size o s = .next t) (hs : s.Inv) : t.Inv := by
  obtain ⟨v, rfl⟩ := hostRead_eq_next h
  exact hs

/-- A host access inside a space, and the platform's reset, keep the invariant. -/
theorem hostEvent_inv {e : HostEvent} {s t : State} (h : hostEvent e s = .next t) (hs : s.Inv) : t.Inv := by
  obtain ⟨hmem, hstatus⟩ := hs
  cases e with
  | writeReg n v =>
    cases h
    exact ⟨memoryWf_writeReg hmem n v, (writeReg_status n v s).symm ▸ hstatus⟩
  | readReg n =>
    cases h
    exact ⟨hmem, hstatus⟩
  | writeByte m i b =>
    obtain ⟨hi, rfl⟩ := hostWrite_eq_next h
    exact ⟨memoryWf_writeByte hmem hi b, (writeByte_status m i b s).symm ▸ hstatus⟩
  | readByte m i => exact hostRead_inv h ⟨hmem, hstatus⟩
  | writeRec j v =>
    obtain ⟨hj, rfl⟩ := hostWrite_eq_next h
    exact ⟨memoryWf_writeRecWord hmem hj v, (writeRecWord_status j v s).symm ▸ hstatus⟩
  | readRec j => exact hostRead_inv h ⟨hmem, hstatus⟩
  | reset =>
    cases h
    exact resetMeetsTheInvariant s.cfg

/-- Settles O55: a command, an illegal word and every other host event keep the invariant. -/
theorem stepKeepsTheInvariant : Obligations.StepKeepsTheInvariant := by
  intro s t hs h
  unfold step at h
  split at h
  · cases h
  · split at h
    · exact runCommand_inv h hs.1
    · exact hostEvent_inv h hs

end Sys2Proof.Machine

/-! ## `load` -/

namespace Sys2Proof.Machine

theorem run_succ_of_step {s t : State} (h : step s = .next t) (k : Nat) :
    Host.Core.run core (k + 1) s = Host.Core.run core k t := by
  have hstep : core.step s = .next t := h
  simp only [Host.Core.run, hstep]

/-- `wb BUF, i, b0 b1 ...` inside BUF is the run of writes of its bytes (30_encoding rule R66). -/
theorem run_lineWb_buf {s : State} {i : Nat} {bs : List Byte} {rest : List HostEvent}
    (hs : s.script = lineWb .buf i bs ++ rest) (h : i + bs.length ≤ s.cfg.bufSize) (k : Nat) :
    Host.Core.run core (bs.length + k) s =
      Host.Core.run core k { s with buf := writeCells s.buf i bs, script := rest } := by
  induction bs generalizing s i with
  | nil =>
    obtain rfl : s.script = rest := hs
    rw [List.length_nil, Nat.zero_add]
    rfl
  | cons b bs ih =>
    rw [List.length_cons] at h ⊢
    rw [Nat.add_right_comm]
    have hfirst := step_writeByte (rest := lineWb .buf (i + 1) bs ++ rest) hs (show i < s.cfg.bufSize by omega)
    have hrest := ih (s := writeByte .buf i b { s with script := lineWb .buf (i + 1) bs ++ rest }) (i := i + 1) rfl
      (show i + 1 + bs.length ≤ s.cfg.bufSize by omega)
    exact (run_succ_of_step hfirst _).trans hrest

/-- Settles O14: the byte writes, then the write of `BUF_LEN`. -/
theorem loadPresentsTheImage : Obligations.LoadPresentsTheImage := by
  intro s bs rest hfit hs
  have hlen : (BitVec.ofNat 32 bs.length).toNat = bs.length :=
    (BitVec.toNat_ofNat _ _).trans (Nat.mod_eq_of_lt (hfit.trans_lt s.cfg.bufSize_lt))
  have hbytes := run_lineWb_buf (hs.trans (List.append_assoc ..)) (by rwa [Nat.zero_add]) 1
  have hbufLen := step_writeReg (rest := rest) (n := 2) (v := BitVec.ofNat 32 bs.length)
    (s := { s with buf := writeCells s.buf 0 bs, script := lineWr .bufLen (BitVec.ofNat 32 bs.length) ++ rest })
    rfl (by decide)
  refine ⟨_, hbytes.trans (run_succ_of_step hbufLen 0), image_eq_some.2 ⟨?_, ?_⟩, rfl, rfl⟩
  · exact hlen.trans_le hfit
  · show readRange (writeCells s.buf 0 bs) 0 (BitVec.ofNat 32 bs.length).toNat = some bs
    rw [hlen]
    exact readRange_writeCells_same s.buf 0 bs

end Sys2Proof.Machine

/-! ## Where a command can fault -/

namespace Sys2Proof.Machine

/-- A fault at an unwritten location inside its space (10_state rule R33). -/
def IsUnwrittenRead (s : State) (f : Fault) : Prop :=
  ∃ m a, f = .unwrittenRead m a ∧ a < spaceSize s.cfg m ∧ isWritten s m a = false

/-- A rule's tests and reads fault only at unwritten locations inside their spaces. -/
def FaultsOnlyUnwritten {α : Type} (s : State) (x : Cmd α) : Prop :=
  ∀ f, x = .error (.fault f) → IsUnwrittenRead s f

section
variable {α β : Type} {s : State}

theorem FaultsOnlyUnwritten.ok (a : α) : FaultsOnlyUnwritten s (.ok a : Cmd α) := fun _ h => by cases h

theorem FaultsOnlyUnwritten.error (k : ErrKind) : FaultsOnlyUnwritten s (.error (.error k) : Cmd α) :=
  fun _ h => by cases h

/-- What follows needs to be looked at only with the values the first part gives. -/
theorem FaultsOnlyUnwritten.bind {x : Cmd α} {g : α → Cmd β} (hx : FaultsOnlyUnwritten s x)
    (hg : ∀ a, x = .ok a → FaultsOnlyUnwritten s (g a)) : FaultsOnlyUnwritten s (x >>= g) := by
  intro f h
  rcases Cmd.bind_eq_error.1 h with h | ⟨a, ha, h⟩
  · exact hx f h
  · exact hg a ha f h

/-- What follows a test is looked at only where the test holds. -/
theorem FaultsOnlyUnwritten.require {p : Prop} [Decidable p] {k : ErrKind} {g : Unit → Cmd β}
    (hg : p → FaultsOnlyUnwritten s (g ())) : FaultsOnlyUnwritten s (require p k >>= g) :=
  .bind (fun _ h => by cases (require_eq_error.1 h).2) fun _ h => hg (require_eq_ok.1 h)

theorem demand_faultsOnly {m : Space} {i : Nat} {o : Option α} (hi : i < spaceSize s.cfg m)
    (ho : isWritten s m i = o.isSome) : FaultsOnlyUnwritten s (demand m i o) := by
  intro f h
  obtain ⟨rfl, hf⟩ := demand_eq_error.1 h
  exact ⟨m, i, Stop.fault.inj hf, hi, ho⟩

end

section
variable {s : State}

theorem spaceSize_space (c : Config) (m : ByteSpace) : spaceSize c m.space = m.size c := by cases m <;> rfl

theorem readBytes_faultsOnly (m : ByteSpace) {a n : Nat} (h : a + n ≤ m.size s.cfg) :
    FaultsOnlyUnwritten s (readBytes m.space (cellsOf s m) a n) := by
  intro f hf
  obtain ⟨i, -, hi, hnone, hfault⟩ := readBytes_eq_error hf
  refine ⟨m.space, i, Stop.fault.inj hfault, ?_, ?_⟩
  · rw [spaceSize_space]
    omega
  · rw [isWritten_space, hnone]
    rfl

theorem readByte_faultsOnly (m : ByteSpace) {a : Nat} (h : a < m.size s.cfg) :
    FaultsOnlyUnwritten s (readByte m.space (cellsOf s m) a) :=
  demand_faultsOnly (by rwa [spaceSize_space]) (isWritten_space s m a)

theorem readHalf_faultsOnly {a : Nat} (h : a + 1 < s.cfg.bufSize) : FaultsOnlyUnwritten s (readHalf s.buf a) :=
  .bind (readByte_faultsOnly .buf (Nat.lt_of_succ_lt h)) fun _ _ => .bind (readByte_faultsOnly .buf h) fun _ _ => .ok _

theorem readWord_faultsOnly {a : Nat} (h : a + 3 < s.cfg.bufSize) : FaultsOnlyUnwritten s (readWord s.buf a) := by
  have hbyte : ∀ i, i ≤ 3 → FaultsOnlyUnwritten s (readByte .buf s.buf (a + i)) :=
    fun i hi => readByte_faultsOnly .buf (show a + i < s.cfg.bufSize by omega)
  exact .bind (hbyte 0 (by omega)) fun _ _ => .bind (hbyte 1 (by omega)) fun _ _ =>
    .bind (hbyte 2 (by omega)) fun _ _ => .bind (hbyte 3 (by omega)) fun _ _ => .ok _

/-! ### Trailers -/

theorem structural_faultsOnly {n : Nat} (hn : n ≤ s.cfg.bufSize) : FaultsOnlyUnwritten s (structural s.buf n) := by
  unfold structural
  split
  · exact .ok _
  · exact .bind (readBytes_faultsOnly .buf (show n - 8 + 3 ≤ s.cfg.bufSize by omega)) fun _ _ =>
      .bind (readByte_faultsOnly .buf (show n - 5 < s.cfg.bufSize by omega)) fun _ _ => .ok _

/-- The fields of a sound trailer lie in the image (41_suffix rule R111). -/
theorem readSuffix_faultsOnly {n : Nat} (hn : n ≤ s.cfg.bufSize) (hsound : structural s.buf n = .ok true) :
    FaultsOnlyUnwritten s (readSuffix s.buf n) := by
  obtain ⟨h16, -, length, hlength, hge, hle⟩ := structural_eq_true hsound
  refine .bind (readByte_faultsOnly .buf (show n - 5 < s.cfg.bufSize by omega)) fun length' hlength' => ?_
  obtain rfl : length = length' := Option.some.inj (hlength.symm.trans (readByte_eq_ok.1 hlength'))
  exact .bind (readHalf_faultsOnly (by omega)) fun _ _ => .bind (readHalf_faultsOnly (by omega)) fun _ _ =>
    .bind (readHalf_faultsOnly (by omega)) fun _ _ => .bind (readHalf_faultsOnly (by omega)) fun _ _ =>
    .bind (readBytes_faultsOnly .buf (show n - length.toNat + (length.toNat - 16) ≤ s.cfg.bufSize by omega)) fun _ _ =>
    .bind (readWord_faultsOnly (by omega)) fun _ _ => .ok _

/-- The body of an image lies in BUF. -/
theorem readBody_faultsOnly {n : Nat} (hn : n ≤ s.cfg.bufSize) : FaultsOnlyUnwritten s (readBytes .buf s.buf 0 n) :=
  readBytes_faultsOnly .buf (by rwa [Nat.zero_add])

theorem parseSuffix_faultsOnly (v : Bool) : FaultsOnlyUnwritten s (parseSuffix v s) := by
  refine .require fun hb => .bind (structural_faultsOnly hb) fun sound hsound => .require fun htrue =>
    .bind (readSuffix_faultsOnly hb (htrue ▸ hsound)) fun x _ => ?_
  split
  · exact .bind (readBody_faultsOnly ((Nat.sub_le _ _).trans hb)) fun _ _ => .require fun _ => .ok _
  · exact .ok _

/-! ### The record stream -/

theorem scanTlv_faultsOnly {n : Nat} (hn : n ≤ s.cfg.bufSize) (fuel off : Nat) :
    FaultsOnlyUnwritten s (scanTlv s.buf n fuel off) := by
  induction fuel generalizing off with
  | zero => exact .error _
  | succ fuel ih =>
    refine .require fun hoff => .bind (readByte_faultsOnly .buf (show off < s.cfg.bufSize by omega)) fun size _ =>
      .bind (readByte_faultsOnly .buf (show off + 1 < s.cfg.bufSize by omega)) fun tag _ => ?_
    split
    · exact .ok _
    · refine .require fun _ => .require fun hvalue => .bind (readBytes_faultsOnly .buf ?_) fun _ _ =>
        .bind (ih _) fun _ _ => .ok _
      show off + 2 + (size.toNat - 1) ≤ s.cfg.bufSize
      omega

theorem checkEntries_faultsOnly {i n : Nat} (h : i + n ≤ s.cfg.recMax) :
    FaultsOnlyUnwritten s (checkEntries s i n) := by
  induction n generalizing i with
  | zero => exact .ok _
  | succ n ih =>
    have hodd : 2 * i + 1 < spaceSize s.cfg .recWords := show 2 * i + 1 < 2 * s.cfg.recMax by omega
    exact .bind (demand_faultsOnly hodd (isWritten_recHead s i)) fun _ _ => .require fun _ => .require fun _ =>
      .bind (demand_faultsOnly (Nat.lt_of_succ_lt hodd) (isWritten_recOff s i)) fun _ _ => .require fun _ =>
      .bind (ih (by omega)) fun _ _ => .ok _

theorem readValues_faultsOnly {ds : List Descriptor} (h : ∀ d ∈ ds, d.off.toNat + d.len.toNat ≤ s.cfg.valSize) :
    FaultsOnlyUnwritten s (readValues s.val ds) := by
  induction ds with
  | nil => exact .ok _
  | cons d ds ih =>
    obtain ⟨hd, hds⟩ := List.forall_mem_cons.1 h
    exact .bind (readBytes_faultsOnly .val hd) fun _ _ => .bind (ih hds) fun _ _ => .ok _

/-! ### The rules -/

theorem crcComputeEffect_faultsOnly : FaultsOnlyUnwritten s (crcComputeEffect s) :=
  .require fun hb => .require fun hrange =>
    .bind (readBytes_faultsOnly .buf (hrange.trans hb)) fun _ _ => .ok _

theorem sfxSerializeEffect_faultsOnly : FaultsOnlyUnwritten s (sfxSerializeEffect s) :=
  .require fun hb => .require fun hmax => .require fun _ => .bind (readBody_faultsOnly hb) fun _ _ =>
    .bind (readBytes_faultsOnly .extra (by rwa [Nat.zero_add])) fun _ _ => .ok _

theorem opAddEffect_faultsOnly (force : Bool) : FaultsOnlyUnwritten s (opAddEffect force s) := by
  refine .require fun hb => ?_
  cases force
  case' false => refine .bind (structural_faultsOnly hb) fun _ _ => ?_
  case' true => refine .bind (.ok false) fun _ _ => ?_
  all_goals exact .require fun _ => .require fun _ => .bind (readBody_faultsOnly hb) fun _ _ => .ok _

theorem tlvSerializeEffect_faultsOnly : FaultsOnlyUnwritten s (tlvSerializeEffect s) := by
  refine .require fun hb => .require fun hmax => .bind (checkEntries_faultsOnly (by rwa [Nat.zero_add])) fun ds hds =>
    .require fun _ => .bind (readValues_faultsOnly ?_) fun _ _ => .ok _
  obtain ⟨-, hentry⟩ := checkEntries_eq_ok.1 hds
  intro d hd
  obtain ⟨j, hj, rfl⟩ := List.getElem_of_mem hd
  obtain ⟨-, -, -, -, hsize⟩ := hentry j hj
  exact hsize

/-! ### The commands -/

/-- A command ends as its rule does. -/
theorem conclude_faultsOnly {op : Byte} {pfx : Bool} {u : State} {r : Cmd State} {f : Fault}
    (hr : FaultsOnlyUnwritten s r) (h : conclude op pfx u r = .fault f) : IsUnwrittenRead s f :=
  hr f (conclude_eq_fault.1 h)

theorem execOpVerify_fault {f : Fault} (h : execOpVerify s = .fault f) : IsUnwrittenRead s f := by
  have hparse := parseSuffix_faultsOnly (s := s) true
  unfold execOpVerify at h
  split at h
  · rename_i e he
    rw [he] at hparse
    refine hparse f (congrArg Except.error ?_)
    simpa using conclude_eq_fault.1 h
  · rename_i x hx
    obtain ⟨hb, -⟩ := parseSuffix_eq_ok hx
    split at h
    · exact conclude_faultsOnly (.bind (scanTlv_faultsOnly hb _ _) fun _ _ => .ok _) h
    · exact conclude_faultsOnly (.ok _) h

theorem exec_fault {i : Instr} {f : Fault} (h : exec i s = .fault f) : IsUnwrittenRead s f := by
  cases i with
  | crcInit => cases h
  | crcCompute => exact conclude_faultsOnly crcComputeEffect_faultsOnly h
  | sfxParse v => exact conclude_faultsOnly (.bind (parseSuffix_faultsOnly v) fun _ _ => .ok _) h
  | sfxSerialize => exact conclude_faultsOnly sfxSerializeEffect_faultsOnly h
  | tlvParse =>
    exact conclude_faultsOnly (.require fun hb => .bind (scanTlv_faultsOnly hb _ _) fun _ _ => .ok _) h
  | tlvSerialize => exact conclude_faultsOnly tlvSerializeEffect_faultsOnly h
  | opAdd force => exact conclude_faultsOnly (opAddEffect_faultsOnly force) h
  | opVerify => exact execOpVerify_fault h
  | opRemove force => exact conclude_faultsOnly (.bind (parseSuffix_faultsOnly true) fun _ _ => .ok _) h

theorem exec_ne_refused (i : Instr) (r : Refusal) : exec i s ≠ .refused r := by
  cases i with
  | crcInit => exact fun h => by cases h
  | opVerify =>
    obtain ⟨pfx, u, rule, hrule⟩ := execOpVerify_eq_conclude s
    exact hrule.trans_ne conclude_ne_refused
  | crcCompute | sfxParse | sfxSerialize | tlvParse | tlvSerialize | opAdd | opRemove => exact conclude_ne_refused

end

/-- Settles O48: every command ends by `conclude`, and every read of its rule is inside its space. -/
theorem commandsFaultOnlyOnUnwrittenReads : Obligations.CommandsFaultOnlyOnUnwrittenReads :=
  fun i _ => ⟨exec_ne_refused i, fun _ h => exec_fault h⟩

end Sys2Proof.Machine

/-! ## What a command leaves of REC and VAL -/

namespace Sys2Proof.Machine

section
variable (op : Byte) (pfx : Bool) (k : ErrKind) (s : State)

theorem recordsFrom_setStatus (i n : Nat) : recordsFrom (setStatus op pfx k s) i n = recordsFrom s i n := by
  induction n generalizing i with
  | zero => rfl
  | succ n ih => rw [recordsFrom, recordsFrom, ih]; rfl

@[simp] theorem records_setStatus : records (setStatus op pfx k s) = records s := by
  simp only [records, recordsFrom_setStatus, setStatus_recCount, setStatus_cfg]

end

/-- REC and VAL read the same, from entry `i` of REC and from byte `a` of VAL on. -/
def SameRecordsFrom (i a : Nat) (s t : State) : Prop :=
  (∀ j, i ≤ j → readCell t.recOff j = readCell s.recOff j ∧ readCell t.recHead j = readCell s.recHead j) ∧
    ∀ b, a ≤ b → readCell t.val b = readCell s.val b

/-- REC and VAL read the same throughout. -/
abbrev SameRecords (s t : State) : Prop := SameRecordsFrom 0 0 s t

theorem SameRecordsFrom.refl (i a : Nat) (s : State) : SameRecordsFrom i a s s :=
  ⟨fun _ _ => ⟨rfl, rfl⟩, fun _ _ => rfl⟩

/-- A list written to the record object leaves the entries and values after it. -/
theorem writeRecordObject_sameRecordsFrom (rs : List Record) (s : State) :
    SameRecordsFrom rs.length (valueTotal rs) s (writeRecordObject rs s) := by
  refine ⟨fun j hj => ⟨?_, ?_⟩, fun b hb => ?_⟩
  · rw [writeRecordObject_recOff, readCell_writeRecords_recOff, if_neg (by omega)]
  · rw [writeRecordObject_recHead, readCell_writeRecords_recHead, dif_neg (by omega)]
  · exact readCell_writeRecords_val_outside rs 0 0 b s (.inr (by omega))

/-- The command succeeds and writes the record object; it is TLV_PARSE, or OP_VERIFY with `PFX = 1` (42_tlv rule R145,
43_workflow rule R177). -/
def WritesRecords (i : Instr) (s t : State) : Prop :=
  (i = .tlvParse ∨ statusPfx t.status = true) ∧ statusErr t.status = 0 ∧
    ∃ rs, records t = some rs ∧ t.recCount.toNat = rs.length ∧ SameRecordsFrom rs.length (valueTotal rs) s t

/-- A parsed list is what the record object holds after it is written (42_tlv rules R143, R146). -/
theorem writesRecords_of_parseTlv {i : Instr} {s : State} {rs : List Record} {op : Byte} {pfx : Bool}
    (hi : i = .tlvParse ∨ pfx = true) (hb : s.bufLen.toNat ≤ s.cfg.bufSize)
    (hrs : parseTlv s.buf s.bufLen.toNat = .ok rs) :
    WritesRecords i s (setStatus op pfx .ok (writeRecordObject rs s)) := by
  obtain ⟨hfit, hlegal⟩ := scanTlv_eq_ok hrs
  have hrec := s.cfg.recMax_ge
  have hmax := s.cfg.recMax_lt
  have hval := s.cfg.valSize_ge
  have hrecords : records (writeRecordObject rs s) = some rs :=
    records_writeRecordObject (by omega) (by omega) fun r hr => (hlegal r hr).2.trans (by decide)
  refine ⟨by simpa using hi, by simp [ErrKind.code], rs, by simpa using hrecords, ?_,
    writeRecordObject_sameRecordsFrom rs s⟩
  exact (BitVec.toNat_ofNat _ _).trans (Nat.mod_eq_of_lt (by omega))

/-- OP_VERIFY of the known pair with a parsed record list sets `PFX` (43_workflow rule R177). -/
theorem exec_opVerify_known {s : State} {x : Suffix} {rs : List Record} (hx : parseSuffix true s = .ok x)
    (hpair : knownPair x = true) (hrs : parseTlv s.buf s.bufLen.toNat = .ok rs) :
    exec .opVerify s = .next (setStatus 0x31 true .ok (writeRecordObject rs (writeBank x s))) := by
  simp only [exec, execOpVerify, hx, hpair, hrs, if_true]
  rfl

theorem exec_records_eq {i : Instr} {s t : State} (h : exec i s = .next t) : SameRecords s t ∨ WritesRecords i s t := by
  cases exec_ends h with
  | fails k => exact .inl (.refl 0 0 s)
  | malformedList => exact .inl (.refl 0 0 s)
  | writes pfx hu =>
    cases hu with
    | crcInit | crcCompute | sfxParse | sfxSerialize | tlvSerialize | opAdd | opVerify | opRemove =>
      exact .inl (.refl 0 0 s)
    | tlvParse hb hrs => exact .inr (writesRecords_of_parseTlv (.inl rfl) hb hrs)
    | @opVerifyKnown x rs hx hpair hrs =>
      obtain ⟨hb, -⟩ := parseSuffix_eq_ok hx
      have hnext := h.symm.trans (exec_opVerify_known hx hpair hrs)
      rw [Host.Outcome.next.inj hnext]
      exact .inr (writesRecords_of_parseTlv (s := writeBank x s) (.inr rfl) hb hrs)

/-- Settles O54: a command keeps REC and VAL, or writes a parsed list and keeps what lies after it. -/
theorem recordMemoryFrame : Obligations.RecordMemoryFrame := by
  intro i s t h
  rcases exec_records_eq h with ⟨hrec, hval⟩ | ⟨hi, herr, rs, hrs, hcount, hrec, hval⟩
  · refine ⟨fun _ a => ?_, fun _ _ _ _ => ⟨fun a _ => hrec a a.zero_le, fun a _ => hval a a.zero_le⟩⟩
    obtain ⟨hoff, hhead⟩ := hrec a a.zero_le
    exact ⟨hoff, hhead, hval a a.zero_le⟩
  · constructor
    · rintro (⟨hne, hpfx⟩ | hfail)
      · simp [hne, hpfx] at hi
      · exact absurd herr hfail
    · intro _ rs' _ hrs'
      obtain rfl : rs = rs' := Option.some.inj (hrs.symm.trans hrs')
      exact ⟨fun a ha => hrec a (hcount ▸ ha), hval⟩

end Sys2Proof.Machine

/-! ## Command words -/

namespace Sys2Proof

theorem flagless_eq_ok {flg : Bool} {i j : Instr} : flagless flg i = .ok j ↔ flg = false ∧ i = j := by
  cases flg <;> simp [flagless]

/-- A row of the opcode map names the command of its opcode and flag (30_encoding rules R61, R62). -/
theorem decodeFields_opc_flg (i : Instr) : decodeFields i.opc.toNat i.flg = .ok i := by
  cases i <;> rfl

/-- A decoded command has the opcode and the flag it was decoded from. -/
theorem opc_flg_of_decodeFields {opc : Nat} {flg : Bool} {i : Instr} (h : decodeFields opc flg = .ok i) :
    opc = i.opc.toNat ∧ flg = i.flg := by
  unfold decodeFields at h
  split at h
  case h_3 | h_7 | h_9 =>
    cases h
    exact ⟨rfl, rfl⟩
  case h_10 => cases h
  all_goals
    obtain ⟨rfl, rfl⟩ := flagless_eq_ok.1 h
    exact ⟨rfl, rfl⟩

/-- What the decoder tests of a word: `RSV` is zero, `OPC` and `FLG` are the command's own (30_encoding rule R62). -/
theorem decode_eq_ok_iff_fields {w : Word} {i : Instr} :
    decode w = .ok i ↔ rsvOf w = 0 ∧ opcOf w = i.opc ∧ flgOf w = i.flg := by
  constructor
  · intro h
    unfold decode at h
    split at h
    · rename_i hrsv
      obtain ⟨hopc, hflg⟩ := opc_flg_of_decodeFields h
      exact ⟨hrsv, BitVec.eq_of_toNat_eq hopc, hflg⟩
    · cases h
  · rintro ⟨hrsv, hopc, hflg⟩
    rw [decode, if_pos hrsv, hopc, hflg, decodeFields_opc_flg]

/-- Every command's word has the shape of 30_encoding rule R60, and the opcode map admits it. -/
theorem wordShape (i : Instr) : Laws.WordShape.Statement i := by
  cases i with
  | crcInit => exact Laws.WordShape.crcInit
  | crcCompute => exact Laws.WordShape.crcCompute
  | sfxParse verify => exact Laws.WordShape.sfxParse verify
  | sfxSerialize => exact Laws.WordShape.sfxSerialize
  | tlvParse => exact Laws.WordShape.tlvParse
  | tlvSerialize => exact Laws.WordShape.tlvSerialize
  | opAdd force => exact Laws.WordShape.opAdd force
  | opVerify => exact Laws.WordShape.opVerify
  | opRemove force => exact Laws.WordShape.opRemove force

/-- `RSV`, `FLG` and `OPC` are the whole word (30_encoding rule R60). -/
theorem word_eq_of_fields {w w' : Word} (hrsv : rsvOf w = rsvOf w') (hopc : opcOf w = opcOf w')
    (hflg : flgOf w = flgOf w') : w = w' := by
  apply BitVec.eq_of_getLsbD_eq
  intro i hi
  rcases Nat.lt_trichotomy i 8 with h | rfl | h
  · have := congrArg (BitVec.getLsbD · i) hopc
    simpa [opcOf, BitVec.getLsbD_extractLsb', h] using this
  · exact hflg
  · have := congrArg (BitVec.getLsbD · (i - 9)) hrsv
    simpa [rsvOf, BitVec.getLsbD_extractLsb', show i - 9 < 23 by omega, show 9 + (i - 9) = i by omega] using this

theorem decode_encode (i : Instr) : decode (encode i) = .ok i := by
  obtain ⟨hrsv, hopc, hflg, -, -⟩ := wordShape i
  exact decode_eq_ok_iff_fields.2 ⟨hrsv, hopc, hflg⟩

/-- A word decodes to a command exactly where it is that command's word. -/
theorem decode_eq_ok_iff {w : Word} {i : Instr} : decode w = .ok i ↔ encode i = w := by
  constructor
  · intro h
    obtain ⟨hrsv, hopc, hflg⟩ := decode_eq_ok_iff_fields.1 h
    obtain ⟨hrsv', hopc', hflg', -, -⟩ := wordShape i
    exact word_eq_of_fields (hrsv'.trans hrsv.symm) (hopc'.trans hopc.symm) (hflg'.trans hflg.symm)
  · rintro rfl
    exact decode_encode i

/-- Settles O1: the fields of an encoded word are its command's, and they are the whole word. -/
theorem decodeInvertsEncode : Obligations.DecodeInvertsEncode :=
  ⟨fun i _ => decode_encode i, fun _ _ => decode_eq_ok_iff.1⟩

/-! ### The opcode map -/

/-- The twelve command words of 30_encoding rule R62, each with its command. -/
def commandWords : List (Word × Instr) :=
  [(0x00000001, .crcInit), (0x00000002, .crcCompute), (0x00000010, .sfxParse false),
    (0x00000110, .sfxParse true), (0x00000011, .sfxSerialize), (0x00000020, .tlvParse),
    (0x00000021, .tlvSerialize), (0x00000030, .opAdd false), (0x00000130, .opAdd true),
    (0x00000031, .opVerify), (0x00000032, .opRemove false), (0x00000132, .opRemove true)]

theorem encode_mem_commandWords (i : Instr) : (encode i, i) ∈ commandWords := by
  cases i with
  | sfxParse flg | opAdd flg | opRemove flg => revert flg; decide
  | crcInit | crcCompute | sfxSerialize | tlvParse | tlvSerialize | opVerify => decide

theorem mem_commandWords_iff {w : Word} {i : Instr} : (w, i) ∈ commandWords ↔ encode i = w := by
  constructor
  · have hrows : ∀ p ∈ commandWords, encode p.2 = p.1 := by decide
    exact hrows (w, i)
  · rintro rfl
    exact encode_mem_commandWords i

/-- A row's mask covers `RSV`, `OPC`, and `FLG` where the row says no (30_encoding rule R62). -/
theorem OpcodeRow.mask_fields (r : OpcodeRow) :
    rsvOf r.mask = BitVec.allOnes 23 ∧ opcOf r.mask = BitVec.allOnes 8 ∧ flgOf r.mask = !r.flagAllowed := by
  cases h : r.flagAllowed <;> simp only [mask, h] <;> decide

/-- An opcode with zeros above is a word with `RSV` and `FLG` at 0 (30_encoding rule R60). -/
theorem opcodeWord_fields (opc : Byte) :
    rsvOf (opc.setWidth 32) = 0 ∧ opcOf (opc.setWidth 32) = opc ∧ flgOf (opc.setWidth 32) = false := by
  refine ⟨BitVec.eq_of_getLsbD_eq fun i hi => ?_, BitVec.eq_of_getLsbD_eq fun i hi => ?_, ?_⟩
  · simp [rsvOf, BitVec.getLsbD_of_ge opc (9 + i) (by omega)]
  · simp [opcOf, hi, show i < 32 by omega]
  · simp [flgOf]

/-- The fields of a word that a row admits (30_encoding rule R62). -/
theorem OpcodeRow.fields_of_admits {r : OpcodeRow} {w : Word} (h : r.admits w = true) :
    rsvOf w = 0 ∧ opcOf w = r.opc ∧ (flgOf w = true → r.flagAllowed = true) := by
  have hw : w &&& r.mask = r.opc.setWidth 32 := eq_of_beq h
  obtain ⟨hrsvMask, hopcMask, hflgMask⟩ := r.mask_fields
  obtain ⟨hrsvWord, hopcWord, hflgWord⟩ := opcodeWord_fields r.opc
  refine ⟨?_, ?_, fun hflg => ?_⟩
  · calc rsvOf w = rsvOf w &&& rsvOf r.mask := by rw [hrsvMask, BitVec.and_allOnes]
      _ = rsvOf (w &&& r.mask) := BitVec.extractLsb'_and.symm
      _ = 0 := by rw [hw, hrsvWord]
  · calc opcOf w = opcOf w &&& opcOf r.mask := by rw [hopcMask, BitVec.and_allOnes]
      _ = opcOf (w &&& r.mask) := BitVec.extractLsb'_and.symm
      _ = r.opc := by rw [hw, hopcWord]
  · have hand : flgOf (w &&& r.mask) = (flgOf w && flgOf r.mask) := BitVec.getLsbD_and
    simpa [hw, hflgWord, hflg, hflgMask] using hand

/-- Each row's opcode decodes with the flag at 0, and at 1 where the row allows it. -/
theorem decodeFields_isOk_of_row : ∀ r ∈ opcodeMap, ∀ flg : Bool, (flg = true → r.flagAllowed = true) →
    (decodeFields r.opc.toNat flg).isOk = true := by decide

theorem commandWordLegal_iff {w : Word} : commandWordLegal w = true ↔ ∃ i, decode w = .ok i := by
  constructor
  · intro h
    obtain ⟨r, hr, hadmits⟩ := List.any_eq_true.1 h
    obtain ⟨hrsv, hopc, hflg⟩ := OpcodeRow.fields_of_admits hadmits
    have hok := decodeFields_isOk_of_row r hr _ hflg
    rw [decode, if_pos hrsv, hopc]
    cases hi : decodeFields r.opc.toNat (flgOf w) with
    | ok i => exact ⟨i, rfl⟩
    | error e => simp [hi, Except.isOk, Except.toBool] at hok
  · rintro ⟨i, hi⟩
    obtain ⟨-, -, -, hlegal, -⟩ := wordShape i
    rwa [decode_eq_ok_iff.1 hi] at hlegal

/-- Settles O2: the words decoded are the words encoded, which are the twelve of the map. -/
theorem decoderFollowsOpcodeMap : Obligations.DecoderFollowsOpcodeMap :=
  fun _ => ⟨fun _ => decode_eq_ok_iff.trans mem_commandWords_iff.symm, commandWordLegal_iff⟩

/-- Settles O3: each word is its command's own. -/
theorem sampleWordsDecode : Obligations.SampleWordsDecode :=
  ⟨decode_encode .crcCompute, decode_encode (.sfxParse true), decode_encode .tlvSerialize, decode_encode .opVerify⟩

/-! ### Illegal words -/

theorem Instr.opc_mem (i : Instr) :
    i.opc ∈ ([0x01, 0x02, 0x10, 0x11, 0x20, 0x21, 0x30, 0x31, 0x32] : List Byte) := by
  cases i <;> simp [opc]

/-- A command whose flag is 1 is of a row that allows it (30_encoding rule R61). -/
theorem Instr.opc_mem_of_flg {i : Instr} (h : i.flg = true) : i.opc ∈ ([0x10, 0x30, 0x32] : List Byte) := by
  cases i with
  | sfxParse | opAdd | opRemove => simp [opc]
  | crcInit | crcCompute | sfxSerialize | tlvParse | tlvSerialize | opVerify => cases h

end Sys2Proof

namespace Sys2Proof.Machine

/-- A step at a write to `CMD` of a word that encodes no command is `IllegalCommand` (30_encoding rule R64). -/
theorem step_eq_illegalCommand {s : State} {w : Word} {rest : List HostEvent}
    (hs : s.script = .writeReg 0 w :: rest) (hw : ∀ i, decode w ≠ .ok i) :
    step s = illegalCommand w { s with script := rest } := by
  cases hdecode : decode w with
  | ok i => exact absurd hdecode (hw i)
  | error e => simp only [step, hs, commandOf, runCommand, hdecode]

/-- Settles O4: each of the three conditions contradicts the fields of a decoded word. -/
theorem illegalWordOnlyReports : Obligations.IllegalWordOnlyReports := by
  intro s w rest hillegal hs
  refine step_eq_illegalCommand hs fun i hi => ?_
  obtain ⟨hrsv, (hopc : w.extractLsb' 0 8 = i.opc), hflg⟩ := decode_eq_ok_iff_fields.1 hi
  rcases hillegal with hbits | hunlisted | ⟨hset, hnot⟩
  · exact hbits hrsv
  · exact hunlisted (hopc.symm ▸ i.opc_mem)
  · exact hnot (hopc.symm ▸ Instr.opc_mem_of_flg (hflg.symm.trans hset))

/-! ## The encoding of a TLV list -/

/-- The terminator ends the list, whatever follows it (42_tlv rules R141, R142). -/
theorem parseTlvTurns_terminator (turns : Nat) (tail : List Byte) :
    parseTlvTurns (turns + 1) (0x01 :: 0x00 :: tail) = some [] := rfl

/-- A turn takes one legal record off the front of the stream (42_tlv rule R142). -/
theorem parseTlvTurns_encodeRecord {r : Record} (hr : r.legal) (turns : Nat) (tail : List Byte) :
    parseTlvTurns (turns + 1) (encodeRecord r ++ tail) = (parseTlvTurns turns tail).map (r :: ·) := by
  obtain ⟨htag, hlen⟩ := hr
  have hsize : (BitVec.ofNat 8 (1 + r.value.length)).toNat = 1 + r.value.length :=
    (BitVec.toNat_ofNat _ _).trans (Nat.mod_eq_of_lt (by omega))
  have hpos : BitVec.ofNat 8 (1 + r.value.length) ≠ 0 := fun h => by
    rw [h] at hsize
    exact absurd hsize.symm (by simp)
  rw [encodeRecord, List.cons_append, List.cons_append, parseTlvTurns, if_neg htag, if_neg hpos, hsize,
    Nat.add_sub_cancel_left, if_neg (by simp), List.drop_left, List.take_left]
  cases parseTlvTurns turns tail <;> rfl

/-- A turn for each record and one for the terminator are enough. -/
theorem parseTlvTurns_encodeList {rs : List Record} (hrs : ∀ r ∈ rs, r.legal) {turns : Nat} (h : rs.length < turns)
    (tail : List Byte) : parseTlvTurns turns (encodeList rs ++ tail) = some rs := by
  induction rs generalizing turns with
  | nil =>
    obtain ⟨turns, rfl⟩ := Nat.exists_eq_add_of_lt h
    exact parseTlvTurns_terminator _ tail
  | cons r rs ih =>
    obtain ⟨hr, hrest⟩ := List.forall_mem_cons.1 hrs
    obtain ⟨turns, rfl⟩ := Nat.exists_eq_add_of_lt h
    rw [encodeList, List.append_assoc, parseTlvTurns_encodeRecord hr, ih hrest (by rw [List.length_cons]; omega)]
    rfl

/-- Settles O33: the stream has more bytes than the list has records, so the turns do not run out. -/
theorem encodedListParsesBack : Obligations.EncodedListParsesBack := by
  intro rs align tail hrs
  rw [encodeTlv, List.append_assoc, parseTlvImg]
  refine parseTlvTurns_encodeList hrs ?_ _
  rw [List.length_append, encodeList_length]
  omega

/-! ### The fill (30_encoding rule R74) -/

theorem fillCount_lt {a : Nat} (ha : 0 < a) (len : Nat) : fillCount len a < a := by
  rw [fillCount, if_neg ha.ne']
  exact Nat.mod_lt _ ha

theorem dvd_add_fillCount {a : Nat} (ha : 0 < a) (len : Nat) : a ∣ len + fillCount len a := by
  have hle := (Nat.mod_lt len ha).le
  rw [fillCount, if_neg ha.ne', Nat.dvd_iff_mod_eq_zero, Nat.add_mod_mod, ← Nat.mod_add_mod, Nat.add_sub_cancel' hle,
    Nat.mod_self]

theorem fillCount_of_le_one {a : Nat} (ha : a ≤ 1) (len : Nat) : fillCount len a = 0 := by
  rcases Nat.le_one_iff_eq_zero_or_eq_one.1 ha with rfl | rfl
  · rfl
  · exact Nat.mod_one _

theorem encodeTlv_length (rs : List Record) (a : Nat) :
    (encodeTlv rs a).length = (encodeList rs).length + fillCount (encodeList rs).length a := by
  rw [encodeTlv, List.length_append, List.length_replicate]

/-- Settles O34, by the facts about the fill's length. -/
theorem paddingReachesTheAlignment : Obligations.PaddingReachesTheAlignment := by
  intro rs a
  refine ⟨fun ha => ?_, ⟨_, rfl⟩, fun ha => ?_⟩
  · rw [encodeTlv_length]
    exact ⟨dvd_add_fillCount ha _, Nat.add_lt_add_left (fillCount_lt ha _) _⟩
  · rw [encodeTlv, fillCount_of_le_one ha, List.replicate_zero, List.append_nil]

end Sys2Proof.Machine

/-! ## The checksum -/

namespace Sys2Proof.Machine

/-! ### One turn of the loop (40_crc rule R91) -/

/-- A turn shifts right by one place and, where the bit shifted out is set, adds the polynomial. -/
theorem getLsbD_crcBit (r : Word) (i : Nat) :
    (crcBit r).getLsbD i = (r.getLsbD (1 + i) ^^ (r.getLsbD 0 && (0xEDB88320 : Word).getLsbD i)) := by
  cases h : r.getLsbD 0 <;>
    simp only [crcBit, h, if_true, Bool.false_eq_true, if_false, BitVec.getLsbD_xor, BitVec.getLsbD_ushiftRight,
      Bool.true_and, Bool.false_and, Bool.xor_false]

theorem crcBit_eq_shift {r : Word} (h : r.getLsbD 0 = false) : crcBit r = r >>> 1 :=
  if_neg (by rw [h]; exact Bool.false_ne_true)

theorem crcBit_xor (a b : Word) : crcBit (a ^^^ b) = crcBit a ^^^ crcBit b := by
  apply BitVec.eq_of_getLsbD_eq
  intro i _
  simp only [BitVec.getLsbD_xor, getLsbD_crcBit, Bool.and_xor_distrib_right, Bool.xor_assoc, Bool.xor_left_comm]

/-- Bit 31 of a turn's result is the bit the turn shifts out: the polynomial's own bit 31 is set. -/
theorem getLsbD_crcBit_top (r : Word) : (crcBit r).getLsbD 31 = r.getLsbD 0 := by
  rw [getLsbD_crcBit, BitVec.getLsbD_of_ge r _ (by omega), Bool.false_xor]
  exact Bool.and_true _

theorem crcBit_injective : Function.Injective crcBit := by
  intro a b h
  have h0 : a.getLsbD 0 = b.getLsbD 0 := by rw [← getLsbD_crcBit_top, h, getLsbD_crcBit_top]
  apply BitVec.eq_of_getLsbD_eq
  intro i _
  cases i with
  | zero => exact h0
  | succ i =>
    have hi := congrArg (·.getLsbD i) h
    simp only [getLsbD_crcBit, h0, Bool.xor_left_inj] at hi
    rwa [Nat.add_comm 1 i] at hi

/-! ### One byte: eight turns -/

theorem crcStep_eq_iterate (r : Word) (b : Byte) : crcStep r b = crcBit^[8] (r ^^^ b.setWidth 32) := rfl

theorem crcStep_zero_byte (r : Word) : crcStep r 0 = crcBit^[8] r := congrArg crcBit^[8] BitVec.xor_zero

theorem crcBit_iterate_xor (n : Nat) (a b : Word) : crcBit^[n] (a ^^^ b) = crcBit^[n] a ^^^ crcBit^[n] b := by
  induction n generalizing a b with
  | zero => rfl
  | succ n ih => simp only [Function.iterate_succ_apply, crcBit_xor, ih]

/-- Turns that shift out only zeros are a shift. -/
theorem crcBit_iterate_eq_shift {n : Nat} {r : Word} (h : ∀ i < n, r.getLsbD i = false) :
    crcBit^[n] r = r >>> n := by
  induction n generalizing r with
  | zero => exact (BitVec.ushiftRight_zero r).symm
  | succ n ih =>
    have hshift : ∀ i < n, (r >>> 1).getLsbD i = false := fun i hi => by
      rw [BitVec.getLsbD_ushiftRight]
      exact h _ (by omega)
    rw [Function.iterate_succ_apply, crcBit_eq_shift (h 0 n.succ_pos), ih hshift,
      ← BitVec.shiftRight_add, Nat.add_comm]

/-- For a fixed byte the step is affine in the register. -/
theorem crcStep_xor_xor (r x y : Word) (b : Byte) :
    crcStep (r ^^^ x ^^^ y) b = crcStep r b ^^^ crcStep x b ^^^ crcStep y b := by
  simp only [crcStep_eq_iterate, crcBit_iterate_xor]
  grind

theorem crcStep_injective (b : Byte) : Function.Injective (crcStep · b) := fun _ _ h =>
  (BitVec.xor_left_inj _).1 (crcBit_injective.iterate 8 h)

theorem crcStep_byte_injective (r : Word) : Function.Injective (crcStep r) := by
  intro b b' h
  have hw : b.setWidth 32 = b'.setWidth 32 := (BitVec.xor_right_inj _).1 (crcBit_injective.iterate 8 h)
  simpa using congrArg (BitVec.setWidth 8) hw

theorem getLsbD_and_lowByte (x : Word) (i : Nat) :
    (x &&& 0x000000FF).getLsbD i = (x.getLsbD i && decide (i < 8)) := by
  have hmask : (0x000000FF : Word) = (BitVec.allOnes 8).setWidth 32 := rfl
  rw [hmask, BitVec.getLsbD_and, BitVec.getLsbD_setWidth, BitVec.getLsbD_allOnes]
  by_cases hi : i < 8
  · rw [decide_eq_true (show i < 32 by omega), Bool.true_and]
  · rw [decide_eq_false hi, Bool.and_false]

/-- Settles O18: the low byte goes through the table; the eight turns only shift the other bits, which `b` does not
reach. -/
theorem checksumStepByTable : Obligations.ChecksumStepByTable := by
  intro r b
  set x := r ^^^ b.setWidth 32 with hx
  have hlow : ∀ i < 8, (x ^^^ (x &&& 0x000000FF)).getLsbD i = false := fun i hi => by
    rw [BitVec.getLsbD_xor, getLsbD_and_lowByte, decide_eq_true hi, Bool.and_true, Bool.xor_self]
  have hhigh : (x ^^^ (x &&& 0x000000FF)) >>> 8 = r >>> 8 := by
    apply BitVec.eq_of_getLsbD_eq
    intro i _
    have hb : (b.setWidth 32).getLsbD (8 + i) = false := by
      rw [BitVec.getLsbD_setWidth, BitVec.getLsbD_of_ge b _ (by omega), Bool.and_false]
    rw [BitVec.getLsbD_ushiftRight, BitVec.getLsbD_ushiftRight, BitVec.getLsbD_xor, getLsbD_and_lowByte,
      decide_eq_false (by omega), Bool.and_false, Bool.xor_false, hx, BitVec.getLsbD_xor, hb, Bool.xor_false]
  calc crcStep r b = crcBit^[8] (x ^^^ (x &&& 0x000000FF) ^^^ (x &&& 0x000000FF)) := by
        rw [xor_cancel_right, crcStep_eq_iterate]
    _ = r >>> 8 ^^^ crcStep (x &&& 0x000000FF) 0 := by
        rw [crcBit_iterate_xor, crcBit_iterate_eq_shift hlow, hhigh, crcStep_zero_byte]

/-! ### A sequence of bytes (40_crc rules R92, R94, R97) -/

theorem crcRaw_append (a b : List Byte) (r : Word) : crcRaw (a ++ b) r = crcRaw b (crcRaw a r) := by
  induction a generalizing r with
  | nil => rfl
  | cons x a ih => exact ih _

theorem crcRaw_xor_xor (bytes : List Byte) (r x y : Word) :
    crcRaw bytes (r ^^^ x ^^^ y) = crcRaw bytes r ^^^ crcRaw bytes x ^^^ crcRaw bytes y := by
  induction bytes generalizing r x y with
  | nil => rfl
  | cons b bytes ih => simp only [crcRaw, crcStep_xor_xor, ih]

theorem crcRaw_injective (bytes : List Byte) : Function.Injective (crcRaw bytes) := by
  induction bytes with
  | nil => exact Function.injective_id
  | cons b bytes ih => exact ih.comp (crcStep_injective b)

theorem crc_nil (c : Config) (s : Word) : crc c [] s = s := by
  rw [crc, crcRaw, BitVec.xor_comm, xor_cancel_right]

/-- Between two pieces the constant cancels: the result complemented in again is the register (rule R94). -/
theorem crc_xor_crcXor (c : Config) (bytes : List Byte) (s : Word) :
    crc c bytes s ^^^ crcXor c = crcRaw bytes (s ^^^ crcXor c) := by
  rw [crc, BitVec.xor_comm, xor_cancel_left]

theorem crc_append (c : Config) (a b : List Byte) (s : Word) : crc c (a ++ b) s = crc c b (crc c a s) := by
  rw [crc, crc, crc_xor_crcXor, crcRaw_append]

theorem crc_injective (c : Config) (bytes : List Byte) : Function.Injective (crc c bytes) := fun _ _ h =>
  (BitVec.xor_left_inj _).1 (crcRaw_injective bytes ((BitVec.xor_right_inj _).1 h))

theorem crc_singleton_injective (c : Config) (s : Word) : Function.Injective fun b => crc c [b] s := fun _ _ h =>
  crcStep_byte_injective _ ((BitVec.xor_right_inj _).1 h)

/-- Settles O15: the constant cancels between the two pieces. -/
theorem checksumChains : Obligations.ChecksumChains := fun c a b s => (crc_append c a b s).symm

/-- Settles O16: the words are finitely many, so an injective map of them is bijective. -/
theorem checksumIsAffineBijection : Obligations.ChecksumIsAffineBijection := by
  intro c bytes
  refine ⟨crc_nil c, Finite.injective_iff_bijective.1 (crc_injective c bytes), fun s d => ?_⟩
  have hraw : crcRaw bytes (s ^^^ d ^^^ crcXor c) =
      crcRaw bytes (s ^^^ crcXor c) ^^^ crcRaw bytes d ^^^ crcRaw bytes 0 := by
    rw [← crcRaw_xor_xor, LawfulXor.xor_zero]
    ac_rfl
  rw [crc, crc, hraw]
  ac_rfl

/-- Settles O17: the checksum over the changed byte differs, and the bytes behind it keep different seeds apart. -/
theorem checksumDetectsOneByteChange : Obligations.ChecksumDetectsOneByteChange := by
  intro c front back b b' s hb h
  simp only [List.append_cons _ _ back, crc_append] at h
  exact hb (crc_singleton_injective c _ (crc_injective c back h))

/-- In both settings the register starts at all ones (rule R93). -/
theorem defaultSeed_xor_crcXor (c : Config) : defaultSeed c ^^^ crcXor c = 0xFFFFFFFF :=
  xor_cancel_right _ _

/-- Settles O19, by evaluation; the settings differ only in the constant added at the end. -/
theorem checksumSampleValues : Obligations.ChecksumSampleValues := by
  refine ⟨by decide, by decide, by decide, by decide, fun c => ?_⟩
  have hraw : crcRaw [0x31, 0x32, 0x33, 0x34, 0x35, 0x36, 0x37, 0x38, 0x39] 0xFFFFFFFF = 0x340BC6D9 := by
    decide +kernel
  rw [crc, defaultSeed_xor_crcXor, hraw, crcXor]
  cases c.crc <;> rfl

/-! ### The two commands (rules R95, R96) -/

/-- Settles O20: the rule has no test and no read, so it succeeds in every state. -/
theorem crcInitLoadsDefaultSeed : Obligations.CrcInitLoadsDefaultSeed := ⟨rfl, fun _ => rfl⟩

/-- BadOperand is the command's only error. -/
theorem crcComputeEffect_error_kind {s : State} {k : ErrKind} (h : crcComputeEffect s = .error (.error k)) :
    k = .badOperand := by
  rcases Cmd.bind_eq_error.1 h with h | ⟨_, -, h⟩
  · exact Stop.error.inj (require_eq_error.1 h).2
  rcases Cmd.bind_eq_error.1 h with h | ⟨_, -, h⟩
  · exact Stop.error.inj (require_eq_error.1 h).2
  rcases Cmd.bind_eq_error.1 h with h | ⟨_, -, h⟩
  · obtain ⟨_, _, _, _, hfault⟩ := readBytes_eq_error h
    cases hfault
  · cases h

/-- CRC_COMPUTE on a written range inside the image. -/
theorem exec_crcCompute_ok {s : State} {bytes : List Byte} (hb : s.bufLen.toNat ≤ s.cfg.bufSize)
    (hrange : s.crcOff.toNat + s.crcCnt.toNat ≤ s.bufLen.toNat)
    (hbytes : readRange s.buf s.crcOff.toNat s.crcCnt.toNat = some bytes) :
    exec .crcCompute s = .next { s with crcAcc := crc s.cfg bytes s.crcAcc, status := 0x00000200 } :=
  conclude_eq_next.2 (.inl ⟨_, crcComputeEffect_eq_ok.2 ⟨hb, hrange, bytes, hbytes, rfl⟩, rfl⟩)

/-- Where CRC_COMPUTE reports Ok, its range was inside the image and written. -/
theorem crcCompute_of_exec_ok {s t : State} (h : exec .crcCompute s = .next t) (herr : statusErr t.status = 0) :
    ∃ bytes, s.bufLen.toNat ≤ s.cfg.bufSize ∧ s.crcOff.toNat + s.crcCnt.toNat ≤ s.bufLen.toNat ∧
      readRange s.buf s.crcOff.toNat s.crcCnt.toNat = some bytes ∧
      t = { s with crcAcc := crc s.cfg bytes s.crcAcc, status := 0x00000200 } := by
  rcases conclude_eq_next.1 h with ⟨u, hu, rfl⟩ | ⟨k, hk, rfl⟩
  · obtain ⟨hb, hrange, bytes, hbytes, rfl⟩ := crcComputeEffect_eq_ok.1 hu
    exact ⟨bytes, hb, hrange, hbytes, rfl⟩
  · rw [crcComputeEffect_error_kind hk, setStatus_status, statusErr_statusWord] at herr
    cases herr

theorem exec_crcCompute_badOperand {s : State}
    (h : s.cfg.bufSize < s.bufLen.toNat ∨ s.bufLen.toNat < s.crcOff.toNat + s.crcCnt.toNat) :
    exec .crcCompute s = .next { s with status := 0x00000215 } := by
  refine conclude_eq_next.2 (.inr ⟨.badOperand, ?_, rfl⟩)
  by_cases hb : s.bufLen.toNat ≤ s.cfg.bufSize
  · rw [crcComputeEffect, require_pos hb, Cmd.ok_bind, require_neg (by omega), Cmd.error_bind]
  · rw [crcComputeEffect, require_neg hb, Cmd.error_bind]

/-- Settles O21: the two ways the command ends. -/
theorem crcComputeContinuesTheSeed : Obligations.CrcComputeContinuesTheSeed :=
  ⟨rfl, fun _ => ⟨fun _ => exec_crcCompute_ok, exec_crcCompute_badOperand⟩⟩

/-- Settles O22: both ranges are written and inside the image, so the whole one is, and its bytes are
theirs in order. -/
theorem adjacentRangesChain : Obligations.AdjacentRangesChain := by
  intro s t u a b c hab hbc hc ht hterr hu huerr
  obtain ⟨front, hb, -, hfront, rfl⟩ := crcCompute_of_exec_ok ht hterr
  obtain ⟨back, -, hrange, hback, rfl⟩ := crcCompute_of_exec_ok hu huerr
  have hofNat : ∀ n ≤ c, (BitVec.ofNat 32 n).toNat = n := fun n hn => Nat.mod_eq_of_lt (by omega)
  simp (disch := omega) only [hofNat] at hfront hback hrange
  have hwhole : readRange s.buf a (c - a) = some (front ++ back) := by
    have hcnt : c - a = b - a + (c - b) := by omega
    rw [hcnt]
    exact readRange_append hfront (by rwa [Nat.add_sub_cancel' hab])
  have hinside : a + (c - a) ≤ s.bufLen.toNat := by omega
  rw [exec_crcCompute_ok (s := { s with crcOff := BitVec.ofNat 32 a, crcCnt := BitVec.ofNat 32 (c - a) })
    (bytes := front ++ back) hb (by simpa (disch := omega) only [hofNat] using hinside)
    (by simpa (disch := omega) only [hofNat] using hwhole), crc_append]

end Sys2Proof.Machine

/-! ## The trailer as the last bytes of an image (30_encoding rules R69 to R71, 41_suffix rule R114) -/

namespace Sys2Proof.Machine

/-! ### Slices -/

section
variable {img : List Byte} {a b c : Nat}

theorem slice_append (hab : a ≤ b) (hbc : b ≤ c) : slice img a b ++ slice img b c = slice img a c := by
  obtain ⟨n, rfl⟩ := Nat.exists_eq_add_of_le hab
  obtain ⟨k, rfl⟩ := Nat.exists_eq_add_of_le hbc
  simp only [slice, List.drop_take, Nat.add_assoc, Nat.add_sub_cancel_left]
  rw [List.take_add, List.drop_drop, show a + (n + k) - (a + n) = k by omega]

theorem slice_self : slice img a a = [] := by
  simp [slice]

theorem slice_cons (hab : a < b) (hb : b ≤ img.length) : slice img a b = byteAt img a :: slice img (a + 1) b := by
  rw [slice, slice, List.drop_eq_getElem_cons (by simp; omega), byteAt_of_lt (by omega), List.getElem_take]

theorem slice_length_self : slice img 0 img.length = img := by
  simp [slice]

/-- The front of a sequence, whatever follows it, is found again. -/
theorem slice_front_append (hb : b ≤ img.length) (back : List Byte) :
    slice (slice img 0 b ++ back) 0 b = slice img 0 b := by
  have hlen : (slice img 0 b).length = b := slice_length hb
  exact (congrArg (slice (slice img 0 b ++ back) 0) hlen.symm).trans List.take_left

theorem byteAt_append_right (front back : List Byte) (i : Nat) :
    byteAt (front ++ back) (front.length + i) = byteAt back i := by
  simp [byteAt, List.getElem?_append_right]

end

/-! ### Little-endian fields -/

theorem le16_halfOf (b0 b1 : Byte) : le16 (halfOf b0 b1) = [b0, b1] := by
  have h0 : (halfOf b0 b1).extractLsb' 0 8 = b0 := BitVec.extractLsb'_append_eq_right
  have h1 : (halfOf b0 b1).extractLsb' 8 8 = b1 := BitVec.extractLsb'_append_eq_left
  rw [le16, h0, h1]

theorem halfOf_le16 (v : Half) : halfOf (v.extractLsb' 0 8) (v.extractLsb' 8 8) = v :=
  (BitVec.extractLsb'_append_extractLsb'_eq_extractLsb' rfl).trans BitVec.extractLsb'_eq_self

theorem le32_wordOf (b0 b1 b2 b3 : Byte) : le32 (wordOf b0 b1 b2 b3) = [b0, b1, b2, b3] := by
  have h0 : (wordOf b0 b1 b2 b3).extractLsb' 0 8 = b0 := BitVec.extractLsb'_append_eq_right
  have h1 : (wordOf b0 b1 b2 b3).extractLsb' 8 8 = b1 :=
    (BitVec.extractLsb'_append_eq_of_le (le_refl 8)).trans BitVec.extractLsb'_append_eq_right
  have h2 : (wordOf b0 b1 b2 b3).extractLsb' 16 8 = b2 :=
    (BitVec.extractLsb'_append_eq_of_le (by decide)).trans <|
      (BitVec.extractLsb'_append_eq_of_le (le_refl 8)).trans BitVec.extractLsb'_append_eq_right
  have h3 : (wordOf b0 b1 b2 b3).extractLsb' 24 8 = b3 :=
    (BitVec.extractLsb'_append_eq_of_le (by decide)).trans <|
      (BitVec.extractLsb'_append_eq_of_le (by decide)).trans BitVec.extractLsb'_append_eq_left
  rw [le32, h0, h1, h2, h3]

theorem wordOf_le32 (v : Word) :
    wordOf (v.extractLsb' 0 8) (v.extractLsb' 8 8) (v.extractLsb' 16 8) (v.extractLsb' 24 8) = v := by
  have h16 : v.extractLsb' 24 8 ++ v.extractLsb' 16 8 = v.extractLsb' 16 (8 + 8) :=
    BitVec.extractLsb'_append_extractLsb'_eq_extractLsb' rfl
  have h8 : v.extractLsb' 16 (8 + 8) ++ v.extractLsb' 8 8 = v.extractLsb' 8 (8 + 8 + 8) :=
    BitVec.extractLsb'_append_extractLsb'_eq_extractLsb' rfl
  rw [wordOf, h16, h8]
  exact (BitVec.extractLsb'_append_extractLsb'_eq_extractLsb' rfl).trans BitVec.extractLsb'_eq_self

theorem le16_injective : Function.Injective le16 := by
  intro v w h
  simp only [le16, List.cons.injEq] at h
  obtain ⟨h0, h1, -⟩ := h
  rw [← halfOf_le16 v, ← halfOf_le16 w, h0, h1]

theorem le32_injective : Function.Injective le32 := by
  intro v w h
  simp only [le32, List.cons.injEq] at h
  obtain ⟨h0, h1, h2, h3, -⟩ := h
  rw [← wordOf_le32 v, ← wordOf_le32 w, h0, h1, h2, h3]

/-- `le16` of what is read at an index is the two bytes there. -/
theorem le16_rd16 {img : List Byte} {i j : Nat} (hij : j = i + 2) (h : j ≤ img.length) :
    le16 (rd16 img i) = slice img i j := by
  subst hij
  rw [rd16, ← halfOf_eq, le16_halfOf, slice_cons (by omega) h, slice_cons (by omega) h, slice_self]

/-- `le32` of what is read at an index is the four bytes there. -/
theorem le32_rd32 {img : List Byte} {i j : Nat} (hij : j = i + 4) (h : j ≤ img.length) :
    le32 (rd32 img i) = slice img i j := by
  subst hij
  rw [rd32, ← wordOf_eq, le32_wordOf, slice_cons (by omega) h, slice_cons (by omega) h, slice_cons (by omega) h,
    slice_cons (by omega) h, slice_self]

/-! ### A sound image ends in the trailer of its Suffix -/

/-- The whole trailer of a Suffix (30_encoding rule R70). -/
def Suffix.bytes (x : Suffix) : List Byte := trailer x.bcdDevice x.idProduct x.idVendor x.bcdDfu x.extra x.crc

theorem Suffix.bytes_eq (x : Suffix) : x.bytes = x.block ++ le32 x.crc := rfl

@[simp] theorem Suffix.block_length (x : Suffix) : x.block.length = x.extra.length + 12 := fieldBlock_length ..

@[simp] theorem Suffix.bytes_length (x : Suffix) : x.bytes.length = x.extra.length + 16 := trailer_length ..

/-- A trailer says what its Suffix is, once the length of `extra` is known. -/
theorem Suffix.eq_of_bytes_eq {x y : Suffix} (hlen : x.extra.length = y.extra.length) (h : x.bytes = y.bytes) :
    x = y := by
  simp only [Suffix.bytes_eq, Suffix.block, fieldBlock, List.append_assoc] at h
  obtain ⟨hextra, h⟩ := List.append_inj h hlen
  obtain ⟨hdev, h⟩ := List.append_inj h rfl
  obtain ⟨hpid, h⟩ := List.append_inj h rfl
  obtain ⟨hvid, h⟩ := List.append_inj h rfl
  obtain ⟨hdfu, h⟩ := List.append_inj h rfl
  obtain ⟨-, h⟩ := List.append_inj h rfl
  obtain ⟨-, hcrc⟩ := List.append_inj h rfl
  obtain ⟨⟩ := x
  obtain ⟨⟩ := y
  rw [Suffix.mk.injEq]
  exact ⟨le16_injective hdfu, le16_injective hvid, le16_injective hpid, le16_injective hdev, hextra,
    le32_injective hcrc⟩

/-- `Structural` with the signature as one slice (41_suffix rule R111). -/
theorem structuralImg_eq_true {img : List Byte} :
    structuralImg img = true ↔ 16 ≤ img.length ∧ slice img (img.length - 8) (img.length - 5) = signature ∧
      16 ≤ trailerLength img ∧ trailerLength img ≤ img.length := by
  by_cases h16 : 16 ≤ img.length
  · have hsig : slice img (img.length - 8) (img.length - 5) =
        [byteAt img (img.length - 8), byteAt img (img.length - 7), byteAt img (img.length - 6)] := by
      rw [slice_cons (by omega) (by omega), slice_cons (by omega) (by omega), slice_cons (by omega) (by omega),
        show img.length - 8 + 1 = img.length - 7 by omega, show img.length - 7 + 1 = img.length - 6 by omega,
        show img.length - 6 + 1 = img.length - 5 by omega, slice_self]
    simp [structuralImg, h16, hsig, signature, and_assoc]
  · simp [structuralImg, h16]

/-- The field block rebuilt from a sound image is the image's own bytes (41_suffix rule R114). -/
theorem suffixOf_block {img : List Byte} (h : structuralImg img = true) :
    (suffixOf img).block = slice img (img.length - trailerLength img) (img.length - 4) := by
  obtain ⟨h16, hsig, hge, hle⟩ := structuralImg_eq_true.1 h
  have hlength : [BitVec.ofNat 8 (16 + (suffixOf img).extra.length)] =
      slice img (img.length - 5) (img.length - 4) := by
    rw [suffixOf_extra_length h, Nat.add_sub_cancel' hge, slice_cons (by omega) (by omega), trailerLength,
      BitVec.ofNat_toNat, BitVec.setWidth_eq, show img.length - 5 + 1 = img.length - 4 by omega, slice_self]
  rw [Suffix.block, fieldBlock, hlength, ← hsig]
  simp only [suffixOf]
  rw [le16_rd16 (j := img.length - 14) (by omega) (by omega), le16_rd16 (j := img.length - 12) (by omega) (by omega),
    le16_rd16 (j := img.length - 10) (by omega) (by omega), le16_rd16 (j := img.length - 8) (by omega) (by omega)]
  simp (disch := omega) only [slice_append]

/-- Body and field block are all but the last four bytes (41_suffix rule R114). -/
theorem bodyOf_append_block {img : List Byte} (h : structuralImg img = true) :
    bodyOf img ++ (suffixOf img).block = slice img 0 (img.length - 4) := by
  obtain ⟨h16, hge, hle⟩ := structuralImg_bounds h
  rw [suffixOf_block h, bodyOf, slice_append (by omega) (by omega)]

/-- A sound image is its body and the trailer of its Suffix. -/
theorem bodyOf_append_bytes {img : List Byte} (h : structuralImg img = true) :
    bodyOf img ++ (suffixOf img).bytes = img := by
  obtain ⟨h16, -, -⟩ := structuralImg_bounds h
  have hcrc : le32 (suffixOf img).crc = slice img (img.length - 4) img.length :=
    le32_rd32 (by omega) (le_refl _)
  rw [Suffix.bytes_eq, ← List.append_assoc, bodyOf_append_block h, hcrc, slice_append (by omega) (by omega),
    slice_length_self]

/-- Settles O24: the image's end is the field block and the stored checksum, and the checksum chains. -/
theorem trailerChecksumIsSinglePass : Obligations.TrailerChecksumIsSinglePass := by
  intro c img h
  refine ⟨suffixOf_block h, ?_⟩
  rw [trailerCrc, ← crc_append, bodyOf_append_block h]

/-! ### An image a trailer was appended to -/

/-- An appended trailer ends in the signature, the length byte and the stored checksum (30_encoding rule R69). -/
theorem append_bytes_eq (body : List Byte) (x : Suffix) :
    ∃ front, body ++ x.bytes = front ++ (signature ++ BitVec.ofNat 8 (16 + x.extra.length) :: le32 x.crc) ∧
      (body ++ x.bytes).length = front.length + 8 := by
  refine ⟨body ++ x.extra ++ le16 x.bcdDevice ++ le16 x.idProduct ++ le16 x.idVendor ++ le16 x.bcdDfu, ?_, ?_⟩
  · simp [Suffix.bytes_eq, Suffix.block, fieldBlock]
  · simp; omega

section
variable (body : List Byte) {x : Suffix} (hx : x.extra.length ≤ extraMax)
include hx

theorem trailerLength_append_bytes : trailerLength (body ++ x.bytes) = 16 + x.extra.length := by
  obtain ⟨front, heq, hlen⟩ := append_bytes_eq body x
  rw [trailerLength, hlen, heq, show front.length + 8 - 5 = front.length + 3 by omega, byteAt_append_right]
  unfold extraMax at hx
  exact (BitVec.toNat_ofNat _ _).trans (Nat.mod_eq_of_lt (by omega))

theorem structuralImg_append_bytes : structuralImg (body ++ x.bytes) = true := by
  obtain ⟨front, heq, hlen⟩ := append_bytes_eq body x
  refine structuralImg_eq_true.2 ⟨by simp; omega, ?_, ?_, ?_⟩
  · rw [hlen, heq, show front.length + 8 - 5 = front.length + 3 by omega, Nat.add_sub_cancel, slice,
      List.take_length_add_append, List.drop_left]
    rfl
  · rw [trailerLength_append_bytes body hx]
    omega
  · rw [trailerLength_append_bytes body hx]
    simp; omega

/-- An appended trailer is found again, with the body before it. -/
theorem bodyOf_suffixOf_append_bytes : bodyOf (body ++ x.bytes) = body ∧ suffixOf (body ++ x.bytes) = x := by
  have hsound := structuralImg_append_bytes body hx
  have hextra := suffixOf_extra_length hsound
  rw [trailerLength_append_bytes body hx, Nat.add_sub_cancel_left] at hextra
  obtain ⟨hbody, hbytes⟩ := List.append_inj' (bodyOf_append_bytes hsound) (by simp [hextra])
  exact ⟨hbody, Suffix.eq_of_bytes_eq hextra hbytes⟩

end

end Sys2Proof.Machine

/-! ## The trailer commands (41_suffix rules R116, R118, R124, R126) -/

namespace Sys2Proof.Machine

/-! ### The suffix bank as a Suffix -/

@[simp] theorem suffixView_setStatus (op : Byte) (pfx : Bool) (k : ErrKind) (s : State) :
    suffixView (setStatus op pfx k s) = suffixView s := rfl

/-- The bank is the Suffix it spells out, field by field (10_state rule R31). -/
theorem suffixView_eq_some {s : State} {x : Suffix} :
    suffixView s = some x ↔ s.sfxExtraLen.toNat ≤ extraMax ∧
      readRange s.extra 0 s.sfxExtraLen.toNat = some x.extra ∧
      x = ⟨s.sfxBcdDfu, s.sfxIdVendor, s.sfxIdProduct, s.sfxBcdDevice, x.extra, s.sfxCrc⟩ := by
  unfold suffixView
  split
  · rename_i hmax
    cases hr : readRange s.extra 0 s.sfxExtraLen.toNat with
    | none => simp
    | some extra =>
      constructor
      · rintro ⟨⟩
        exact ⟨hmax, rfl, rfl⟩
      · rintro ⟨-, ⟨⟩, hx⟩
        exact congrArg some hx.symm
  · simp_all

theorem suffixView_extra_length {s : State} {x : Suffix} (h : suffixView s = some x) :
    x.extra.length = s.sfxExtraLen.toNat ∧ x.extra.length ≤ extraMax := by
  obtain ⟨hmax, hextra, -⟩ := suffixView_eq_some.1 h
  have hlen := readRange_length hextra
  exact ⟨hlen, hlen ▸ hmax⟩

/-- The bank written is the bank read (41_suffix rule R116). -/
theorem suffixView_writeBank {x : Suffix} (hx : x.extra.length ≤ extraMax) (s : State) :
    suffixView (writeBank x s) = some x := by
  have hlen : (BitVec.ofNat 8 x.extra.length).toNat = x.extra.length :=
    (BitVec.toNat_ofNat _ _).trans (Nat.mod_eq_of_lt (by unfold extraMax at hx; omega))
  refine suffixView_eq_some.2 ⟨?_, ?_, rfl⟩
  · rwa [writeBank_sfxExtraLen, hlen]
  · rw [writeBank_sfxExtraLen, hlen]
    exact readRange_writeCells_same s.extra 0 x.extra

/-- Writing back what a range reads as changes no read. -/
theorem readCell_writeCells_of_readRange {α : Type} {m : List (Nat × α)} {a n : Nat} {vs : List α}
    (h : readRange m a n = some vs) (b : Nat) : readCell (writeCells m a vs) b = readCell m b := by
  obtain ⟨hlen, hread⟩ := readRange_eq_some_iff.1 h
  rw [readCell_writeCells]
  split
  · rw [← hread (b - a) (by omega), Nat.add_sub_cancel' (by omega)]
  · rfl

/-- Writing the Suffix the bank already holds changes no register. -/
theorem writeBank_of_suffixView {s : State} {x : Suffix} (h : suffixView s = some x) :
    writeBank x s = { s with extra := writeCells s.extra 0 x.extra } := by
  obtain ⟨hlen, -⟩ := suffixView_extra_length h
  obtain ⟨-, -, hx⟩ := suffixView_eq_some.1 h
  have hword : BitVec.ofNat 8 x.extra.length = s.sfxExtraLen := by rw [hlen, BitVec.ofNat_toNat, BitVec.setWidth_eq]
  rw [writeBank, hword, hx]

/-! ### SFX_PARSE -/

/-- When an image passes the trailer checks (41_suffix rule R116). -/
theorem trailerVerdict_eq_ok {c : Config} {v : Bool} {img : List Byte} :
    trailerVerdict c v img = .ok ↔ structuralImg img = true ∧
      (v = true → trailerCrc c (bodyOf img) (suffixOf img).block = (suffixOf img).crc) := by
  unfold trailerVerdict
  split
  · rename_i hsound
    simp [hsound]
  · rename_i hsound
    split
    · rename_i hcrc
      simp [hcrc]
    · rename_i hcrc
      simpa [hsound] using hcrc

section
variable {v : Bool} {s : State}

theorem exec_sfxParse_ok {x : Suffix} (h : parseSuffix v s = .ok x) :
    exec (.sfxParse v) s = .next (setStatus 0x10 false .ok (writeBank x s)) := by
  rw [exec, execSfxParse, h]
  rfl

theorem exec_sfxParse_error {k : ErrKind} (h : parseSuffix v s = .error (.error k)) :
    exec (.sfxParse v) s = .next { s with status := statusWord 0x10 false k } := by
  rw [exec, execSfxParse, h]
  rfl

theorem parseSuffix_badOperand (h : s.cfg.bufSize < s.bufLen.toNat) :
    parseSuffix v s = .error (.error .badOperand) := by
  rw [parseSuffix, require_neg (by omega), Cmd.error_bind]

/-- What a successful SFX_PARSE leaves: the Suffix in the bank, and nothing else changed. -/
theorem exec_sfxParse_reports {x : Suffix} (h : parseSuffix v s = .ok x) :
    ∃ t, exec (.sfxParse v) s = .next t ∧ t.status = 0x00001000 ∧ suffixView t = some x ∧ onlyBank s t := by
  obtain ⟨-, -, hx, -⟩ := parseSuffix_eq_ok h
  exact ⟨_, exec_sfxParse_ok h, rfl, (suffixView_setStatus ..).trans (suffixView_writeBank hx s), rfl⟩

/-- Without `verify` a written, sound trailer is parsed, whatever lies before it (41_suffix rule R118). -/
theorem parseSuffix_false_of_tail {tail : List Byte} (hb : s.bufLen.toNat ≤ s.cfg.bufSize)
    (hlen : tail.length ≤ s.bufLen.toNat)
    (htail : readRange s.buf (s.bufLen.toNat - tail.length) tail.length = some tail)
    (hsound : structuralImg tail = true) (hlength : trailerLength tail = tail.length) :
    parseSuffix false s = .ok (suffixOf tail) := by
  obtain ⟨h16, hge, hle⟩ := structuralImg_bounds hsound
  have hstructural : structural s.buf s.bufLen.toNat = .ok true := by
    rw [structural_of_tail htail hlen h16]
    simp only [structuralImg, Bool.and_eq_true, decide_eq_true_eq, beq_iff_eq] at hsound
    simp [hsound, hlength, hlen]
  rw [parseSuffix, require_pos hb, Cmd.ok_bind, hstructural, Cmd.ok_bind, require_pos rfl, Cmd.ok_bind,
    readSuffix_of_tail htail hlen hge hle]
  rfl

end

/-- Settles O25: the outcome is the verdict's. -/
theorem sfxParseReportsTheTrailer : Obligations.SfxParseReportsTheTrailer := by
  refine ⟨⟨rfl, rfl⟩, fun s v => ⟨fun img himg => ⟨fun hok => ?_, fun hne => ?_⟩, fun hb => ?_⟩⟩
  · exact exec_sfxParse_reports ((parseSuffix_of_image himg v).trans (if_pos hok))
  · exact exec_sfxParse_error ((parseSuffix_of_image himg v).trans (if_neg hne))
  · exact exec_sfxParse_error (parseSuffix_badOperand hb)

/-- Settles O26: only the trailer is read. -/
theorem sfxParseReadsOnlyTheTrailer : Obligations.SfxParseReadsOnlyTheTrailer := by
  intro s tail hb hlen htail hsound hlength
  have hparse := parseSuffix_false_of_tail hb hlen htail hsound hlength
  obtain ⟨t, ht, hstatus, hview, honly⟩ := exec_sfxParse_reports hparse
  obtain ⟨-, -, hx⟩ := suffixView_eq_some.1 hview
  exact ⟨t, ht, hstatus, hview, (congrArg Suffix.crc hx).symm, honly⟩

/-! ### SFX_SERIALIZE -/

/-- Bytes appended to an image that has room for them (92_eei_decisions D17). -/
theorem image_appendImage {s : State} {img bs : List Byte} (h : image s = some img)
    (hfit : s.bufLen.toNat + bs.length ≤ s.cfg.bufSize) :
    image (appendImage bs s) = some (img ++ bs) ∧ (appendImage bs s).bufLen.toNat = s.bufLen.toNat + bs.length := by
  obtain ⟨-, hread⟩ := image_eq_some.1 h
  have hsize := s.cfg.bufSize_lt
  have hlen : (appendImage bs s).bufLen.toNat = s.bufLen.toNat + bs.length :=
    (BitVec.toNat_ofNat _ _).trans (Nat.mod_eq_of_lt (by omega))
  refine ⟨image_eq_some.2 ⟨hlen ▸ hfit, ?_⟩, hlen⟩
  rw [hlen, appendImage_buf]
  refine readRange_append ((readRange_writeCells_disjoint (.inl (by omega))).trans hread) ?_
  rw [Nat.zero_add]
  exact readRange_writeCells_same s.buf s.bufLen.toNat bs

/-- SFX_SERIALIZE where the trailer of the bank's Suffix fits. -/
theorem exec_sfxSerialize_ok {s : State} {body : List Byte} {x : Suffix} {c : Word} (himg : image s = some body)
    (hx : suffixView s = some x) (hfit : s.bufLen.toNat + s.sfxExtraLen.toNat + 16 ≤ s.cfg.bufSize)
    (hc : c = trailerCrc s.cfg body x.block) :
    ∃ t, exec .sfxSerialize s = .next t ∧ image t = some (body ++ (x.block ++ le32 c)) ∧
      t.bufLen.toNat = s.bufLen.toNat + s.sfxExtraLen.toNat + 16 ∧
      t = { s with status := 0x00001100, buf := t.buf, bufLen := t.bufLen, sfxCrc := c } := by
  obtain ⟨hb, hbody⟩ := image_eq_some.1 himg
  obtain ⟨hmax, hextra, hbank⟩ := suffixView_eq_some.1 hx
  obtain ⟨hextraLen, -⟩ := suffixView_extra_length hx
  have hlen : (x.block ++ le32 c).length = s.sfxExtraLen.toNat + 16 := by simp [hextraLen]
  obtain ⟨himage, hbufLen⟩ := image_appendImage (bs := x.block ++ le32 c) himg (by omega)
  have heffect : sfxSerializeEffect s = .ok { appendImage (x.block ++ le32 c) s with sfxCrc := c } := by
    refine sfxSerializeEffect_eq_ok.2 ⟨hb, hmax, hfit, body, x.extra, c, hbody, hextra, ?_, ?_⟩
    · rw [hc, Suffix.block, hbank]
    · rw [trailer, Suffix.block, hbank]
  exact ⟨_, conclude_eq_next.2 (.inl ⟨_, heffect, rfl⟩), himage, hbufLen.trans (by omega), rfl⟩

theorem exec_sfxSerialize_badOperand {s : State} (h : s.cfg.bufSize < s.bufLen.toNat ∨ 239 < s.sfxExtraLen.toNat) :
    exec .sfxSerialize s = .next { s with status := 0x00001115 } := by
  refine conclude_eq_next.2 (.inr ⟨.badOperand, ?_, rfl⟩)
  by_cases hb : s.bufLen.toNat ≤ s.cfg.bufSize
  · rw [sfxSerializeEffect, require_pos hb, Cmd.ok_bind, require_neg (by unfold extraMax; omega), Cmd.error_bind]
  · rw [sfxSerializeEffect, require_neg hb, Cmd.error_bind]

theorem exec_sfxSerialize_noSpace {s : State} (hb : s.bufLen.toNat ≤ s.cfg.bufSize)
    (hmax : s.sfxExtraLen.toNat ≤ extraMax) (h : s.cfg.bufSize < s.bufLen.toNat + s.sfxExtraLen.toNat + 16) :
    exec .sfxSerialize s = .next { s with status := 0x00001116 } := by
  refine conclude_eq_next.2 (.inr ⟨.noSpace, ?_, rfl⟩)
  rw [sfxSerializeEffect, require_pos hb, Cmd.ok_bind, require_pos hmax, Cmd.ok_bind, require_neg (by omega),
    Cmd.error_bind]

/-- Settles O27: the success and its two failures. -/
theorem sfxSerializeAppendsTheTrailer : Obligations.SfxSerializeAppendsTheTrailer :=
  ⟨rfl, fun _ => ⟨fun _ _ _ => exec_sfxSerialize_ok, exec_sfxSerialize_badOperand, exec_sfxSerialize_noSpace⟩⟩

/-! ### A trailer serialized and parsed -/

theorem readBytes_ne_error {m : Space} {cells : List Host.Cell} {a n : Nat} (k : ErrKind) :
    readBytes m cells a n ≠ .error (.error k) := fun h => by
  obtain ⟨_, _, _, _, hfault⟩ := readBytes_eq_error h
  cases hfault

/-- SFX_SERIALIZE fails with BadOperand or NoSpace only (60_exceptions rule R201). -/
theorem sfxSerializeEffect_error_kind {s : State} {k : ErrKind} (h : sfxSerializeEffect s = .error (.error k)) :
    k = .badOperand ∨ k = .noSpace := by
  simp only [sfxSerializeEffect, Cmd.bind_eq_error, require_eq_error, readBytes_ne_error, Cmd.pure_eq,
    Stop.error.injEq, reduceCtorEq, and_false, exists_false, or_false] at h
  rcases h with ⟨-, hk⟩ | ⟨_, -, ⟨-, hk⟩ | ⟨_, -, -, hk⟩⟩
  · exact .inl hk
  · exact .inl hk
  · exact .inr hk

theorem ErrKind.eq_ok_of_code {k : ErrKind} (h : k.code = 0) : k = .ok := by
  cases k with
  | ok => rfl
  | _ => cases h

/-- Where SFX_SERIALIZE reports Ok, image and bank are written and the trailer fits. -/
theorem sfxSerialize_of_exec_ok {s t : State} (h : exec .sfxSerialize s = .next t) (herr : statusErr t.status = 0) :
    ∃ body x, image s = some body ∧ suffixView s = some x ∧
      s.bufLen.toNat + s.sfxExtraLen.toNat + 16 ≤ s.cfg.bufSize := by
  rcases conclude_eq_next.1 h with ⟨u, hu, -⟩ | ⟨k, hk, rfl⟩
  · obtain ⟨hb, hmax, hfit, body, extra, -, hbody, hextra, -, -⟩ := sfxSerializeEffect_eq_ok.1 hu
    have hview : suffixView s =
        some ⟨s.sfxBcdDfu, s.sfxIdVendor, s.sfxIdProduct, s.sfxBcdDevice, extra, s.sfxCrc⟩ :=
      suffixView_eq_some.2 ⟨hmax, hextra, rfl⟩
    exact ⟨body, _, image_eq_some.2 ⟨hb, hbody⟩, hview, hfit⟩
  · rw [setStatus_status, statusErr_statusWord] at herr
    rcases sfxSerializeEffect_error_kind hk with rfl | rfl <;> cases ErrKind.eq_ok_of_code herr

/-- After a successful SFX_SERIALIZE the image ends in the trailer of the bank, with the right checksum. -/
theorem image_of_sfxSerialize {s t : State} (h : exec .sfxSerialize s = .next t) (herr : statusErr t.status = 0) :
    ∃ body x, image t = some (body ++ x.bytes) ∧ suffixView t = some x ∧ trailerCrc t.cfg body x.block = x.crc := by
  obtain ⟨body, x, himg, hview, hfit⟩ := sfxSerialize_of_exec_ok h herr
  obtain ⟨t', ht', himage, -, honly⟩ := exec_sfxSerialize_ok himg hview hfit rfl
  obtain rfl : t = t' := Host.Outcome.next.inj (h.symm.trans ht')
  obtain ⟨hmax, hextra, hbank⟩ := suffixView_eq_some.1 hview
  refine ⟨body, { x with crc := trailerCrc s.cfg body x.block }, himage, ?_, ?_⟩
  · rw [honly]
    exact suffixView_eq_some.2 ⟨hmax, hextra, by rw [hbank]⟩
  · rw [honly]
    rfl

/-- An image that ends in a trailer with the right checksum is parsed by SFX_PARSE.V (41_suffix rule R126 (b)). -/
theorem parseSuffix_true_of_append {s : State} {body : List Byte} {x : Suffix} (hx : x.extra.length ≤ extraMax)
    (himg : image s = some (body ++ x.bytes)) (hcrc : trailerCrc s.cfg body x.block = x.crc) :
    parseSuffix true s = .ok x := by
  obtain ⟨hbody, hsuffix⟩ := bodyOf_suffixOf_append_bytes body hx
  have hverdict : trailerVerdict s.cfg true (body ++ x.bytes) = .ok :=
    trailerVerdict_eq_ok.2 ⟨structuralImg_append_bytes body hx, fun _ => by rw [hbody, hsuffix, hcrc]⟩
  rw [parseSuffix_of_image himg, if_pos hverdict, hsuffix]

/-- Settles O28: the trailer appended is the bank's, so it is the one parsed. -/
theorem serializedTrailerVerifies : Obligations.SerializedTrailerVerifies := by
  intro s t h herr
  obtain ⟨body, x, himg, hview, hcrc⟩ := image_of_sfxSerialize h herr
  obtain ⟨-, hx⟩ := suffixView_extra_length hview
  have hparse := exec_sfxParse_ok (parseSuffix_true_of_append hx himg hcrc)
  refine ⟨⟨_, himg, structuralImg_append_bytes body hx⟩, _, hparse, rfl, ?_, ?_, ?_⟩
  · rw [suffixView_setStatus, suffixView_writeBank hx, hview]
  · rw [writeBank_of_suffixView hview]
    rfl
  · obtain ⟨-, hextra, -⟩ := suffixView_eq_some.1 hview
    exact readCell_writeCells_of_readRange hextra

/-! ### A trailer parsed, cut off and serialized -/

/-- Where SFX_PARSE of a written image reports Ok, the trailer is sound and, with `verify`, its checksum right. -/
theorem sfxParse_of_exec_ok {s t : State} {v : Bool} {img : List Byte} (himg : image s = some img)
    (h : exec (.sfxParse v) s = .next t) (herr : statusErr t.status = 0) :
    structuralImg img = true ∧ suffixView t = some (suffixOf img) ∧ onlyBank s t ∧
      (v = true → trailerCrc s.cfg (bodyOf img) (suffixOf img).block = (suffixOf img).crc) := by
  have hparse := parseSuffix_of_image himg v
  by_cases hok : trailerVerdict s.cfg v img = .ok
  · rw [if_pos hok] at hparse
    obtain ⟨t', ht', -, hview, honly⟩ := exec_sfxParse_reports hparse
    obtain rfl : t = t' := Host.Outcome.next.inj (h.symm.trans ht')
    obtain ⟨hsound, hcrc⟩ := trailerVerdict_eq_ok.1 hok
    exact ⟨hsound, hview, honly, hcrc⟩
  · rw [if_neg hok] at hparse
    obtain rfl := Host.Outcome.next.inj (h.symm.trans (exec_sfxParse_error hparse))
    rw [statusErr_statusWord] at herr
    exact absurd (ErrKind.eq_ok_of_code herr) hok

/-- The image without its trailer (43_workflow rule R180). -/
theorem image_cut {s : State} {img : List Byte} (h : image s = some img) {n : Nat} (hn : n ≤ img.length) :
    image { s with bufLen := BitVec.ofNat 32 (s.bufLen.toNat - n) } = some (slice img 0 (img.length - n)) := by
  obtain ⟨hb, hread⟩ := image_eq_some.1 h
  have hlen := image_length h
  have hcut : (BitVec.ofNat 32 (s.bufLen.toNat - n)).toNat = img.length - n := by
    rw [← hlen]
    exact (BitVec.toNat_ofNat _ _).trans (Nat.mod_eq_of_lt (by have := s.bufLen.isLt; omega))
  have hfit : img.length - n ≤ s.cfg.bufSize := by omega
  refine image_eq_some.2 ⟨hcut ▸ hfit, ?_⟩
  rw [hcut]
  simpa using readRange_slice hread (i := 0) (j := img.length - n) (by omega) (by omega)

/-- SFX_SERIALIZE of a parsed trailer's bank behind the trailer's body appends the old field block and a checksum
computed anew. -/
theorem exec_sfxSerialize_of_cut {t : State} {img : List Byte} (himg : image t = some img)
    (hsound : structuralImg img = true) (hview : suffixView t = some (suffixOf img)) :
    ∃ u, exec .sfxSerialize { t with bufLen := BitVec.ofNat 32 (t.bufLen.toNat - sfxLength t) } = .next u ∧
      u.status = 0x00001100 ∧ image u = some (slice img 0 (img.length - 4) ++
        le32 (trailerCrc t.cfg (bodyOf img) (suffixOf img).block)) := by
  obtain ⟨-, hge, hle⟩ := structuralImg_bounds hsound
  obtain ⟨hb, -⟩ := image_eq_some.1 himg
  have hlen := image_length himg
  have hextraLen : 16 + t.sfxExtraLen.toNat = trailerLength img := by
    obtain ⟨hx, -⟩ := suffixView_extra_length hview
    rw [suffixOf_extra_length hsound] at hx
    omega
  rw [sfxLength, hextraLen]
  have hbody := image_cut himg hle
  have hfit : (BitVec.ofNat 32 (t.bufLen.toNat - trailerLength img)).toNat + t.sfxExtraLen.toNat + 16 ≤
      t.cfg.bufSize := by
    have hcut : (slice img 0 (img.length - trailerLength img)).length =
        (BitVec.ofNat 32 (t.bufLen.toNat - trailerLength img)).toNat := image_length hbody
    rw [slice_length (by omega)] at hcut
    omega
  obtain ⟨u, hu, himage, -, honly⟩ := exec_sfxSerialize_ok hbody hview hfit rfl
  refine ⟨u, hu, by rw [honly], himage.trans ?_⟩
  rw [← List.append_assoc, ← bodyOf_append_block hsound]
  rfl

/-- Settles O29: the body and the field block are the old image's; the checksum computed is the stored one where
SFX_PARSE.V found it right. -/
theorem parsedTrailerSerializesBack : Obligations.ParsedTrailerSerializesBack := by
  intro s t v img himg h herr
  obtain ⟨hsound, hview, honly, hcrc⟩ := sfxParse_of_exec_ok himg h herr
  obtain ⟨h16, -, -⟩ := structuralImg_bounds hsound
  have himgT : image t = some img := by rw [honly]; exact himg
  have hcfg : t.cfg = s.cfg := by rw [honly]
  obtain ⟨u, hu, hstatus, himage⟩ := exec_sfxSerialize_of_cut himgT hsound hview
  refine ⟨u, _, hu, hstatus, himage, ?_, slice_front_append (by omega) _, fun hv => ?_⟩
  · rw [List.length_append, slice_length (by omega), le32_length]
    omega
  · rw [hcfg, hcrc hv, ← bodyOf_append_block hsound, List.append_assoc]
    exact bodyOf_append_bytes hsound

end Sys2Proof.Machine

/-! ## The checksum registers outside the checksum commands (41_suffix rule R112) -/

namespace Sys2Proof.Machine

section
variable {op : Byte} {pfx : Bool} {s s' : State} {α : Type} {f : State → State}

/-- A command with the same reads ends as a changed copy, where its writes and its failures do. -/
theorem conclude_bind_mapNext {x : Cmd α} {g g' : α → Cmd State}
    (herror : ∀ k, setStatus op false k s' = f (setStatus op false k s))
    (hok : ∀ a, conclude op pfx s' (g' a) = mapNext f (conclude op pfx s (g a))) :
    conclude op pfx s' (x >>= g') = mapNext f (conclude op pfx s (x >>= g)) := by
  rcases x with (e | k) | a
  · rfl
  · exact congrArg Host.Outcome.next (herror k)
  · exact hok a

end

section
variable (acc off cnt : Word) (s : State)

theorem setStatus_withChecksumRegs (op : Byte) (pfx : Bool) (k : ErrKind) :
    setStatus op pfx k (withChecksumRegs acc off cnt s) = withChecksumRegs acc off cnt (setStatus op pfx k s) := rfl

theorem writeRecords_withChecksumRegs (rs : List Record) (i voff : Nat) :
    writeRecords rs i voff (withChecksumRegs acc off cnt s) =
      withChecksumRegs acc off cnt (writeRecords rs i voff s) := by
  induction rs generalizing i voff s with
  | nil => rfl
  | cons r rs ih => exact ih { s with recOff := _, recHead := _, val := _ } _ _

theorem writeRecordObject_withChecksumRegs (rs : List Record) :
    writeRecordObject rs (withChecksumRegs acc off cnt s) =
      withChecksumRegs acc off cnt (writeRecordObject rs s) := by
  simp only [writeRecordObject, writeRecords_withChecksumRegs]
  rfl

/-- The image and the bank registers OP_ADD writes (43_workflow rule R172). -/
theorem freshBank_withChecksumRegs (bs : List Byte) (dfu : Half) (len : Byte) (c : Word) :
    { appendImage bs (withChecksumRegs acc off cnt s) with sfxBcdDfu := dfu, sfxExtraLen := len, sfxCrc := c } =
      withChecksumRegs acc off cnt { appendImage bs s with sfxBcdDfu := dfu, sfxExtraLen := len, sfxCrc := c } := rfl

end

/-- Settles O50: the tests and reads are the same, and each write commutes with a change of the checksum registers. -/
theorem checksumRegistersAreNotTouched : Obligations.ChecksumRegistersAreNotTouched := by
  intro i s acc off cnt hinit hcompute
  have hstatus := setStatus_withChecksumRegs acc off cnt
  cases i with
  | crcInit => exact absurd rfl hinit
  | crcCompute => exact absurd rfl hcompute
  | sfxParse v => exact conclude_bind_mapNext (hstatus s _ _) fun _ => rfl
  | sfxSerialize =>
    exact conclude_bind_mapNext (hstatus s _ _) fun _ => conclude_bind_mapNext (hstatus s _ _) fun _ =>
      conclude_bind_mapNext (hstatus s _ _) fun _ => conclude_bind_mapNext (hstatus s _ _) fun _ =>
      conclude_bind_mapNext (hstatus s _ _) fun _ => rfl
  | tlvParse =>
    exact conclude_bind_mapNext (hstatus s _ _) fun _ => conclude_bind_mapNext (hstatus s _ _) fun rs =>
      congrArg (fun t => Host.Outcome.next (setStatus 0x20 false .ok t))
        (writeRecordObject_withChecksumRegs acc off cnt s rs)
  | tlvSerialize =>
    have hentries : ∀ i n, checkEntries (withChecksumRegs acc off cnt s) i n = checkEntries s i n :=
      checkEntries_congr rfl rfl rfl
    simp only [exec, execTlvSerialize, tlvSerializeEffect, hentries]
    exact conclude_bind_mapNext (hstatus s _ _) fun _ => conclude_bind_mapNext (hstatus s _ _) fun _ =>
      conclude_bind_mapNext (hstatus s _ _) fun _ => conclude_bind_mapNext (hstatus s _ _) fun _ =>
      conclude_bind_mapNext (hstatus s _ _) fun _ => rfl
  | opAdd force =>
    cases force <;>
      exact conclude_bind_mapNext (hstatus s _ _) fun _ => conclude_bind_mapNext (hstatus s _ _) fun _ =>
        conclude_bind_mapNext (hstatus s _ _) fun _ => conclude_bind_mapNext (hstatus s _ _) fun _ =>
        conclude_bind_mapNext (hstatus s _ _) fun _ =>
        congrArg (fun t => Host.Outcome.next (setStatus 0x30 false .ok t))
          (freshBank_withChecksumRegs acc off cnt s _ _ _ _)
  | opVerify =>
    have hparse : parseSuffix true (withChecksumRegs acc off cnt s) = parseSuffix true s := rfl
    simp only [exec, execOpVerify, hparse]
    rcases parseSuffix true s with (f | k) | x
    · rfl
    · rfl
    · by_cases hknown : knownPair x = true
      · simp only [hknown, if_true]
        exact conclude_bind_mapNext (hstatus (writeBank x s) _ _) fun rs =>
          congrArg (fun t => Host.Outcome.next (setStatus 0x31 true .ok t))
            (writeRecordObject_withChecksumRegs acc off cnt (writeBank x s) rs)
      · simp only [hknown]
        rfl
  | opRemove force => exact conclude_bind_mapNext (hstatus s _ _) fun _ => rfl

end Sys2Proof.Machine

/-! ## The TLV commands (42_tlv rules R143, R145, R146, R152, R157) -/

namespace Sys2Proof.Machine

/-! ### TLV_PARSE -/

/-- The command's scan succeeds where the image's bytes parse, with the same list (42_tlv rule R142). -/
theorem parseTlv_eq_ok_iff {s : State} {img : List Byte} (himg : image s = some img) {rs : List Record} :
    parseTlv s.buf s.bufLen.toNat = .ok rs ↔ parseTlvImg img = some rs := by
  obtain ⟨-, hread⟩ := image_eq_some.1 himg
  rw [← image_length himg] at hread ⊢
  rw [parseTlv_of_image hread]
  cases parseTlvImg img <;> simp

/-- A parsed list fits the image and the record object, and its records are legal (42_tlv rules R140, R146). -/
theorem parseTlvImg_fits {s : State} {img : List Byte} {rs : List Record} (himg : image s = some img)
    (hrs : parseTlvImg img = some rs) :
    2 * rs.length + valueTotal rs + 2 ≤ img.length ∧ rs.length ≤ s.cfg.recMax ∧ valueTotal rs < s.cfg.valSize ∧
      ∀ r ∈ rs, r.legal := by
  obtain ⟨hb, -⟩ := image_eq_some.1 himg
  obtain ⟨hfit, hlegal⟩ := scanTlv_eq_ok ((parseTlv_eq_ok_iff himg).2 hrs)
  have hlen := image_length himg
  have hrec := s.cfg.recMax_ge
  have hval := s.cfg.valSize_ge
  exact ⟨by omega, by omega, by omega, hlegal⟩

/-- Settles O32: each record takes two bytes and its value, the terminator two more. -/
theorem tlvParseCannotOverflow : Obligations.TlvParseCannotOverflow := by
  intro s img rs himg hrs
  obtain ⟨hfit, hmax, hval, -⟩ := parseTlvImg_fits himg hrs
  exact ⟨by omega, hmax, by omega, hval⟩

/-- The record object written holds its list as 42_tlv rule R143 lays it out. -/
theorem recordObjectIs_writeRecordObject {s : State} {rs : List Record} (hmax : rs.length ≤ s.cfg.recMax) :
    recordObjectIs (writeRecordObject rs s) rs := by
  have hcount := s.cfg.recMax_lt
  refine ⟨(BitVec.toNat_ofNat _ _).trans (Nat.mod_eq_of_lt (by omega)), fun i hi => ⟨?_, ?_, ?_⟩⟩
  · rw [writeRecordObject_recHead, readCell_writeRecords_recHead, dif_pos (by omega)]
    rfl
  · rw [writeRecordObject_recOff, readCell_writeRecords_recOff, if_pos (by omega), Nat.zero_add, Nat.sub_zero]
  · have hval := readRange_writeRecords_val rs 0 0 i s hi
    rwa [Nat.zero_add] at hval

/-- TLV_PARSE of an image that parses writes the list. -/
theorem exec_tlvParse_ok {s : State} {img : List Byte} {rs : List Record} (himg : image s = some img)
    (hrs : parseTlvImg img = some rs) :
    exec .tlvParse s = .next (setStatus 0x20 false .ok (writeRecordObject rs s)) := by
  obtain ⟨hb, -⟩ := image_eq_some.1 himg
  rw [exec, execTlvParse, require_pos hb, Cmd.ok_bind, (parseTlv_eq_ok_iff himg).2 hrs]
  rfl

theorem exec_tlvParse_malformed {s : State} {img : List Byte} (himg : image s = some img)
    (hrs : parseTlvImg img = none) : exec .tlvParse s = .next { s with status := 0x00002014 } := by
  obtain ⟨hb, hread⟩ := image_eq_some.1 himg
  rw [← image_length himg] at hb hread
  rw [exec, execTlvParse, ← image_length himg, require_pos hb, Cmd.ok_bind, parseTlv_of_image hread, hrs]
  rfl

theorem exec_tlvParse_badOperand {s : State} (h : s.cfg.bufSize < s.bufLen.toNat) :
    exec .tlvParse s = .next { s with status := 0x00002015 } := by
  rw [exec, execTlvParse, require_neg (Nat.not_le.2 h)]
  rfl

/-- A parsed list is `Records()` once written. -/
theorem records_of_parsed {s : State} {img : List Byte} {rs : List Record} (himg : image s = some img)
    (hrs : parseTlvImg img = some rs) : records (writeRecordObject rs s) = some rs := by
  obtain ⟨-, hmax, hval, hlegal⟩ := parseTlvImg_fits himg hrs
  exact records_writeRecordObject hmax hval.le fun r hr => (hlegal r hr).2.trans (by decide)

theorem onlyRecords_writeRecordObject (rs : List Record) (s : State) (op : Byte) (pfx : Bool) (k : ErrKind) :
    onlyRecords s (setStatus op pfx k (writeRecordObject rs s)) := by
  unfold onlyRecords
  rw [State.mk.injEq]
  simp

/-- Settles O30: the three ways the command ends. -/
theorem tlvParseBuildsTheRecords : Obligations.TlvParseBuildsTheRecords := by
  refine ⟨rfl, fun s => ⟨fun img himg => ⟨fun rs hrs => ?_, exec_tlvParse_malformed himg⟩, exec_tlvParse_badOperand⟩⟩
  obtain ⟨-, hmax, -, -⟩ := parseTlvImg_fits himg hrs
  exact ⟨_, exec_tlvParse_ok himg hrs, rfl, recordObjectIs_writeRecordObject hmax,
    (records_setStatus ..).trans (records_of_parsed himg hrs), onlyRecords_writeRecordObject ..⟩

/-- Where TLV_PARSE of a written image reports Ok, the image parses and its list is written. -/
theorem tlvParse_of_exec_ok {s t : State} {img : List Byte} (himg : image s = some img)
    (h : exec .tlvParse s = .next t) (herr : statusErr t.status = 0) :
    ∃ rs, parseTlvImg img = some rs ∧ t = setStatus 0x20 false .ok (writeRecordObject rs s) := by
  cases hrs : parseTlvImg img with
  | some rs => exact ⟨rs, rfl, Host.Outcome.next.inj (h.symm.trans (exec_tlvParse_ok himg hrs))⟩
  | none =>
    obtain rfl := Host.Outcome.next.inj (h.symm.trans (exec_tlvParse_malformed himg hrs))
    exact absurd herr (by decide : statusErr 0x00002014 ≠ 0)

/-- In a record object laid out by 42_tlv rule R143, the values start at 0 and each entry's follows the one before (rule
R145). -/
theorem recordObjectIs_compact {t : State} {rs : List Record} (h : recordObjectIs t rs)
    (htotal : valueTotal rs < 4294967296) (hlegal : ∀ r ∈ rs, r.legal) :
    (0 < rs.length → readCell t.recOff 0 = some 0) ∧
      ∀ i, i + 1 < rs.length → ∃ off off' head, readCell t.recOff i = some off ∧
        readCell t.recHead i = some head ∧ readCell t.recOff (i + 1) = some off' ∧
        off'.toNat = off.toNat + head.len.toNat := by
  obtain ⟨-, hentry⟩ := h
  constructor
  · intro hpos
    obtain ⟨-, hoff, -⟩ := hentry 0 hpos
    exact hoff
  · intro i hi
    obtain ⟨hhead, hoff, -⟩ := hentry i (by omega)
    obtain ⟨-, hoff', -⟩ := hentry (i + 1) hi
    obtain ⟨-, hlen⟩ := hlegal rs[i] (List.getElem_mem _)
    have hnext := valueTotal_take_add rs (show i < rs.length by omega)
    have hle := valueTotal_take_le rs (i + 1)
    refine ⟨_, _, _, hoff, hhead, hoff', ?_⟩
    simp only [BitVec.toNat_ofNat]
    omega

/-- Settles O31: the list is written from entry 0 and byte 0 on, and what lies after it is kept. -/
theorem parsedValuesAreCompact : Obligations.ParsedValuesAreCompact := by
  intro s t img himg h herr
  obtain ⟨rs, hrs, rfl⟩ := tlvParse_of_exec_ok himg h herr
  obtain ⟨-, hmax, hval, hlegal⟩ := parseTlvImg_fits himg hrs
  have hobject : recordObjectIs (setStatus 0x20 false .ok (writeRecordObject rs s)) rs :=
    recordObjectIs_writeRecordObject hmax
  obtain ⟨hfirst, hnext⟩ := recordObjectIs_compact hobject (hval.trans s.cfg.valSize_lt) hlegal
  obtain ⟨hcount, -⟩ := hobject
  obtain ⟨hrec, hvals⟩ := writeRecordObject_sameRecordsFrom rs s
  rw [hcount]
  exact ⟨rs, hrs, (records_setStatus ..).trans (records_of_parsed himg hrs), hfirst, hnext, hrec, hvals⟩

/-! ### TLV_SERIALIZE -/

/-- TLV_SERIALIZE of a legal record object whose stream fits. -/
theorem exec_tlvSerialize_ok {s : State} {rs : List Record} (hrs : records s = some rs) (hlegal : ∀ r ∈ rs, r.legal)
    (hfit : s.bufLen.toNat + (encodeTlv rs s.tlvAlign.toNat).length ≤ s.cfg.bufSize) :
    exec .tlvSerialize s = .next (setStatus 0x21 false .ok (appendImage (encodeTlv rs s.tlvAlign.toNat) s)) := by
  obtain ⟨hmax, ds, hds, hvals⟩ := entries_of_records hrs hlegal
  exact conclude_eq_next.2
    (.inl ⟨_, tlvSerializeEffect_eq_ok.2 ⟨(Nat.le_add_right ..).trans hfit, hmax, ds, rs, hds, hvals, hfit, rfl⟩, rfl⟩)

theorem exec_tlvSerialize_badOperand {s : State}
    (h : s.cfg.bufSize < s.bufLen.toNat ∨ s.cfg.recMax < s.recCount.toNat) :
    exec .tlvSerialize s = .next { s with status := 0x00002115 } := by
  refine conclude_eq_next.2 (.inr ⟨.badOperand, ?_, rfl⟩)
  by_cases hb : s.bufLen.toNat ≤ s.cfg.bufSize
  · rw [tlvSerializeEffect, require_pos hb, Cmd.ok_bind, require_neg (by omega), Cmd.error_bind]
  · rw [tlvSerializeEffect, require_neg hb, Cmd.error_bind]

theorem exec_tlvSerialize_noSpace {s : State} {rs : List Record} (hb : s.bufLen.toNat ≤ s.cfg.bufSize)
    (hrs : records s = some rs) (hlegal : ∀ r ∈ rs, r.legal)
    (h : s.cfg.bufSize < s.bufLen.toNat + (encodeTlv rs s.tlvAlign.toNat).length) :
    exec .tlvSerialize s = .next { s with status := 0x00002116 } := by
  obtain ⟨hmax, ds, hds, hvals⟩ := entries_of_records hrs hlegal
  refine conclude_eq_next.2 (.inr ⟨.noSpace, ?_, rfl⟩)
  rw [encodeTlv_length] at h
  rw [tlvSerializeEffect, require_pos hb, Cmd.ok_bind, require_pos hmax, Cmd.ok_bind, hds, Cmd.ok_bind,
    listLength_eq hvals, require_neg (Nat.not_le.2 h), Cmd.error_bind]

/-- The entry tests at a written entry: a bad one ends them, a good one is passed over (42_tlv rule R152). -/
theorem checkEntries_succ_of_written {s : State} {i : Nat} {head : RecHead} {off : Word}
    (hhead : readCell s.recHead i = some head) (hoff : readCell s.recOff i = some off) (n : Nat) :
    checkEntries s i (n + 1) =
      if badEntry s.cfg head off then .error (.error .badOperand)
      else checkEntries s (i + 1) n >>= fun rest => .ok (⟨head.tag, head.len, off⟩ :: rest) := by
  rw [checkEntries, demand_eq_ok.2 hhead, Cmd.ok_bind]
  by_cases htag : head.tag = 0
  · rw [require_neg (not_not.2 htag), if_pos (.inl htag), Cmd.error_bind]
  by_cases hlen : head.len.toNat ≤ 254
  · rw [require_pos htag, Cmd.ok_bind, require_pos hlen, Cmd.ok_bind, demand_eq_ok.2 hoff, Cmd.ok_bind]
    by_cases hsize : off.toNat + head.len.toNat ≤ s.cfg.valSize
    · have hgood : ¬badEntry s.cfg head off :=
        not_or.2 ⟨htag, not_or.2 ⟨Nat.not_lt.2 hlen, Nat.not_lt.2 hsize⟩⟩
      rw [require_pos hsize, if_neg hgood]
      rfl
    · rw [require_neg hsize, if_pos (.inr (.inr (Nat.not_le.1 hsize))), Cmd.error_bind]
  · rw [require_pos htag, Cmd.ok_bind, require_neg hlen, if_pos (.inr (.inl (Nat.not_le.1 hlen))), Cmd.error_bind]

/-- One bad entry among written ones is found. -/
theorem checkEntries_badOperand {s : State} {i n : Nat}
    (hwritten : ∀ j, i ≤ j → j < i + n → (readCell s.recHead j).isSome = true ∧ (readCell s.recOff j).isSome = true)
    (hbad : ∃ j head off, i ≤ j ∧ j < i + n ∧ readCell s.recHead j = some head ∧ readCell s.recOff j = some off ∧
      badEntry s.cfg head off) :
    checkEntries s i n = .error (.error .badOperand) := by
  obtain ⟨j, head, off, hij, hj, hhead, hoff, hbad⟩ := hbad
  induction n generalizing i with
  | zero => omega
  | succ n ih =>
    obtain ⟨hsome, hsome'⟩ := hwritten i (le_refl _) (by omega)
    obtain ⟨head', hhead'⟩ := Option.isSome_iff_exists.1 hsome
    obtain ⟨off', hoff'⟩ := Option.isSome_iff_exists.1 hsome'
    rw [checkEntries_succ_of_written hhead' hoff']
    split
    · rfl
    · rename_i hgood
      have hne : i ≠ j := by
        rintro rfl
        rw [hhead] at hhead'
        rw [hoff] at hoff'
        cases hhead'
        cases hoff'
        exact hgood hbad
      rw [ih (fun k hk hkn => hwritten k (by omega) (by omega)) (by omega) (by omega), Cmd.error_bind]

theorem exec_tlvSerialize_badEntry {s : State} (hb : s.bufLen.toNat ≤ s.cfg.bufSize)
    (hmax : s.recCount.toNat ≤ s.cfg.recMax)
    (hentries : checkEntries s 0 s.recCount.toNat = .error (.error .badOperand)) :
    exec .tlvSerialize s = .next { s with status := 0x00002115 } := by
  refine conclude_eq_next.2 (.inr ⟨.badOperand, ?_, rfl⟩)
  rw [tlvSerializeEffect, require_pos hb, Cmd.ok_bind, require_pos hmax, Cmd.ok_bind, hentries, Cmd.error_bind]

/-- Settles O35: the success and its failures. -/
theorem tlvSerializeAppendsTheStream : Obligations.TlvSerializeAppendsTheStream := by
  refine ⟨rfl, fun s => ⟨fun rs hrs hlegal hfit => ?_, exec_tlvSerialize_badOperand, ?_,
    fun _ => exec_tlvSerialize_noSpace⟩⟩
  · have hsize := s.cfg.bufSize_lt
    exact ⟨_, exec_tlvSerialize_ok hrs hlegal hfit, readRange_writeCells_same ..,
      (BitVec.toNat_ofNat _ _).trans (Nat.mod_eq_of_lt (by omega)), rfl⟩
  · rintro hb hmax hwritten ⟨j, head, off, hj, hentry⟩
    exact exec_tlvSerialize_badEntry hb hmax
      (checkEntries_badOperand (fun k _ hk => hwritten k (by omega)) ⟨j, head, off, j.zero_le, by omega, hentry⟩)

/-! ### A record object serialized and parsed -/

/-- The entry tests fail with BadOperand only (60_exceptions rule R207). -/
theorem checkEntries_error_kind {s : State} {i n : Nat} {k : ErrKind}
    (h : checkEntries s i n = .error (.error k)) : k = .badOperand := by
  induction n generalizing i with
  | zero => cases h
  | succ n ih =>
    simp only [checkEntries, Cmd.bind_eq_error, demand_eq_error, require_eq_error, Cmd.pure_eq, Stop.error.injEq,
      reduceCtorEq, and_false, exists_false, or_false, false_or] at h
    rcases h with ⟨_, -, ⟨-, hk⟩ | ⟨_, -, ⟨-, hk⟩ | ⟨_, -, _, -, ⟨-, hk⟩ | ⟨_, -, hrest⟩⟩⟩⟩
    · exact hk
    · exact hk
    · exact hk
    · exact ih hrest

theorem readValues_ne_error {val : List Host.Cell} {ds : List Descriptor} (k : ErrKind) :
    readValues val ds ≠ .error (.error k) := by
  induction ds with
  | nil => exact fun h => by cases h
  | cons d ds ih => simp [readValues, Cmd.bind_eq_error, readBytes_ne_error, ih]

/-- TLV_SERIALIZE fails with BadOperand or NoSpace only (60_exceptions rule R201). -/
theorem tlvSerializeEffect_error_kind {s : State} {k : ErrKind} (h : tlvSerializeEffect s = .error (.error k)) :
    k = .badOperand ∨ k = .noSpace := by
  simp only [tlvSerializeEffect, Cmd.bind_eq_error, require_eq_error, readValues_ne_error, Cmd.pure_eq,
    Stop.error.injEq, reduceCtorEq, and_false, exists_false, or_false] at h
  rcases h with ⟨-, hk⟩ | ⟨_, -, ⟨-, hk⟩ | ⟨_, -, hentries | ⟨_, -, -, hk⟩⟩⟩
  · exact .inl hk
  · exact .inl hk
  · exact .inl (checkEntries_error_kind hentries)
  · exact .inr hk

/-- Where TLV_SERIALIZE reports Ok, the record object is defined and legal, its stream fits and is appended. -/
theorem tlvSerialize_of_exec_ok {s t : State} (h : exec .tlvSerialize s = .next t) (herr : statusErr t.status = 0) :
    ∃ rs, records s = some rs ∧ (∀ r ∈ rs, r.legal) ∧
      s.bufLen.toNat + (encodeTlv rs s.tlvAlign.toNat).length ≤ s.cfg.bufSize ∧
      t = setStatus 0x21 false .ok (appendImage (encodeTlv rs s.tlvAlign.toNat) s) := by
  rcases conclude_eq_next.1 h with ⟨u, hu, rfl⟩ | ⟨k, hk, rfl⟩
  · obtain ⟨-, hmax, ds, rs, hds, hvals, hfit, rfl⟩ := tlvSerializeEffect_eq_ok.1 hu
    obtain ⟨hrs, hlegal⟩ := records_eq_of_entries hmax hds hvals
    exact ⟨rs, hrs, hlegal, hfit, rfl⟩
  · rw [setStatus_status, statusErr_statusWord] at herr
    rcases tlvSerializeEffect_error_kind hk with rfl | rfl <;> cases ErrKind.eq_ok_of_code herr

theorem image_of_bufLen_zero {s : State} (h : s.bufLen = 0) : image s = some [] := by
  rw [image, h]
  exact if_pos (Nat.zero_le _)

/-- A stream serialized into an empty image parses back. -/
theorem exec_tlvParse_of_tlvSerialize {s t : State} (hempty : s.bufLen = 0) (h : exec .tlvSerialize s = .next t)
    (herr : statusErr t.status = 0) :
    ∃ u rs, exec .tlvParse t = .next u ∧ u.status = 0x00002000 ∧ records s = some rs ∧ records u = some rs := by
  obtain ⟨rs, hrs, hlegal, hfit, rfl⟩ := tlvSerialize_of_exec_ok h herr
  obtain ⟨himg, -⟩ := image_appendImage (image_of_bufLen_zero hempty) hfit
  have hparse : parseTlvImg ([] ++ encodeTlv rs s.tlvAlign.toNat) = some rs := by
    simpa using encodedListParsesBack rs s.tlvAlign.toNat [] hlegal
  exact ⟨_, rs, exec_tlvParse_ok himg hparse, rfl, hrs, (records_setStatus ..).trans (records_of_parsed himg hparse)⟩

/-- `Records()` depends on neither the image's length nor the alignment. -/
theorem records_with_bufLen_tlvAlign {s : State} {rs : List Record} (h : records s = some rs) (len align : Word) :
    records { s with bufLen := len, tlvAlign := align } = some rs := by
  obtain ⟨hmax, hlen, hrec⟩ := records_eq_some.1 h
  exact records_eq_some.2 ⟨hmax, hlen, hrec⟩

/-- A record object serialized unpadded into an empty image is the image (30_encoding rule R74). -/
theorem exec_tlvSerialize_into_empty {s : State} {rs : List Record} (hrs : records s = some rs)
    (hlegal : ∀ r ∈ rs, r.legal) (hfit : (encodeList rs).length ≤ s.cfg.bufSize) :
    ∃ u, exec .tlvSerialize { s with bufLen := 0, tlvAlign := 0 } = .next u ∧ u.status = 0x00002100 ∧
      image u = some (encodeList rs) := by
  have hunpadded : encodeTlv rs 0 = encodeList rs := List.append_nil _
  have hfit' : 0 + (encodeTlv rs 0).length ≤ s.cfg.bufSize := by rwa [Nat.zero_add, hunpadded]
  have hexec := exec_tlvSerialize_ok (records_with_bufLen_tlvAlign hrs 0 0) hlegal hfit'
  obtain ⟨himg, -⟩ := image_appendImage (s := { s with bufLen := 0, tlvAlign := 0 }) (image_of_bufLen_zero rfl) hfit'
  exact ⟨_, hexec, rfl, himg.trans (congrArg some hunpadded)⟩

/-- Settles O36: the stream parses to its own records, and these encode to it. -/
theorem tlvRoundTrip : Obligations.TlvRoundTrip := by
  refine ⟨fun s t => exec_tlvParse_of_tlvSerialize, fun s t rs tail himg hlegal h herr => ?_⟩
  obtain ⟨rs', hparse, rfl⟩ := tlvParse_of_exec_ok himg h herr
  have hback : parseTlvImg (encodeList rs ++ tail) = some rs :=
    parseTlvTurns_encodeList hlegal (by rw [List.length_append, encodeList_length]; omega) tail
  obtain rfl : rs = rs' := Option.some.inj (hback.symm.trans hparse)
  have hrecords := (records_setStatus 0x20 false .ok _).trans (records_of_parsed himg hparse)
  refine exec_tlvSerialize_into_empty hrecords hlegal ?_
  obtain ⟨hb, -⟩ := image_eq_some.1 himg
  have hlen := image_length himg
  rw [List.length_append] at hlen
  rw [setStatus_cfg, writeRecordObject_cfg]
  omega

end Sys2Proof.Machine

/-! ## The composite commands (43_workflow rules R172 to R185) -/

namespace Sys2Proof.Machine

/-! ### OP_ADD -/

theorem structural_ne_error {buf : List Host.Cell} {n : Nat} (k : ErrKind) :
    structural buf n ≠ .error (.error k) := by
  unfold structural
  split
  · exact fun h => by cases h
  · simp [Cmd.bind_eq_error, readBytes_ne_error]

/-- The structural probe of a written image (41_suffix rule R111). -/
theorem structural_eq_structuralImg {s : State} {img : List Byte} (h : image s = some img) :
    structural s.buf s.bufLen.toNat = .ok (structuralImg img) := by
  obtain ⟨-, hread⟩ := image_eq_some.1 h
  rw [← image_length h] at hread ⊢
  exact structural_of_image hread

/-- The Suffix OP_ADD appends behind a body: no `extra`, the protocol version fixed (43_workflow rule R172). -/
def freshSuffix (s : State) (body : List Byte) : Suffix where
  bcdDfu := bcdDfuFixed
  idVendor := s.sfxIdVendor
  idProduct := s.sfxIdProduct
  bcdDevice := s.sfxBcdDevice
  extra := []
  crc := trailerCrc s.cfg body (fieldBlock s.sfxBcdDevice s.sfxIdProduct s.sfxIdVendor bcdDfuFixed [])

/-- When OP_ADD fails, and with which kind (43_workflow rule R172). -/
theorem opAddEffect_eq_error {force : Bool} {s : State} {k : ErrKind} :
    opAddEffect force s = .error (.error k) ↔
      s.cfg.bufSize < s.bufLen.toNat ∧ k = .badOperand ∨
      s.bufLen.toNat ≤ s.cfg.bufSize ∧
        ((force = true ∨ structural s.buf s.bufLen.toNat = .ok false) ∧ s.cfg.bufSize < s.bufLen.toNat + 16 ∧
            k = .noSpace ∨
          force = false ∧ structural s.buf s.bufLen.toNat = .ok true ∧ k = .alreadyHasSuffix) := by
  cases force <;> simp [opAddEffect, Cmd.bind_eq_error, readBytes_ne_error, structural_ne_error]

section
variable {s : State} {force : Bool} {body : List Byte}

/-- The policy test on the image's bytes is the command's probe of BUF (43_workflow rule R172). -/
theorem probe_of_policy (himg : image s = some body) (hpolicy : force = true ∨ structuralImg body = false) :
    force = true ∨ structural s.buf s.bufLen.toNat = .ok false :=
  hpolicy.imp_right fun hnot => (structural_eq_structuralImg himg).trans (congrArg _ hnot)

/-- OP_ADD of an image that its policy admits and that has room for the trailer. -/
theorem exec_opAdd_ok (himg : image s = some body) (hpolicy : force = true ∨ structuralImg body = false)
    (hfit : s.bufLen.toNat + 16 ≤ s.cfg.bufSize) :
    ∃ t, exec (.opAdd force) s = .next t ∧ image t = some (body ++ (freshSuffix s body).bytes) ∧
      t.bufLen.toNat = s.bufLen.toNat + 16 ∧
      t = { s with
        status := 0x00003000, buf := t.buf, bufLen := t.bufLen, sfxBcdDfu := 0x0100, sfxExtraLen := 0,
        sfxCrc := (freshSuffix s body).crc } := by
  obtain ⟨hb, hread⟩ := image_eq_some.1 himg
  obtain ⟨himage, hbufLen⟩ := image_appendImage (bs := (freshSuffix s body).bytes) himg hfit
  have heffect := opAddEffect_eq_ok.2 ⟨hb, probe_of_policy himg hpolicy, hfit, body, _, hread, rfl, rfl⟩
  exact ⟨_, conclude_eq_next.2 (.inl ⟨_, heffect, rfl⟩), himage, hbufLen, rfl⟩

theorem exec_opAdd_error {k : ErrKind} (h : opAddEffect force s = .error (.error k)) :
    exec (.opAdd force) s = .next { s with status := statusWord 0x30 false k } :=
  conclude_eq_next.2 (.inr ⟨k, h, rfl⟩)

theorem exec_opAdd_alreadyHasSuffix (himg : image s = some body) (hsound : structuralImg body = true) :
    exec (.opAdd false) s = .next { s with status := 0x00003013 } := by
  obtain ⟨hb, -⟩ := image_eq_some.1 himg
  have hprobe := structural_eq_structuralImg himg
  rw [hsound] at hprobe
  exact exec_opAdd_error (opAddEffect_eq_error.2 (.inr ⟨hb, .inr ⟨rfl, hprobe, rfl⟩⟩))

end

/-- Settles O37: the success and its three failures. -/
theorem opAddAppendsAFreshTrailer : Obligations.OpAddAppendsAFreshTrailer := by
  refine ⟨⟨rfl, rfl⟩, fun s force => ⟨?_, fun hb => ?_, ?_, fun body himg hpolicy hfull => ?_⟩⟩
  · rintro body _ himg hpolicy hfit rfl
    exact exec_opAdd_ok himg hpolicy hfit
  · exact exec_opAdd_error (opAddEffect_eq_error.2 (.inl ⟨hb, rfl⟩))
  · rintro body himg rfl hsound
    exact exec_opAdd_alreadyHasSuffix himg hsound
  · obtain ⟨hb, -⟩ := image_eq_some.1 himg
    exact exec_opAdd_error
      (opAddEffect_eq_error.2 (.inr ⟨hb, .inl ⟨probe_of_policy himg hpolicy, hfull, rfl⟩⟩))

/-- Where OP_ADD reports Ok, the image was written, its policy admitted it and the trailer fits. -/
theorem opAdd_of_exec_ok {force : Bool} {s t : State} (h : exec (.opAdd force) s = .next t)
    (herr : statusErr t.status = 0) :
    ∃ body, image s = some body ∧ (force = true ∨ structuralImg body = false) ∧
      s.bufLen.toNat + 16 ≤ s.cfg.bufSize := by
  rcases conclude_eq_next.1 h with ⟨u, hu, -⟩ | ⟨k, hk, rfl⟩
  · obtain ⟨hb, hprobe, hfit, body, -, hbody, -, -⟩ := opAddEffect_eq_ok.1 hu
    have himg := image_eq_some.2 ⟨hb, hbody⟩
    rw [structural_eq_structuralImg himg, Except.ok.injEq] at hprobe
    exact ⟨body, himg, hprobe, hfit⟩
  · rw [setStatus_status, statusErr_statusWord] at herr
    obtain rfl := ErrKind.eq_ok_of_code herr
    simp [opAddEffect_eq_error] at hk

/-- After a successful OP_ADD the image is the old one and a bare trailer with the right checksum. -/
theorem image_of_opAdd {force : Bool} {s t : State} (h : exec (.opAdd force) s = .next t)
    (herr : statusErr t.status = 0) :
    ∃ (body : List Byte) (x : Suffix), image s = some body ∧ image t = some (body ++ x.bytes) ∧ x.extra = [] ∧
      trailerCrc t.cfg body x.block = x.crc := by
  obtain ⟨body, himg, hpolicy, hfit⟩ := opAdd_of_exec_ok h herr
  obtain ⟨t', ht', himage, -, honly⟩ := exec_opAdd_ok himg hpolicy hfit
  obtain rfl : t = t' := Host.Outcome.next.inj (h.symm.trans ht')
  exact ⟨body, freshSuffix s body, himg, himage, rfl, by rw [honly]; rfl⟩

/-- Settles O44: the image after the first OP_ADD ends in a trailer; a forced OP_ADD takes it as its body. -/
theorem secondAddIsRejectedOrStacks : Obligations.SecondAddIsRejectedOrStacks := by
  intro s t f h herr
  obtain ⟨body, x, -, himg, hextra, -⟩ := image_of_opAdd h herr
  have hx : x.extra.length ≤ extraMax := by simp [hextra]
  refine ⟨exec_opAdd_alreadyHasSuffix himg (structuralImg_append_bytes body hx), fun hfit => ?_⟩
  obtain ⟨u, hu, himage, hbufLen, honly⟩ := exec_opAdd_ok (force := true) himg (.inl rfl) hfit
  have hfresh : (freshSuffix t (body ++ x.bytes)).extra.length ≤ extraMax := Nat.zero_le _
  obtain ⟨hbody, -⟩ := bodyOf_suffixOf_append_bytes (body ++ x.bytes) hfresh
  exact ⟨u, _, _, hu, by rw [honly], hbufLen, himg, himage, structuralImg_append_bytes _ hfresh,
    trailerLength_append_bytes _ hfresh, hbody⟩

/-! ### OP_VERIFY -/

theorem readSuffix_ne_error {buf : List Host.Cell} {n : Nat} (k : ErrKind) :
    readSuffix buf n ≠ .error (.error k) := by
  simp [readSuffix, readHalf, readWord, Cmd.bind_eq_error, readBytes_ne_error]

/-- The document's parse fails with BadOperand, NotASuffix or InvalidCrc only (41_suffix rule R116). -/
theorem parseSuffix_error_kind {v : Bool} {s : State} {k : ErrKind} (h : parseSuffix v s = .error (.error k)) :
    k = .badOperand ∨ k = .notASuffix ∨ k = .invalidCrc := by
  simp only [parseSuffix, Cmd.bind_eq_error, require_eq_error, structural_ne_error, readSuffix_ne_error,
    Stop.error.injEq, false_or] at h
  rcases h with ⟨-, hk⟩ | ⟨_, -, _, -, ⟨-, hk⟩ | ⟨_, -, _, -, h⟩⟩
  · exact .inl hk
  · exact .inr (.inl hk)
  · split at h
    · simp only [Cmd.bind_eq_error, require_eq_error, readBytes_ne_error, Cmd.pure_eq, Stop.error.injEq, reduceCtorEq,
        and_false, exists_false, or_false, false_or] at h
      obtain ⟨_, -, -, hk⟩ := h
      exact .inr (.inr hk)
    · cases h

theorem knownPair_eq_true {x : Suffix} : knownPair x = true ↔ x.idVendor = 0x4A61 ∧ x.idProduct = 0x679C := by
  simp [knownPair, knownVid, knownPid]

section
variable {s : State} {x : Suffix}

theorem exec_opVerify_error {k : ErrKind} (h : parseSuffix true s = .error (.error k)) :
    exec .opVerify s = .next { s with status := statusWord 0x31 false k } := by
  rw [exec, execOpVerify, h]
  rfl

/-- A written image whose trailer fails a check is reported with the verdict's kind (43_workflow rule R175). -/
theorem exec_opVerify_of_verdict {img : List Byte} (himg : image s = some img)
    (hne : trailerVerdict s.cfg true img ≠ .ok) :
    exec .opVerify s = .next { s with status := statusWord 0x31 false (trailerVerdict s.cfg true img) } :=
  exec_opVerify_error ((parseSuffix_of_image himg true).trans (if_neg hne))

theorem exec_opVerify_unknown (hx : parseSuffix true s = .ok x) (hpair : ¬knownPair x = true) :
    exec .opVerify s = .next (setStatus 0x31 false .ok (writeBank x s)) := by
  simp only [exec, execOpVerify, hx, if_neg hpair]
  rfl

theorem exec_opVerify_malformed (hx : parseSuffix true s = .ok x) (hpair : knownPair x = true)
    (hlist : parseTlv s.buf s.bufLen.toNat = .error (.error .malformedTlv)) :
    exec .opVerify s = .next (setStatus 0x31 false .malformedTlv (writeBank x s)) := by
  simp only [exec, execOpVerify, hx, if_pos hpair, hlist]
  rfl

end

/-- The command's scan fails where the image's bytes do not parse (42_tlv rule R142). -/
theorem parseTlv_eq_malformed {s : State} {img : List Byte} (himg : image s = some img)
    (hrs : parseTlvImg img = none) : parseTlv s.buf s.bufLen.toNat = .error (.error .malformedTlv) := by
  obtain ⟨-, hread⟩ := image_eq_some.1 himg
  rw [← image_length himg] at hread ⊢
  rw [parseTlv_of_image hread, hrs]

@[simp] theorem suffixView_writeRecordObject (rs : List Record) (s : State) :
    suffixView (writeRecordObject rs s) = suffixView s := by
  simp [suffixView]

/-- Settles O38: the verdict's error; for a good trailer the bank, and for the known pair the list or its error. -/
theorem opVerifyReports : Obligations.OpVerifyReports := by
  refine ⟨rfl, fun s => ⟨fun img himg => ⟨exec_opVerify_of_verdict himg, fun hok => ?_⟩, fun hb =>
    exec_opVerify_error (parseSuffix_badOperand hb)⟩⟩
  have hx : parseSuffix true s = .ok (suffixOf img) := (parseSuffix_of_image himg true).trans (if_pos hok)
  obtain ⟨-, -, hextra, -⟩ := parseSuffix_eq_ok hx
  have hview := suffixView_writeBank hextra s
  refine ⟨fun hother => ?_, fun hvid hpid => ?_⟩
  · have hpair : ¬knownPair (suffixOf img) = true := fun h => by
      obtain ⟨hvid, hpid⟩ := knownPair_eq_true.1 h
      exact hother.elim (· hvid) (· hpid)
    exact ⟨_, exec_opVerify_unknown hx hpair, rfl, hview, rfl⟩
  · have hpair := knownPair_eq_true.2 ⟨hvid, hpid⟩
    refine ⟨fun hnone => ?_, fun rs hrs => ?_⟩
    · exact ⟨_, exec_opVerify_malformed hx hpair (parseTlv_eq_malformed himg hnone), rfl, hview, rfl⟩
    · obtain ⟨-, hmax, -, -⟩ := parseTlvImg_fits himg hrs
      have himgBank : image (writeBank (suffixOf img) s) = some img := himg
      exact ⟨_, writeBank (suffixOf img) s, exec_opVerify_known hx hpair ((parseTlv_eq_ok_iff himg).2 hrs), rfl,
        (suffixView_writeRecordObject ..).trans hview, recordObjectIs_writeRecordObject hmax,
        (records_setStatus ..).trans (records_of_parsed himgBank hrs), rfl, onlyRecords_writeRecordObject ..⟩

/-- The ways OP_VERIFY ends, with what tells them apart (43_workflow rules R175, R179). -/
theorem opVerify_cases {s t : State} (h : exec .opVerify s = .next t) :
    (∃ k, parseSuffix true s = .error (.error k) ∧ t = setStatus 0x31 false k s) ∨
      ∃ x, parseSuffix true s = .ok x ∧
        (knownPair x = false ∧ t = setStatus 0x31 false .ok (writeBank x s) ∨
          knownPair x = true ∧ t = setStatus 0x31 false .malformedTlv (writeBank x s) ∨
          knownPair x = true ∧ ∃ rs, parseTlv s.buf s.bufLen.toNat = .ok rs ∧
            t = setStatus 0x31 true .ok (writeRecordObject rs (writeBank x s))) := by
  cases hx : parseSuffix true s with
  | error e =>
    cases e with
    | fault f =>
      rw [exec, execOpVerify, hx] at h
      cases h
    | error k => exact .inl ⟨k, rfl, Host.Outcome.next.inj (h.symm.trans (exec_opVerify_error hx))⟩
  | ok x =>
    refine .inr ⟨x, rfl, ?_⟩
    by_cases hpair : knownPair x = true
    · refine .inr ?_
      cases hlist : parseTlv s.buf s.bufLen.toNat with
      | ok rs =>
        exact .inr ⟨hpair, rs, rfl, Host.Outcome.next.inj (h.symm.trans (exec_opVerify_known hx hpair hlist))⟩
      | error e =>
        cases e with
        | fault f =>
          simp only [exec, execOpVerify, hx, if_pos hpair, hlist] at h
          cases h
        | error k =>
          obtain rfl := scanTlv_error_kind hlist
          exact .inl ⟨hpair, Host.Outcome.next.inj (h.symm.trans (exec_opVerify_malformed hx hpair hlist))⟩
    · exact .inl ⟨Bool.eq_false_iff.2 hpair, Host.Outcome.next.inj (h.symm.trans (exec_opVerify_unknown hx hpair))⟩

/-- Settles O39: only OP_VERIFY sets `PFX`, and of its endings only the one that writes the parsed list. -/
theorem pfxTellsOfThePrefixList : Obligations.PfxTellsOfThePrefixList := by
  intro i s t h
  by_cases hi : i = .opVerify
  · subst hi
    rcases opVerify_cases h with ⟨k, hk, rfl⟩ | ⟨x, hx, ⟨hpair, rfl⟩ | ⟨-, rfl⟩ | ⟨hpair, rs, hrs, rfl⟩⟩
    · have hcode : k.code ≠ 0#4 := by rcases parseSuffix_error_kind hk with rfl | rfl | rfl <;> decide
      simp [hcode]
    · have hother : x.idVendor = 0x4A61 → x.idProduct ≠ 0x679C := fun hvid hpid =>
        Bool.false_ne_true (hpair.symm.trans (knownPair_eq_true.2 ⟨hvid, hpid⟩))
      simpa using fun _ => hother
    · simp [ErrKind.code]
    · obtain ⟨img, himg, -⟩ := parseSuffix_true_image hx
      have hlist := (parseTlv_eq_ok_iff himg).1 hrs
      have himgBank : image (writeBank x s) = some img := himg
      have hrecords := records_of_parsed himgBank hlist
      simp [knownPair_eq_true.1 hpair, ErrKind.code, himg, hlist, hrecords]
  · obtain ⟨p, k, hstatus, hp⟩ := exec_status h
    have hpfx : p = false := by simpa [hi] using hp
    simp [hstatus, hpfx, hi]

/-! ### OP_REMOVE -/

section
variable {s : State} {img : List Byte} {force : Bool}

theorem exec_opRemove_error {k : ErrKind} (h : parseSuffix true s = .error (.error k)) :
    exec (.opRemove force) s = .next { s with status := statusWord 0x32 false k } := by
  rw [exec, execOpRemove, h]
  rfl

/-- A written image whose trailer fails a check is not stripped (43_workflow rules R180, R181). -/
theorem exec_opRemove_of_verdict (himg : image s = some img) (hne : trailerVerdict s.cfg true img ≠ .ok) :
    exec (.opRemove force) s = .next { s with status := statusWord 0x32 false (trailerVerdict s.cfg true img) } :=
  exec_opRemove_error ((parseSuffix_of_image himg true).trans (if_neg hne))

/-- OP_REMOVE of a written image whose trailer passes the checks. -/
theorem exec_opRemove_ok (himg : image s = some img) (hok : trailerVerdict s.cfg true img = .ok) :
    ∃ t b, exec (.opRemove force) s = .next t ∧ t.status = 0x00003200 ∧ image t = some (bodyOf img) ∧
      t.bufLen.toNat = s.bufLen.toNat - trailerLength img ∧ suffixView t = some (suffixOf img) ∧
      onlyBank s b ∧ t = { b with bufLen := t.bufLen } := by
  obtain ⟨hsound, -⟩ := trailerVerdict_eq_ok.1 hok
  obtain ⟨-, -, hle⟩ := structuralImg_bounds hsound
  have hx : parseSuffix true s = .ok (suffixOf img) := (parseSuffix_of_image himg true).trans (if_pos hok)
  obtain ⟨-, -, hextra, -⟩ := parseSuffix_eq_ok hx
  have hnext : exec (.opRemove force) s = .next (setStatus 0x32 false .ok
      { writeBank (suffixOf img) s with bufLen := BitVec.ofNat 32 (s.bufLen.toNat - trailerLength img) }) := by
    rw [exec, execOpRemove, hx, ← suffixOf_size hsound]
    rfl
  have himgBank : image (writeBank (suffixOf img) s) = some img := himg
  refine ⟨_, setStatus 0x32 false .ok (writeBank (suffixOf img) s), hnext, rfl, image_cut himgBank hle,
    (BitVec.toNat_ofNat _ _).trans (Nat.mod_eq_of_lt (by have := s.bufLen.isLt; omega)),
    suffixView_writeBank hextra s, rfl, rfl⟩

end

/-- Settles O40: the verdict decides, under either flag. -/
theorem opRemoveStripsTheTrailer : Obligations.OpRemoveStripsTheTrailer :=
  ⟨⟨rfl, rfl⟩, fun _ _ => ⟨fun _ himg => ⟨exec_opRemove_ok himg, exec_opRemove_of_verdict himg⟩, fun hb =>
    exec_opRemove_error (parseSuffix_badOperand hb)⟩⟩

/-- Settles O41: the rule never reads the flag, and the verdict of a wrong checksum is `InvalidCrc`. -/
theorem removeIgnoresForce : Obligations.RemoveIgnoresForce := by
  refine ⟨fun _ => rfl, fun s img force himg hsound hcrc => ?_⟩
  have hverdict : trailerVerdict s.cfg true img = .invalidCrc := by simp [trailerVerdict, hsound, hcrc]
  have hne : trailerVerdict s.cfg true img ≠ .ok := by rw [hverdict]; decide
  rw [exec_opRemove_of_verdict himg hne, hverdict]
  rfl

/-- A trailer with the right checksum, appended to a body, passes the checks (43_workflow rule R182). -/
theorem trailerVerdict_append_bytes {c : Config} {body : List Byte} {x : Suffix} (hx : x.extra.length ≤ extraMax)
    (hcrc : trailerCrc c body x.block = x.crc) (v : Bool) : trailerVerdict c v (body ++ x.bytes) = .ok := by
  obtain ⟨hbody, hsuffix⟩ := bodyOf_suffixOf_append_bytes body hx
  exact trailerVerdict_eq_ok.2 ⟨structuralImg_append_bytes body hx, fun _ => by rw [hbody, hsuffix, hcrc]⟩

/-- After a successful OP_ADD an OP_REMOVE takes the trailer off again (43_workflow rule R182). -/
theorem exec_opRemove_of_opAdd {s t : State} {f : Bool} (h : exec (.opAdd f) s = .next t)
    (herr : statusErr t.status = 0) (g : Bool) :
    ∃ u, exec (.opRemove g) t = .next u ∧ u.status = 0x00003200 ∧ u.bufLen = s.bufLen ∧ image u = image s := by
  obtain ⟨body, x, himg, himgT, hextra, hcrc⟩ := image_of_opAdd h herr
  have hx : x.extra.length ≤ extraMax := by simp [hextra]
  obtain ⟨u, -, hu, hstatus, himgU, hbufLen, -⟩ :=
    exec_opRemove_ok (force := g) himgT (trailerVerdict_append_bytes hx hcrc true)
  obtain ⟨hbody, -⟩ := bodyOf_suffixOf_append_bytes body hx
  have hlen := image_length himg
  have hlenT := image_length himgT
  rw [List.length_append, Suffix.bytes_length] at hlenT
  rw [trailerLength_append_bytes body hx] at hbufLen
  exact ⟨u, hu, hstatus, BitVec.eq_of_toNat_eq (by omega), by rw [himgU, hbody, himg]⟩

/-- Settles O42: the trailer appended verifies, and what lies before it is the old image. -/
theorem addThenRemoveRestoresTheImage : Obligations.AddThenRemoveRestoresTheImage := by
  intro s img f himg hfit
  refine ⟨?_, fun hadmitted => ?_⟩
  · rintro ⟨rfl, hsound⟩
    exact exec_opAdd_alreadyHasSuffix himg hsound
  · have hpolicy : f = true ∨ structuralImg img = false :=
      (not_and_or.1 hadmitted).imp Bool.eq_true_of_not_eq_false Bool.eq_false_of_not_eq_true
    obtain ⟨t, ht, -, -, honly⟩ := exec_opAdd_ok himg hpolicy (image_length himg ▸ hfit)
    have hstatus : t.status = 0x00003000 := by rw [honly]
    have herr : statusErr t.status = 0 := by rw [hstatus]; decide
    exact ⟨t, ht, hstatus, fun g => himg ▸ exec_opRemove_of_opAdd ht herr g⟩

/-- Settles O45: such an image is not structurally sound, whatever else it holds. -/
theorem lengthByteOutOfRangeIsRejected : Obligations.LengthByteOutOfRangeIsRejected := by
  intro s img v g himg h16 hrange
  have hsound : structuralImg img = false := Bool.eq_false_iff.2 fun h => by
    obtain ⟨-, hge, hle⟩ := structuralImg_bounds h
    omega
  have hverdict : ∀ verify, trailerVerdict s.cfg verify img = .notASuffix := fun _ => if_pos hsound
  have hparse : ∀ verify, parseSuffix verify s = .error (.error .notASuffix) := fun verify => by
    rw [parseSuffix_of_image himg, hverdict]
    rfl
  refine ⟨exec_sfxParse_error (hparse v), exec_opVerify_error (hparse true), exec_opRemove_error (hparse true),
    fun hfit => ?_⟩
  obtain ⟨t, ht, -, -, honly⟩ := exec_opAdd_ok himg (.inr hsound) (image_length himg ▸ hfit)
  exact ⟨t, ht, by rw [honly]⟩

/-! ### One byte of a verified image changed (43_workflow rule R183) -/

section
variable {img : List Byte} {p a b : Nat} {v : Byte}

/-- The image after one byte of it is overwritten. -/
theorem image_writeCell {s : State} (h : image s = some img) (hp : p < img.length) (v : Byte) :
    image { s with buf := writeCell s.buf p v } = some (img.set p v) := by
  obtain ⟨hb, hread⟩ := image_eq_some.1 h
  obtain ⟨hlen, hcell⟩ := readRange_eq_some_iff.1 hread
  refine image_eq_some.2 ⟨hb, readRange_eq_some_iff.2 ⟨by simpa using hlen, fun i hi => ?_⟩⟩
  have hi' := hcell i hi
  rw [Nat.zero_add] at hi' ⊢
  rw [readCell_writeCell, List.getElem?_set, hi']
  by_cases hip : i = p
  · simp [hip, hp]
  · simp [hip, Ne.symm hip]

theorem byteAt_set_other {i : Nat} (h : i ≠ p) : byteAt (img.set p v) i = byteAt img i := by
  simp [byteAt, h.symm]

theorem byteAt_set_same (h : p < img.length) : byteAt (img.set p v) p = v := by
  simp [byteAt, h]

/-- A slice sees a changed byte at its place in the slice, and no other. -/
theorem slice_set : slice (img.set p v) a b = if p < a then slice img a b else (slice img a b).set (p - a) v := by
  rw [slice, slice, List.take_set, List.drop_set]

theorem slice_set_outside (h : p < a ∨ b ≤ p) : slice (img.set p v) a b = slice img a b := by
  rw [slice_set]
  split
  · rfl
  · exact List.set_eq_of_length_le (by simp [slice]; omega)

theorem slice_set_ne (ha : a ≤ p) (hb : p < b) (hlen : b ≤ img.length) (hv : v ≠ byteAt img p) :
    slice (img.set p v) a b ≠ slice img a b := fun h => by
  have hbyte := congrArg (byteAt · (p - a)) h
  simp only [byteAt_slice (img := img) (show a + (p - a) < b by omega) hlen,
    byteAt_slice (img := img.set p v) (show a + (p - a) < b by omega) (by simpa using hlen),
    Nat.add_sub_cancel' ha, byteAt_set_same (show p < img.length by omega)] at hbyte
  exact hv hbyte

/-- A changed byte changes the checksum (40_crc rule R97 (d)). -/
theorem crc_set_ne (c : Config) (seed : Word) (hp : p < img.length) (hv : v ≠ byteAt img p) :
    crc c (img.set p v) seed ≠ crc c img seed := by
  have himg : img = img.take p ++ byteAt img p :: img.drop (p + 1) := by
    rw [byteAt_of_lt hp, List.cons_getElem_drop_succ, List.take_append_drop]
  rw [List.set_eq_take_append_cons_drop, if_pos hp]
  conv_rhs => rw [himg]
  exact checksumDetectsOneByteChange c _ _ v (byteAt img p) seed hv

/-- The checks of a trailer on the image's bytes: the checksum of all but the last four is the word in these (41_suffix
rule R114). -/
theorem trailerVerdict_true_eq (c : Config) (img : List Byte) :
    trailerVerdict c true img =
      if structuralImg img = false then .notASuffix
      else if crc c (slice img 0 (img.length - 4)) (defaultSeed c) = rd32 img (img.length - 4) then .ok
      else .invalidCrc := by
  unfold trailerVerdict
  split
  · rfl
  · rename_i hsound
    obtain ⟨-, hsingle⟩ := trailerChecksumIsSinglePass c img (by simpa using hsound)
    rw [hsingle]
    simp [suffixOf]

/-- A changed byte breaks the match of checksum and stored word: it is in one of the two. -/
theorem stored_checksum_set_ne {c : Config} (h4 : 4 ≤ img.length) (hp : p < img.length) (hv : v ≠ byteAt img p)
    (hcrc : crc c (slice img 0 (img.length - 4)) (defaultSeed c) = rd32 img (img.length - 4)) :
    crc c (slice (img.set p v) 0 (img.length - 4)) (defaultSeed c) ≠ rd32 (img.set p v) (img.length - 4) := by
  have hstored : le32 (rd32 img (img.length - 4)) = slice img (img.length - 4) img.length :=
    le32_rd32 (by omega) (le_refl _)
  have hstored' : le32 (rd32 (img.set p v) (img.length - 4)) = slice (img.set p v) (img.length - 4) img.length :=
    le32_rd32 (by omega) (by simp)
  by_cases hfront : p < img.length - 4
  · have hsame : rd32 (img.set p v) (img.length - 4) = rd32 img (img.length - 4) :=
      le32_injective (by rw [hstored, hstored', slice_set_outside (.inl hfront)])
    have hbyte : byteAt (slice img 0 (img.length - 4)) p = byteAt img p := by
      rw [byteAt_slice (by omega) (by omega), Nat.zero_add]
    rw [hsame, ← hcrc, slice_set, if_neg p.not_lt_zero]
    exact crc_set_ne c _ (by rw [slice_length (by omega)]; omega) (hbyte ▸ hv)
  · rw [slice_set_outside (.inr (by omega)), hcrc]
    intro h
    have hslice := hstored.symm.trans ((congrArg le32 h).trans hstored')
    exact slice_set_ne (by omega) hp (le_refl _) hv hslice.symm

/-- Which changed bytes break the structure of a sound image (41_suffix rule R111). -/
theorem structuralImg_set (hsound : structuralImg img = true) (hp : p < img.length) (hv : v ≠ byteAt img p) :
    structuralImg (img.set p v) = false ↔
      img.length - 8 ≤ p ∧ p ≤ img.length - 6 ∨ p = img.length - 5 ∧ (v.toNat < 16 ∨ img.length < v.toNat) := by
  obtain ⟨h16, hsig, hge, hle⟩ := structuralImg_eq_true.1 hsound
  rw [← Bool.not_eq_true, structuralImg_eq_true, List.length_set, trailerLength, List.length_set]
  by_cases hsigByte : img.length - 8 ≤ p ∧ p ≤ img.length - 6
  · have hbroken := slice_set_ne hsigByte.1 (show p < img.length - 5 by omega) (by omega) hv
    rw [hsig] at hbroken
    simp [hbroken, hsigByte]
  · rw [slice_set_outside (by omega), hsig]
    simp only [true_and]
    by_cases hlength : p = img.length - 5
    · subst hlength
      rw [byteAt_set_same hp]
      omega
    · rw [byteAt_set_other (Ne.symm hlength)]
      unfold trailerLength at hge hle
      omega

/-- The verdict after one byte of a verified image is changed (43_workflow rule R183). -/
theorem trailerVerdict_set {c : Config} (hok : trailerVerdict c true img = .ok) (hp : p < img.length)
    (hv : v ≠ byteAt img p) :
    trailerVerdict c true (img.set p v) =
      if img.length - 8 ≤ p ∧ p ≤ img.length - 6 then .notASuffix
      else if p = img.length - 5 ∧ (v.toNat < 16 ∨ img.length < v.toNat) then .notASuffix
      else .invalidCrc := by
  obtain ⟨hsound, hcrc⟩ := trailerVerdict_eq_ok.1 hok
  obtain ⟨h16, -, -⟩ := structuralImg_bounds hsound
  obtain ⟨-, hsingle⟩ := trailerChecksumIsSinglePass c img hsound
  have hbroken := stored_checksum_set_ne (by omega) hp hv (hsingle.symm.trans (hcrc rfl))
  rw [trailerVerdict_true_eq, List.length_set, if_neg hbroken]
  simp only [structuralImg_set hsound hp hv]
  by_cases hsig : img.length - 8 ≤ p ∧ p ≤ img.length - 6
  · rw [if_pos (.inl hsig), if_pos hsig]
  · by_cases hlength : p = img.length - 5 ∧ (v.toNat < 16 ∨ img.length < v.toNat)
    · rw [if_pos (.inr hlength), if_neg hsig, if_pos hlength]
    · rw [if_neg (not_or.2 ⟨hsig, hlength⟩), if_neg hsig, if_neg hlength]

end

theorem xor_bit_ne (b : Byte) {j : Nat} (hj : j < 8) : b ^^^ BitVec.ofNat 8 (2 ^ j) ≠ b := fun h => by
  have hbit : ∀ j < 8, BitVec.ofNat 8 (2 ^ j) ≠ 0 := by decide
  exact hbit j hj (by simpa using h)

/-- Settles O43: the image verifies before the flip, and a changed byte is in the structure, the checksummed bytes or
the stored checksum. -/
theorem oneFlippedBitIsReported : Obligations.OneFlippedBitIsReported := by
  intro s t f img p j b h herr himg hp hj hb
  obtain ⟨body, x, -, himg', hextra, hcrc⟩ := image_of_opAdd h herr
  obtain rfl : body ++ x.bytes = img := Option.some.inj (himg'.symm.trans himg)
  have hok : trailerVerdict t.cfg true (body ++ x.bytes) = .ok :=
    trailerVerdict_append_bytes (by simp [hextra]) hcrc true
  have hflip : b ≠ byteAt (body ++ x.bytes) p := hb ▸ xor_bit_ne _ hj
  have hverdict := trailerVerdict_set hok hp hflip
  have hne : trailerVerdict t.cfg true ((body ++ x.bytes).set p b) ≠ .ok := by
    rw [hverdict]
    split_ifs <;> decide
  rw [exec_opVerify_of_verdict (image_writeCell himg hp b) hne, hverdict]

end Sys2Proof.Machine

/-! ## `STATUS` and failing commands (60_exceptions rules R201 to R204) -/

namespace Sys2Proof.Machine

/-- Settles O23: each field reads back what `statusWord` put in its bits. -/
theorem statusWordFields : Obligations.StatusWordFields :=
  ⟨fun op pfx k => ⟨statusErr_statusWord op pfx k, statusExit_statusWord op pfx k, statusPfx_statusWord op pfx k,
    statusLastOp_statusWord op pfx k, statusWord_reserved_bit op pfx k, statusWord_reserved_high op pfx k⟩, rfl⟩

/-- Settles O46: of the ways a command ends, the failing ones keep the old state or are the malformed record list. -/
theorem failureChangesOnlyStatus : Obligations.FailureChangesOnlyStatus := by
  intro i s t h herr
  cases exec_ends h with
  | fails k =>
    have hk : k ≠ .ok := by
      rintro rfl
      exact herr (statusErr_statusWord ..)
    exact ⟨⟨k, hk, rfl⟩, .inl rfl⟩
  | writes pfx hu => exact absurd (statusErr_statusWord ..) herr
  | malformedList hi hx =>
    obtain ⟨img, himg, -, rfl, -⟩ := parseSuffix_true_image hx
    obtain ⟨-, -, hextra, -⟩ := parseSuffix_eq_ok hx
    exact ⟨⟨.malformedTlv, by decide, rfl⟩,
      .inr ⟨hi, rfl, rfl, img, himg, (suffixView_setStatus ..).trans (suffixView_writeBank hextra s)⟩⟩

/-! ### The error kinds each rule lists (60_exceptions rule R201) -/

theorem ok_mem_outcomes (i : Instr) : .ok ∈ i.outcomes := by
  unfold Instr.outcomes
  split <;> simp

/-- `STATUS` as rules R201, R203 and R204 let a command leave it. -/
def EndsAsListed (i : Instr) (t : State) : Prop :=
  ∃ pfx k, t.status = statusWord i.opc pfx k ∧ k ∈ i.outcomes ∧ (pfx = true → i = .opVerify ∧ k = .ok)

/-- A command whose rule fails with listed kinds only ends as listed. -/
theorem conclude_endsAsListed {i : Instr} {s t : State} {r : Cmd State} (h : conclude i.opc false s r = .next t)
    (hr : ∀ k, r = .error (.error k) → k ∈ i.outcomes) : EndsAsListed i t := by
  rcases conclude_eq_next.1 h with ⟨u, -, rfl⟩ | ⟨k, hk, rfl⟩
  · exact ⟨false, .ok, rfl, ok_mem_outcomes i, by simp⟩
  · exact ⟨false, k, rfl, hr k hk, by simp⟩

section
variable {s : State} {k : ErrKind}

/-- The checksum is tested only where it is to be verified (41_suffix rules R116, R118). -/
theorem parseSuffix_false_ne_invalidCrc : parseSuffix false s ≠ .error (.error .invalidCrc) := by
  simp [parseSuffix, Cmd.bind_eq_error, structural_ne_error, readSuffix_ne_error]

theorem parseSuffix_error_mem_outcomes {v : Bool} (h : parseSuffix v s = .error (.error k)) :
    k ∈ (Instr.sfxParse v).outcomes := by
  rcases parseSuffix_error_kind h with rfl | rfl | rfl
  · cases v <;> simp [Instr.outcomes]
  · cases v <;> simp [Instr.outcomes]
  · cases v with
    | false => exact absurd h parseSuffix_false_ne_invalidCrc
    | true => simp [Instr.outcomes]

theorem opAddEffect_error_mem_outcomes {force : Bool} (h : opAddEffect force s = .error (.error k)) :
    k ∈ (Instr.opAdd force).outcomes := by
  rcases opAddEffect_eq_error.1 h with ⟨-, rfl⟩ | ⟨-, ⟨-, -, rfl⟩ | ⟨rfl, -, rfl⟩⟩
  · cases force <;> simp [Instr.outcomes]
  · cases force <;> simp [Instr.outcomes]
  · simp [Instr.outcomes]

end

/-- A write that follows the tests and reads adds no error kind. -/
theorem error_of_bind_ok {α : Type} {x : Cmd α} {f : α → State} {e : Stop}
    (h : (do let a ← x; return f a : Cmd State) = .error e) : x = .error e := by
  simpa [Cmd.bind_eq_error] using h

theorem execOpVerify_endsAsListed {s t : State} (h : exec .opVerify s = .next t) : EndsAsListed .opVerify t := by
  rcases opVerify_cases h with ⟨k, hk, rfl⟩ | ⟨x, -, ⟨-, rfl⟩ | ⟨-, rfl⟩ | ⟨-, rs, -, rfl⟩⟩
  · refine ⟨false, k, rfl, ?_, by simp⟩
    rcases parseSuffix_error_kind hk with rfl | rfl | rfl <;> simp [Instr.outcomes]
  · exact ⟨false, .ok, rfl, ok_mem_outcomes _, by simp⟩
  · exact ⟨false, .malformedTlv, rfl, by simp [Instr.outcomes], by simp⟩
  · exact ⟨true, .ok, rfl, ok_mem_outcomes _, by simp⟩

/-- Settles O47: the kinds each rule's tests and reads fail with are those its list names. -/
theorem commandEndsAsItsRuleLists : Obligations.CommandEndsAsItsRuleLists := by
  intro i s t h
  cases i with
  | crcInit =>
    cases h
    exact ⟨false, .ok, rfl, ok_mem_outcomes _, by simp⟩
  | crcCompute =>
    refine conclude_endsAsListed h fun k hk => ?_
    obtain rfl := crcComputeEffect_error_kind hk
    simp [Instr.outcomes]
  | sfxParse v => exact conclude_endsAsListed h fun k hk => parseSuffix_error_mem_outcomes (error_of_bind_ok hk)
  | sfxSerialize =>
    refine conclude_endsAsListed h fun k hk => ?_
    rcases sfxSerializeEffect_error_kind hk with rfl | rfl <;> simp [Instr.outcomes]
  | tlvParse =>
    refine conclude_endsAsListed h fun k hk => ?_
    rcases Cmd.bind_eq_error.1 hk with hb | ⟨_, -, hlist⟩
    · obtain ⟨-, hk⟩ := require_eq_error.1 hb
      cases hk
      simp [Instr.outcomes]
    · obtain rfl := scanTlv_error_kind (error_of_bind_ok hlist)
      simp [Instr.outcomes]
  | tlvSerialize =>
    refine conclude_endsAsListed h fun k hk => ?_
    rcases tlvSerializeEffect_error_kind hk with rfl | rfl <;> simp [Instr.outcomes]
  | opAdd force => exact conclude_endsAsListed h fun k hk => opAddEffect_error_mem_outcomes hk
  | opVerify => exact execOpVerify_endsAsListed h
  | opRemove force =>
    -- The list of OP_REMOVE is that of SFX_PARSE.V (43_workflow rule R180).
    exact conclude_endsAsListed (i := .opRemove force) h fun k hk =>
      parseSuffix_error_mem_outcomes (v := true) (error_of_bind_ok hk)

end Sys2Proof.Machine

/-! ## Reset and the end of a run (70_reset_and_hazards rules R230 and R237) -/

namespace Sys2Proof.Machine

theorem step_of_script_nil {s : State} (hs : s.script = []) : step s = .refused .endOfScript := by
  simp only [step, hs]

/-- The platform's reset is an event like any other: the host's remaining events and what it has read stay. -/
theorem step_reset {s : State} {rest : List HostEvent} (hs : s.script = .reset :: rest) :
    step s = .next { State.resetIn s.cfg with script := rest, readback := s.readback } :=
  step_eq_hostEvent hs rfl

/-- The table of 10_state rule R32; only `CRC_ACC` depends on the configuration. -/
theorem readReg_resetIn (c : Config) :
    (List.range 15).map (fun n => readReg n (State.resetIn c)) =
      [0, 0, 0, defaultSeed c, 0, 0, 0x0100, 0xFFFF, 0xFFFF, 0xFFFF, 0, 16, 0, 0, 0] := rfl

/-- Settles O6: `step` refuses on an empty script. -/
theorem runEndsWithTheScript : Obligations.RunEndsWithTheScript :=
  fun _ hs => step_of_script_nil hs

/-- Settles O13: the table of reset values, and the step at a reset event. -/
theorem resetRegisterValues : Obligations.ResetRegisterValues :=
  ⟨readReg_resetIn, rfl, fun _ _ hs => step_reset hs⟩

end Sys2Proof.Machine
